-- ==== Sys2Proof/Word.lean ====
section
/-! DEFINITION. The machine's vector types (`spec/00_scope.md` R7, R8): registers, addresses and
instruction words are vectors of exactly 32 bits. -/
namespace Sys2Proof

/-- A register value, an address or an instruction word (R8). -/
abbrev Word := BitVec 32

/-- A memory byte (R32). -/
abbrev Byte := BitVec 8

/-- A general register index, a 5-bit field, hence in [0, 31] (`30_encoding.md` R69). -/
abbrev Reg := BitVec 5

/-- The 64-bit accumulator `HI ‖ LO` (R8). -/
abbrev DWord := BitVec 64

end Sys2Proof
end

