-- ==== Sys2Proof/Machine/Flags.lean ====
section
/-! DEFINITION. The core has no flags (`spec/10_state.md` R22). What takes their place: the signed
overflow that faults (`41_arithmetic.md` R80 (b)) and the 0 or 1 of a comparison (R80 (c)). -/
namespace Sys2Proof.Machine

/-- An exact result outside [-2^31, 2^31 - 1] (R80 (b)). -/
def signedOverflow (z : Int) : Bool := decide (z < -2147483648) || decide (2147483647 < z)

/-- 1 where the comparison holds, else 0 (R80 (c)). -/
def compareResult (b : Bool) : Word := if b then 1 else 0

/-- `signed(a) < signed(b)`. -/
def signedLess (a b : Word) : Bool := decide (a.toInt < b.toInt)

/-- `unsigned(a) < unsigned(b)`. -/
def unsignedLess (a b : Word) : Bool := decide (a.toNat < b.toNat)

end Sys2Proof.Machine
end

