-- ==== Sys2Proof/Machine/Operands.lean ====
section
/-! DEFINITION. How operands are made from instruction fields and register values
(`spec/30_encoding.md` R55): immediates, addresses, targets, shift amounts, and narrowing. -/
namespace Sys2Proof.Machine

/-- `sext_32(I.imm16)`: signed immediates and load, store and branch offsets (R55). -/
def sext16 (imm : BitVec 16) : Word := imm.signExtend 32

/-- `zext_32(I.imm16)`: logical immediates (R55). -/
def zext16 (imm : BitVec 16) : Word := imm.setWidth 32

/-- `I.imm16 ‖ 0^16` (R55). -/
def upperImm (imm : BitVec 16) : Word := imm ++ 0#16

/-- `EA = (x[rs] + sext_32(imm16)) mod 2^32` (`46_load.md` R125 (a), `47_store.md` R134 (a)). -/
def effectiveAddr (base : Word) (offset : BitVec 16) : Word := base + sext16 offset

/-- `here + 4 + (sext_32(imm16) << 2)` (`44_branch.md` R111 (a)). -/
def branchTarget (here : Word) (offset : BitVec 16) : Word := here + 4 + (sext16 offset <<< 2)

/-- `((here + 4) AND 0xF0000000) OR (index26 << 2)` (`45_jump.md` R120 (b)). -/
def jumpTarget (here : Word) (index : BitVec 26) : Word :=
  ((here + 4) &&& 0xF0000000#32) ||| (index.setWidth 32 <<< 2)

/-- The link value `here + 8` (`44_branch.md` R111 (e), `45_jump.md` R120 (d)). -/
def linkValue (here : Word) : Word := here + 8

/-- `x[rs][4:0]`, the amount of a variable shift (`43_shift.md` R104). -/
def shiftAmount (v : Word) : Nat := (v.extractLsb' 0 5).toNat

/-- `EA[1:0]` (`46_load.md` R131). -/
def lowTwo (ea : Word) : Nat := (ea.extractLsb' 0 2).toNat

/-- `2^(8n) - 1`: ones in the low `n` bytes (`46_load.md` R131, R132). -/
def lowBytesMask (n : Nat) : Word := BitVec.ofNat 32 (2 ^ (8 * n) - 1)

/-- `sext_32` of a byte, the low 8 bits of `v` (`46_load.md` R126). -/
def signedByte (v : Word) : Word := (v.setWidth 8).signExtend 32

/-- `sext_32` of a halfword, the low 16 bits of `v` (`46_load.md` R128). -/
def signedHalf (v : Word) : Word := (v.setWidth 16).signExtend 32

/-- What LWL leaves in `rt` (`46_load.md` R131): the bytes `v` read are the most significant, the low
`k` bytes of the old value are kept. -/
def mergeLeft (old v : Word) (k : Nat) : Word := (v <<< (8 * k)) ||| (old &&& lowBytesMask k)

/-- What LWR leaves in `rt` (`46_load.md` R132): the `n` bytes `v` read are the least significant, the
others of the old value are kept. -/
def mergeRight (old v : Word) (n : Nat) : Word := (old &&& ~~~(lowBytesMask n)) ||| v

/-- Zeros of `v` from bit `n - 1` downward, up to the first one. -/
def leadingZeros (v : Word) : Nat → Nat
  | 0 => 0
  | n + 1 => if v.getLsbD n then 0 else 1 + leadingZeros v n

/-- CLZ (`42_logical.md` R102). -/
def countLeadingZeros (v : Word) : Word := BitVec.ofNat 32 (leadingZeros v 32)

/-- CLO (`42_logical.md` R103): CLZ of the complement. -/
def countLeadingOnes (v : Word) : Word := countLeadingZeros (~~~v)

/-- The signed product modulo 2^64 (`48_muldiv.md` R142). -/
def signedProduct (a b : Word) : DWord := BitVec.ofInt 64 (a.toInt * b.toInt)

/-- The unsigned product (`48_muldiv.md` R143). -/
def unsignedProduct (a b : Word) : DWord := BitVec.ofNat 64 (a.toNat * b.toNat)

end Sys2Proof.Machine
end

