-- ==== Sys2Proof/Syntax.lean ====
section
/-! DEFINITION. The decoded instruction (`spec/30_encoding.md` R52, R62): one constructor for each of
the 69 rows of the opcode table, operands in the assembler's order (R66), each of exactly the width of
its field (R52). The fields the core does not use but does not require to be zero (the `rt` of CLZ and
CLO, the code of SYSCALL, the stype of SYNC) are kept, so that the word can be told from its
instruction. -/
namespace Sys2Proof

/-- The admitted instructions (R62). -/
inductive Instr where
  -- arithmetic (`41_arithmetic.md`)
  | add (rd rs rt : Reg)
  | addu (rd rs rt : Reg)
  | sub (rd rs rt : Reg)
  | subu (rd rs rt : Reg)
  | addi (rt rs : Reg) (imm : BitVec 16)
  | addiu (rt rs : Reg) (imm : BitVec 16)
  | slt (rd rs rt : Reg)
  | sltu (rd rs rt : Reg)
  | slti (rt rs : Reg) (imm : BitVec 16)
  | sltiu (rt rs : Reg) (imm : BitVec 16)
  | movz (rd rs rt : Reg)
  | movn (rd rs rt : Reg)
  -- logical (`42_logical.md`)
  | and (rd rs rt : Reg)
  | or (rd rs rt : Reg)
  | xor (rd rs rt : Reg)
  | nor (rd rs rt : Reg)
  | andi (rt rs : Reg) (imm : BitVec 16)
  | ori (rt rs : Reg) (imm : BitVec 16)
  | xori (rt rs : Reg) (imm : BitVec 16)
  | lui (rt : Reg) (imm : BitVec 16)
  | clz (rd rs rt : Reg)
  | clo (rd rs rt : Reg)
  -- shift (`43_shift.md`)
  | sll (rd rt : Reg) (sa : BitVec 5)
  | srl (rd rt : Reg) (sa : BitVec 5)
  | sra (rd rt : Reg) (sa : BitVec 5)
  | sllv (rd rt rs : Reg)
  | srlv (rd rt rs : Reg)
  | srav (rd rt rs : Reg)
  -- branch (`44_branch.md`)
  | beq (rs rt : Reg) (offset : BitVec 16)
  | bne (rs rt : Reg) (offset : BitVec 16)
  | blez (rs : Reg) (offset : BitVec 16)
  | bgtz (rs : Reg) (offset : BitVec 16)
  | bltz (rs : Reg) (offset : BitVec 16)
  | bgez (rs : Reg) (offset : BitVec 16)
  | bltzal (rs : Reg) (offset : BitVec 16)
  | bgezal (rs : Reg) (offset : BitVec 16)
  -- jump (`45_jump.md`)
  | j (index : BitVec 26)
  | jal (index : BitVec 26)
  | jr (rs : Reg)
  | jalr (rd rs : Reg)
  -- load (`46_load.md`)
  | lb (rt : Reg) (offset : BitVec 16) (base : Reg)
  | lbu (rt : Reg) (offset : BitVec 16) (base : Reg)
  | lh (rt : Reg) (offset : BitVec 16) (base : Reg)
  | lhu (rt : Reg) (offset : BitVec 16) (base : Reg)
  | lw (rt : Reg) (offset : BitVec 16) (base : Reg)
  | lwl (rt : Reg) (offset : BitVec 16) (base : Reg)
  | lwr (rt : Reg) (offset : BitVec 16) (base : Reg)
  | ll (rt : Reg) (offset : BitVec 16) (base : Reg)
  -- store (`47_store.md`)
  | sb (rt : Reg) (offset : BitVec 16) (base : Reg)
  | sh (rt : Reg) (offset : BitVec 16) (base : Reg)
  | sw (rt : Reg) (offset : BitVec 16) (base : Reg)
  | swl (rt : Reg) (offset : BitVec 16) (base : Reg)
  | swr (rt : Reg) (offset : BitVec 16) (base : Reg)
  | sc (rt : Reg) (offset : BitVec 16) (base : Reg)
  -- multiplyDivide (`48_muldiv.md`)
  | mult (rs rt : Reg)
  | multu (rs rt : Reg)
  | div (rs rt : Reg)
  | divu (rs rt : Reg)
  | mfhi (rd : Reg)
  | mflo (rd : Reg)
  | mthi (rs : Reg)
  | mtlo (rs : Reg)
  | mul (rd rs rt : Reg)
  | madd (rs rt : Reg)
  | maddu (rs rt : Reg)
  | msub (rs rt : Reg)
  | msubu (rs rt : Reg)
  -- trap (`49_trap_noop.md`)
  | syscall (code : BitVec 20)
  -- noOp (`49_trap_noop.md`)
  | sync (stype : BitVec 5)
  deriving DecidableEq, Repr

/-- The 69 mnemonics (R62). -/
inductive Mnemonic where
  | add | addu | sub | subu | addi | addiu | slt | sltu | slti | sltiu | movz | movn
  | and | or | xor | nor | andi | ori | xori | lui | clz | clo
  | sll | srl | sra | sllv | srlv | srav
  | beq | bne | blez | bgtz | bltz | bgez | bltzal | bgezal
  | j | jal | jr | jalr
  | lb | lbu | lh | lhu | lw | lwl | lwr | ll
  | sb | sh | sw | swl | swr | sc
  | mult | multu | div | divu | mfhi | mflo | mthi | mtlo | mul | madd | maddu | msub | msubu
  | syscall
  | sync
  deriving DecidableEq, Repr

/-- The operation classes (R52, R62). -/
inductive OpClass where
  | arithmetic | logical | shift | branch | jump | load | store | multiplyDivide | trap | noOp
  deriving DecidableEq, Repr

/-- The mnemonic of an instruction. -/
def Instr.mnemonic : Instr → Mnemonic
  | .add .. => .add
  | .addu .. => .addu
  | .sub .. => .sub
  | .subu .. => .subu
  | .addi .. => .addi
  | .addiu .. => .addiu
  | .slt .. => .slt
  | .sltu .. => .sltu
  | .slti .. => .slti
  | .sltiu .. => .sltiu
  | .movz .. => .movz
  | .movn .. => .movn
  | .and .. => .and
  | .or .. => .or
  | .xor .. => .xor
  | .nor .. => .nor
  | .andi .. => .andi
  | .ori .. => .ori
  | .xori .. => .xori
  | .lui .. => .lui
  | .clz .. => .clz
  | .clo .. => .clo
  | .sll .. => .sll
  | .srl .. => .srl
  | .sra .. => .sra
  | .sllv .. => .sllv
  | .srlv .. => .srlv
  | .srav .. => .srav
  | .beq .. => .beq
  | .bne .. => .bne
  | .blez .. => .blez
  | .bgtz .. => .bgtz
  | .bltz .. => .bltz
  | .bgez .. => .bgez
  | .bltzal .. => .bltzal
  | .bgezal .. => .bgezal
  | .j .. => .j
  | .jal .. => .jal
  | .jr .. => .jr
  | .jalr .. => .jalr
  | .lb .. => .lb
  | .lbu .. => .lbu
  | .lh .. => .lh
  | .lhu .. => .lhu
  | .lw .. => .lw
  | .lwl .. => .lwl
  | .lwr .. => .lwr
  | .ll .. => .ll
  | .sb .. => .sb
  | .sh .. => .sh
  | .sw .. => .sw
  | .swl .. => .swl
  | .swr .. => .swr
  | .sc .. => .sc
  | .mult .. => .mult
  | .multu .. => .multu
  | .div .. => .div
  | .divu .. => .divu
  | .mfhi .. => .mfhi
  | .mflo .. => .mflo
  | .mthi .. => .mthi
  | .mtlo .. => .mtlo
  | .mul .. => .mul
  | .madd .. => .madd
  | .maddu .. => .maddu
  | .msub .. => .msub
  | .msubu .. => .msubu
  | .syscall .. => .syscall
  | .sync .. => .sync

/-- The class of a mnemonic (R62). -/
def Mnemonic.opClass : Mnemonic → OpClass
  | .add | .addu | .sub | .subu | .addi | .addiu | .slt | .sltu | .slti | .sltiu | .movz
  | .movn => .arithmetic
  | .and | .or | .xor | .nor | .andi | .ori | .xori | .lui | .clz | .clo => .logical
  | .sll | .srl | .sra | .sllv | .srlv | .srav => .shift
  | .beq | .bne | .blez | .bgtz | .bltz | .bgez | .bltzal | .bgezal => .branch
  | .j | .jal | .jr | .jalr => .jump
  | .lb | .lbu | .lh | .lhu | .lw | .lwl | .lwr | .ll => .load
  | .sb | .sh | .sw | .swl | .swr | .sc => .store
  | .mult | .multu | .div | .divu | .mfhi | .mflo | .mthi | .mtlo | .mul | .madd | .maddu
  | .msub | .msubu => .multiplyDivide
  | .syscall => .trap
  | .sync => .noOp

/-- The class of an instruction (R52, R62). -/
def Instr.opClass (i : Instr) : OpClass := i.mnemonic.opClass

end Sys2Proof
end

