-- ==== Sys2Proof/Decode.lean ====
section
/-! DEFINITION. The Decoder (`spec/30_encoding.md`): the fields (R52, R54), the opcode maps (R57 to
R59), `Reserved` and `Invalid` (R60, R61), the byte order of an instruction (R53), and after them the
encoder, written from the same tables, and the rows of the opcode table as data. -/
namespace Sys2Proof

/-! ### Fields (R52, R54) -/

/-- `I.opcode` = `w[31:26]`. -/
def fieldOpcode (w : Word) : BitVec 6 := w.extractLsb' 26 6
/-- `I.rs` = `w[25:21]`. -/
def fieldRs (w : Word) : Reg := w.extractLsb' 21 5
/-- `I.rt` = `w[20:16]`. -/
def fieldRt (w : Word) : Reg := w.extractLsb' 16 5
/-- `I.rd` = `w[15:11]`. -/
def fieldRd (w : Word) : Reg := w.extractLsb' 11 5
/-- `I.shamt` = `w[10:6]`; the same bits are `I.stype`. -/
def fieldShamt (w : Word) : BitVec 5 := w.extractLsb' 6 5
/-- `I.funct` = `w[5:0]`. -/
def fieldFunct (w : Word) : BitVec 6 := w.extractLsb' 0 6
/-- `I.imm16` = `w[15:0]`. -/
def fieldImm (w : Word) : BitVec 16 := w.extractLsb' 0 16
/-- `I.index26` = `w[25:0]`. -/
def fieldIndex (w : Word) : BitVec 26 := w.extractLsb' 0 26
/-- `I.code` = `w[25:6]`. -/
def fieldCode (w : Word) : BitVec 20 := w.extractLsb' 6 20

/-! ### Decoding (R56) -/

/-- What the decoder answers: an admitted instruction, or one of the two variants of R60, each with the
whole word. -/
inductive Decoded where
  | instr (i : Instr)
  | reserved (w : Word)
  | invalid (w : Word)
  deriving DecidableEq, Repr

/-- The instruction, where the fields that R61 requires to be zero are zero; else `Reserved`. -/
def Decoded.checked (zeroFields : Bool) (w : Word) (i : Instr) : Decoded :=
  if zeroFields then .instr i else .reserved w

/-- The `SPECIAL` function map, opcode 000000 (R58), with the must-be-zero fields of R61. -/
def decodeSpecial (w : Word) : Decoded :=
  let rs := fieldRs w
  let rt := fieldRt w
  let rd := fieldRd w
  let sa := fieldShamt w
  match (fieldFunct w).toNat with
  | 0x00 => .checked (decide (rs = 0)) w (.sll rd rt sa)
  | 0x02 => .checked (decide (rs = 0)) w (.srl rd rt sa)
  | 0x03 => .checked (decide (rs = 0)) w (.sra rd rt sa)
  | 0x04 => .checked (decide (sa = 0)) w (.sllv rd rt rs)
  | 0x06 => .checked (decide (sa = 0)) w (.srlv rd rt rs)
  | 0x07 => .checked (decide (sa = 0)) w (.srav rd rt rs)
  | 0x08 => .checked (decide (rt = 0 ∧ rd = 0 ∧ sa = 0)) w (.jr rs)
  | 0x09 => .checked (decide (rt = 0 ∧ sa = 0)) w (.jalr rd rs)
  | 0x0A => .checked (decide (sa = 0)) w (.movz rd rs rt)
  | 0x0B => .checked (decide (sa = 0)) w (.movn rd rs rt)
  | 0x0C => .instr (.syscall (fieldCode w))
  | 0x0F => .checked (decide (rs = 0 ∧ rt = 0 ∧ rd = 0)) w (.sync sa)
  | 0x10 => .checked (decide (rs = 0 ∧ rt = 0 ∧ sa = 0)) w (.mfhi rd)
  | 0x11 => .checked (decide (rt = 0 ∧ rd = 0 ∧ sa = 0)) w (.mthi rs)
  | 0x12 => .checked (decide (rs = 0 ∧ rt = 0 ∧ sa = 0)) w (.mflo rd)
  | 0x13 => .checked (decide (rt = 0 ∧ rd = 0 ∧ sa = 0)) w (.mtlo rs)
  | 0x18 => .checked (decide (rd = 0 ∧ sa = 0)) w (.mult rs rt)
  | 0x19 => .checked (decide (rd = 0 ∧ sa = 0)) w (.multu rs rt)
  | 0x1A => .checked (decide (rd = 0 ∧ sa = 0)) w (.div rs rt)
  | 0x1B => .checked (decide (rd = 0 ∧ sa = 0)) w (.divu rs rt)
  | 0x20 => .checked (decide (sa = 0)) w (.add rd rs rt)
  | 0x21 => .checked (decide (sa = 0)) w (.addu rd rs rt)
  | 0x22 => .checked (decide (sa = 0)) w (.sub rd rs rt)
  | 0x23 => .checked (decide (sa = 0)) w (.subu rd rs rt)
  | 0x24 => .checked (decide (sa = 0)) w (.and rd rs rt)
  | 0x25 => .checked (decide (sa = 0)) w (.or rd rs rt)
  | 0x26 => .checked (decide (sa = 0)) w (.xor rd rs rt)
  | 0x27 => .checked (decide (sa = 0)) w (.nor rd rs rt)
  | 0x2A => .checked (decide (sa = 0)) w (.slt rd rs rt)
  | 0x2B => .checked (decide (sa = 0)) w (.sltu rd rs rt)
  | _ => .invalid w

/-- The `SPECIAL2` function map, opcode 011100 (R59). The `rt` field of CLZ and CLO is not checked
(R61). -/
def decodeSpecial2 (w : Word) : Decoded :=
  let rs := fieldRs w
  let rt := fieldRt w
  let rd := fieldRd w
  let sa := fieldShamt w
  match (fieldFunct w).toNat with
  | 0x00 => .checked (decide (rd = 0 ∧ sa = 0)) w (.madd rs rt)
  | 0x01 => .checked (decide (rd = 0 ∧ sa = 0)) w (.maddu rs rt)
  | 0x02 => .checked (decide (sa = 0)) w (.mul rd rs rt)
  | 0x04 => .checked (decide (rd = 0 ∧ sa = 0)) w (.msub rs rt)
  | 0x05 => .checked (decide (rd = 0 ∧ sa = 0)) w (.msubu rs rt)
  | 0x20 => .checked (decide (sa = 0)) w (.clz rd rs rt)
  | 0x21 => .checked (decide (sa = 0)) w (.clo rd rs rt)
  | _ => .invalid w

/-- The `REGIMM` map, opcode 000001, selected by the `rt` field (R59). -/
def decodeRegimm (w : Word) : Decoded :=
  match (fieldRt w).toNat with
  | 0x00 => .instr (.bltz (fieldRs w) (fieldImm w))
  | 0x01 => .instr (.bgez (fieldRs w) (fieldImm w))
  | 0x10 => .instr (.bltzal (fieldRs w) (fieldImm w))
  | 0x11 => .instr (.bgezal (fieldRs w) (fieldImm w))
  | _ => .invalid w

/-- `decode` (R56): the primary opcode map of R57. Total, and a function of the word alone (R68). -/
def decode (w : Word) : Decoded :=
  let rs := fieldRs w
  let rt := fieldRt w
  let imm := fieldImm w
  match (fieldOpcode w).toNat with
  | 0x00 => decodeSpecial w
  | 0x01 => decodeRegimm w
  | 0x02 => .instr (.j (fieldIndex w))
  | 0x03 => .instr (.jal (fieldIndex w))
  | 0x04 => .instr (.beq rs rt imm)
  | 0x05 => .instr (.bne rs rt imm)
  | 0x06 => .checked (decide (rt = 0)) w (.blez rs imm)
  | 0x07 => .checked (decide (rt = 0)) w (.bgtz rs imm)
  | 0x08 => .instr (.addi rt rs imm)
  | 0x09 => .instr (.addiu rt rs imm)
  | 0x0A => .instr (.slti rt rs imm)
  | 0x0B => .instr (.sltiu rt rs imm)
  | 0x0C => .instr (.andi rt rs imm)
  | 0x0D => .instr (.ori rt rs imm)
  | 0x0E => .instr (.xori rt rs imm)
  | 0x0F => .checked (decide (rs = 0)) w (.lui rt imm)
  | 0x1C => decodeSpecial2 w
  | 0x20 => .instr (.lb rt imm rs)
  | 0x21 => .instr (.lh rt imm rs)
  | 0x22 => .instr (.lwl rt imm rs)
  | 0x23 => .instr (.lw rt imm rs)
  | 0x24 => .instr (.lbu rt imm rs)
  | 0x25 => .instr (.lhu rt imm rs)
  | 0x26 => .instr (.lwr rt imm rs)
  | 0x28 => .instr (.sb rt imm rs)
  | 0x29 => .instr (.sh rt imm rs)
  | 0x2A => .instr (.swl rt imm rs)
  | 0x2B => .instr (.sw rt imm rs)
  | 0x2E => .instr (.swr rt imm rs)
  | 0x30 => .instr (.ll rt imm rs)
  | 0x38 => .instr (.sc rt imm rs)
  | _ => .invalid w

/-! ### Bytes (R53) -/

/-- What reading an instruction from bytes gives: the decoded word and the bytes after it, or the name
of the reason there is none. -/
inductive ByteDecode where
  | word (d : Decoded) (rest : List Byte)
  | tooShort (bytes : Nat)
  deriving DecidableEq, Repr

/-- Every instruction is four bytes, the first the most significant (R53). -/
def decodeBytes : List Byte → ByteDecode
  | b0 :: b1 :: b2 :: b3 :: rest => .word (decode (b0 ++ b1 ++ b2 ++ b3)) rest
  | bytes => .tooShort bytes.length

/-- The four bytes of a word, most significant first (R53). -/
def wordBytes (w : Word) : List Byte :=
  [w.extractLsb' 24 8, w.extractLsb' 16 8, w.extractLsb' 8 8, w.extractLsb' 0 8]

/-- The word whose low `nbits` bits are those of `w`, the others 0. -/
def tableWord (nbits w : Nat) : Word := BitVec.ofNat 32 (w % 2 ^ nbits)

/-- The instruction the decoder reads from the bytes of a word of the opcode table. -/
def decodeTableWord (nbits w : Nat) : Option Instr :=
  match decodeBytes (wordBytes (tableWord nbits w)) with
  | .word (.instr i) _ => some i
  | .word (.reserved _) _ => none
  | .word (.invalid _) _ => none
  | .tooShort _ => none

/-! ### Encoding (R54, R57 to R59) -/

/-- The R format. -/
def encodeR (op : BitVec 6) (rs rt rd : Reg) (shamt : BitVec 5) (funct : BitVec 6) : Word :=
  op ++ rs ++ rt ++ rd ++ shamt ++ funct

/-- The I format. -/
def encodeI (op : BitVec 6) (rs rt : Reg) (imm : BitVec 16) : Word := op ++ rs ++ rt ++ imm

/-- The J format. -/
def encodeJ (op : BitVec 6) (index : BitVec 26) : Word := op ++ index

/-- SYSCALL's word, whose code takes the place of four fields (R52). -/
def encodeSyscall (code : BitVec 20) : Word := 0x00#6 ++ code ++ 0x0C#6

/-- The word of an instruction; every field it does not use is 0 (R61). -/
def encode : Instr → Word
  | .add rd rs rt => encodeR 0x00#6 rs rt rd 0 0x20#6
  | .addu rd rs rt => encodeR 0x00#6 rs rt rd 0 0x21#6
  | .sub rd rs rt => encodeR 0x00#6 rs rt rd 0 0x22#6
  | .subu rd rs rt => encodeR 0x00#6 rs rt rd 0 0x23#6
  | .addi rt rs imm => encodeI 0x08#6 rs rt imm
  | .addiu rt rs imm => encodeI 0x09#6 rs rt imm
  | .slt rd rs rt => encodeR 0x00#6 rs rt rd 0 0x2A#6
  | .sltu rd rs rt => encodeR 0x00#6 rs rt rd 0 0x2B#6
  | .slti rt rs imm => encodeI 0x0A#6 rs rt imm
  | .sltiu rt rs imm => encodeI 0x0B#6 rs rt imm
  | .movz rd rs rt => encodeR 0x00#6 rs rt rd 0 0x0A#6
  | .movn rd rs rt => encodeR 0x00#6 rs rt rd 0 0x0B#6
  | .and rd rs rt => encodeR 0x00#6 rs rt rd 0 0x24#6
  | .or rd rs rt => encodeR 0x00#6 rs rt rd 0 0x25#6
  | .xor rd rs rt => encodeR 0x00#6 rs rt rd 0 0x26#6
  | .nor rd rs rt => encodeR 0x00#6 rs rt rd 0 0x27#6
  | .andi rt rs imm => encodeI 0x0C#6 rs rt imm
  | .ori rt rs imm => encodeI 0x0D#6 rs rt imm
  | .xori rt rs imm => encodeI 0x0E#6 rs rt imm
  | .lui rt imm => encodeI 0x0F#6 0 rt imm
  | .clz rd rs rt => encodeR 0x1C#6 rs rt rd 0 0x20#6
  | .clo rd rs rt => encodeR 0x1C#6 rs rt rd 0 0x21#6
  | .sll rd rt sa => encodeR 0x00#6 0 rt rd sa 0x00#6
  | .srl rd rt sa => encodeR 0x00#6 0 rt rd sa 0x02#6
  | .sra rd rt sa => encodeR 0x00#6 0 rt rd sa 0x03#6
  | .sllv rd rt rs => encodeR 0x00#6 rs rt rd 0 0x04#6
  | .srlv rd rt rs => encodeR 0x00#6 rs rt rd 0 0x06#6
  | .srav rd rt rs => encodeR 0x00#6 rs rt rd 0 0x07#6
  | .beq rs rt offset => encodeI 0x04#6 rs rt offset
  | .bne rs rt offset => encodeI 0x05#6 rs rt offset
  | .blez rs offset => encodeI 0x06#6 rs 0x00#5 offset
  | .bgtz rs offset => encodeI 0x07#6 rs 0x00#5 offset
  | .bltz rs offset => encodeI 0x01#6 rs 0x00#5 offset
  | .bgez rs offset => encodeI 0x01#6 rs 0x01#5 offset
  | .bltzal rs offset => encodeI 0x01#6 rs 0x10#5 offset
  | .bgezal rs offset => encodeI 0x01#6 rs 0x11#5 offset
  | .j index => encodeJ 0x02#6 index
  | .jal index => encodeJ 0x03#6 index
  | .jr rs => encodeR 0x00#6 rs 0 0 0 0x08#6
  | .jalr rd rs => encodeR 0x00#6 rs 0 rd 0 0x09#6
  | .lb rt offset base => encodeI 0x20#6 base rt offset
  | .lbu rt offset base => encodeI 0x24#6 base rt offset
  | .lh rt offset base => encodeI 0x21#6 base rt offset
  | .lhu rt offset base => encodeI 0x25#6 base rt offset
  | .lw rt offset base => encodeI 0x23#6 base rt offset
  | .lwl rt offset base => encodeI 0x22#6 base rt offset
  | .lwr rt offset base => encodeI 0x26#6 base rt offset
  | .ll rt offset base => encodeI 0x30#6 base rt offset
  | .sb rt offset base => encodeI 0x28#6 base rt offset
  | .sh rt offset base => encodeI 0x29#6 base rt offset
  | .sw rt offset base => encodeI 0x2B#6 base rt offset
  | .swl rt offset base => encodeI 0x2A#6 base rt offset
  | .swr rt offset base => encodeI 0x2E#6 base rt offset
  | .sc rt offset base => encodeI 0x38#6 base rt offset
  | .mult rs rt => encodeR 0x00#6 rs rt 0 0 0x18#6
  | .multu rs rt => encodeR 0x00#6 rs rt 0 0 0x19#6
  | .div rs rt => encodeR 0x00#6 rs rt 0 0 0x1A#6
  | .divu rs rt => encodeR 0x00#6 rs rt 0 0 0x1B#6
  | .mfhi rd => encodeR 0x00#6 0 0 rd 0 0x10#6
  | .mflo rd => encodeR 0x00#6 0 0 rd 0 0x12#6
  | .mthi rs => encodeR 0x00#6 rs 0 0 0 0x11#6
  | .mtlo rs => encodeR 0x00#6 rs 0 0 0 0x13#6
  | .mul rd rs rt => encodeR 0x1C#6 rs rt rd 0 0x02#6
  | .madd rs rt => encodeR 0x1C#6 rs rt 0 0 0x00#6
  | .maddu rs rt => encodeR 0x1C#6 rs rt 0 0 0x01#6
  | .msub rs rt => encodeR 0x1C#6 rs rt 0 0 0x04#6
  | .msubu rs rt => encodeR 0x1C#6 rs rt 0 0 0x05#6
  | .syscall code => encodeSyscall code
  | .sync stype => encodeR 0x00#6 0 0 0 stype 0x0F#6

/-! ### The opcode table as data (R56, R61, `spec/opcode_table.json`) -/

/-- A row: `w` is the row's instruction exactly when `w AND mask = match` (R56). -/
structure OpcodeRow where
  mnemonic : Mnemonic
  mask : Word
  value : Word
  deriving DecidableEq, Repr

/-- The rows of the class arithmetic. -/
def rowsArithmetic : List OpcodeRow :=
  [⟨.add, 0xFC0007FF#32, 0x00000020#32⟩,
   ⟨.addu, 0xFC0007FF#32, 0x00000021#32⟩,
   ⟨.sub, 0xFC0007FF#32, 0x00000022#32⟩,
   ⟨.subu, 0xFC0007FF#32, 0x00000023#32⟩,
   ⟨.addi, 0xFC000000#32, 0x20000000#32⟩,
   ⟨.addiu, 0xFC000000#32, 0x24000000#32⟩,
   ⟨.slt, 0xFC0007FF#32, 0x0000002A#32⟩,
   ⟨.sltu, 0xFC0007FF#32, 0x0000002B#32⟩,
   ⟨.slti, 0xFC000000#32, 0x28000000#32⟩,
   ⟨.sltiu, 0xFC000000#32, 0x2C000000#32⟩,
   ⟨.movz, 0xFC0007FF#32, 0x0000000A#32⟩,
   ⟨.movn, 0xFC0007FF#32, 0x0000000B#32⟩]

/-- The rows of the class logical. -/
def rowsLogical : List OpcodeRow :=
  [⟨.and, 0xFC0007FF#32, 0x00000024#32⟩,
   ⟨.or, 0xFC0007FF#32, 0x00000025#32⟩,
   ⟨.xor, 0xFC0007FF#32, 0x00000026#32⟩,
   ⟨.nor, 0xFC0007FF#32, 0x00000027#32⟩,
   ⟨.andi, 0xFC000000#32, 0x30000000#32⟩,
   ⟨.ori, 0xFC000000#32, 0x34000000#32⟩,
   ⟨.xori, 0xFC000000#32, 0x38000000#32⟩,
   ⟨.lui, 0xFFE00000#32, 0x3C000000#32⟩,
   ⟨.clz, 0xFC0007FF#32, 0x70000020#32⟩,
   ⟨.clo, 0xFC0007FF#32, 0x70000021#32⟩]

/-- The rows of the class shift. -/
def rowsShift : List OpcodeRow :=
  [⟨.sll, 0xFFE0003F#32, 0x00000000#32⟩,
   ⟨.srl, 0xFFE0003F#32, 0x00000002#32⟩,
   ⟨.sra, 0xFFE0003F#32, 0x00000003#32⟩,
   ⟨.sllv, 0xFC0007FF#32, 0x00000004#32⟩,
   ⟨.srlv, 0xFC0007FF#32, 0x00000006#32⟩,
   ⟨.srav, 0xFC0007FF#32, 0x00000007#32⟩]

/-- The rows of the class branch. -/
def rowsBranch : List OpcodeRow :=
  [⟨.beq, 0xFC000000#32, 0x10000000#32⟩,
   ⟨.bne, 0xFC000000#32, 0x14000000#32⟩,
   ⟨.blez, 0xFC1F0000#32, 0x18000000#32⟩,
   ⟨.bgtz, 0xFC1F0000#32, 0x1C000000#32⟩,
   ⟨.bltz, 0xFC1F0000#32, 0x04000000#32⟩,
   ⟨.bgez, 0xFC1F0000#32, 0x04010000#32⟩,
   ⟨.bltzal, 0xFC1F0000#32, 0x04100000#32⟩,
   ⟨.bgezal, 0xFC1F0000#32, 0x04110000#32⟩]

/-- The rows of the class jump. -/
def rowsJump : List OpcodeRow :=
  [⟨.j, 0xFC000000#32, 0x08000000#32⟩,
   ⟨.jal, 0xFC000000#32, 0x0C000000#32⟩,
   ⟨.jr, 0xFC1FFFFF#32, 0x00000008#32⟩,
   ⟨.jalr, 0xFC1F07FF#32, 0x00000009#32⟩]

/-- The rows of the class load. -/
def rowsLoad : List OpcodeRow :=
  [⟨.lb, 0xFC000000#32, 0x80000000#32⟩,
   ⟨.lbu, 0xFC000000#32, 0x90000000#32⟩,
   ⟨.lh, 0xFC000000#32, 0x84000000#32⟩,
   ⟨.lhu, 0xFC000000#32, 0x94000000#32⟩,
   ⟨.lw, 0xFC000000#32, 0x8C000000#32⟩,
   ⟨.lwl, 0xFC000000#32, 0x88000000#32⟩,
   ⟨.lwr, 0xFC000000#32, 0x98000000#32⟩,
   ⟨.ll, 0xFC000000#32, 0xC0000000#32⟩]

/-- The rows of the class store. -/
def rowsStore : List OpcodeRow :=
  [⟨.sb, 0xFC000000#32, 0xA0000000#32⟩,
   ⟨.sh, 0xFC000000#32, 0xA4000000#32⟩,
   ⟨.sw, 0xFC000000#32, 0xAC000000#32⟩,
   ⟨.swl, 0xFC000000#32, 0xA8000000#32⟩,
   ⟨.swr, 0xFC000000#32, 0xB8000000#32⟩,
   ⟨.sc, 0xFC000000#32, 0xE0000000#32⟩]

/-- The rows of the class multiplyDivide. -/
def rowsMultiplyDivide : List OpcodeRow :=
  [⟨.mult, 0xFC00FFFF#32, 0x00000018#32⟩,
   ⟨.multu, 0xFC00FFFF#32, 0x00000019#32⟩,
   ⟨.div, 0xFC00FFFF#32, 0x0000001A#32⟩,
   ⟨.divu, 0xFC00FFFF#32, 0x0000001B#32⟩,
   ⟨.mfhi, 0xFFFF07FF#32, 0x00000010#32⟩,
   ⟨.mflo, 0xFFFF07FF#32, 0x00000012#32⟩,
   ⟨.mthi, 0xFC1FFFFF#32, 0x00000011#32⟩,
   ⟨.mtlo, 0xFC1FFFFF#32, 0x00000013#32⟩,
   ⟨.mul, 0xFC0007FF#32, 0x70000002#32⟩,
   ⟨.madd, 0xFC00FFFF#32, 0x70000000#32⟩,
   ⟨.maddu, 0xFC00FFFF#32, 0x70000001#32⟩,
   ⟨.msub, 0xFC00FFFF#32, 0x70000004#32⟩,
   ⟨.msubu, 0xFC00FFFF#32, 0x70000005#32⟩]

/-- The rows of the class trap. -/
def rowsTrap : List OpcodeRow :=
  [⟨.syscall, 0xFC00003F#32, 0x0000000C#32⟩]

/-- The rows of the class noOp. -/
def rowsNoOp : List OpcodeRow :=
  [⟨.sync, 0xFFFFF83F#32, 0x0000000F#32⟩]

/-- The 69 rows of the opcode table. -/
def opcodeTable : List OpcodeRow :=
  rowsArithmetic ++ rowsLogical ++ rowsShift ++ rowsBranch ++
  rowsJump ++ rowsLoad ++ rowsStore ++ rowsMultiplyDivide ++
  rowsTrap ++ rowsNoOp

/-- What selects a row (R56): the function code under `SPECIAL` and `SPECIAL2`, the `rt` field under
`REGIMM`, else the opcode. -/
inductive Selector where
  | special (funct : BitVec 6)
  | special2 (funct : BitVec 6)
  | regimm (rt : Reg)
  | primary (op : BitVec 6)
  deriving DecidableEq, Repr

/-- The selector of a word (R56). -/
def selector (w : Word) : Selector :=
  if fieldOpcode w = 0x00#6 then .special (fieldFunct w)
  else if fieldOpcode w = 0x1C#6 then .special2 (fieldFunct w)
  else if fieldOpcode w = 0x01#6 then .regimm (fieldRt w)
  else .primary (fieldOpcode w)

end Sys2Proof
end

