-- ==== Sys2Proof/Config.lean ====
section
/-! DEFINITION. What is fixed for a run (the parameters of `spec/00_scope.md` R6), and the two free
values: DIV0 and SHIM, opaque constants with no body, so that a proof holds for every one. -/
namespace Sys2Proof

/-- ALIGN_POLICY (R6, `20_memory.md` R39). -/
inductive AlignPolicy where
  | permissive
  | strict
  deriving DecidableEq, Repr, Inhabited

/-- A half-open range `[lo, hi)` of byte addresses. -/
structure Region where
  lo : Nat
  hi : Nat
  deriving DecidableEq, Repr, Inhabited

/-- MAP and MEM of `10_state.md` R24. `map` lists the mapped bytes as regions, rising, disjoint and
not touching; `cells` lists the mapped bytes that are not zero, addresses rising (a mapped byte that
is not listed reads 0: `20_memory.md` R44). The form is `Memory.wf`. -/
structure Memory where
  map : List Region
  cells : List Host.Cell
  deriving DecidableEq, Repr, Inhabited

/-- The parameters that a step reads (R6). The model holds them in its state, where no step writes
them (log 2), so that a statement over every state holds for every value of them. -/
structure RunParams where
  alignPolicy : AlignPolicy
  terminalSentinel : Word
  deriving DecidableEq, Repr, Inhabited

/-- The arguments of `reset` (R6, `70_reset_and_hazards.md` R190), less DIV0 and SHIM.
`mem0` holds MAP0 and MEM0. -/
structure ResetParams where
  entryPc : Word
  initSp : Word
  initRegs : List (Reg × Word)
  mem0 : Memory
  run : RunParams
  deriving DecidableEq, Repr, Inhabited

/-- What the core presents to the shim (`60_exceptions.md` R168): `epc`, the instruction word, and
the whole architectural state as it stands after the commit of R167. -/
structure TrapRequest where
  epc : Word
  word : Word
  regs : Vector Word 32
  hi : Word
  lo : Word
  pc : Word
  nextPc : Word
  mem : Memory
  deriving DecidableEq, Repr

/-- The kinds of fault a shim may answer with (`60_exceptions.md` R160, R172). -/
inductive ShimFault where
  | livelockDetected
  | oracleMiss
  | prematureExit
  deriving DecidableEq, Repr, Inhabited

/-- A `Resume` answer (`60_exceptions.md` R169): register results, memory bytes, addresses to add to
MAP, and an optional new `pc`. The two partial maps are lists (log 6). -/
structure Resume where
  regs : List (Reg × Word)
  mem : List (Word × Byte)
  mapAdd : List Region
  pcOverride : Option Word
  deriving DecidableEq, Repr, Inhabited

/-- The shim's answer (`60_exceptions.md` R169). The shim's `detail` is a natural number (log 7). -/
inductive TrapResponse where
  | resume (r : Resume)
  | fault (kind : ShimFault) (detail : Nat)
  deriving DecidableEq, Repr, Inhabited

/-- DIV0 (R6, `48_muldiv.md` R141 (e)): what a division by zero leaves in `(HI, LO)`, a function of
signedness, dividend, divisor and the old HI and LO. Free value (log 4). -/
opaque Config.div0 (isSigned : Bool) (dividend divisor hi lo : Word) : Word × Word

/-- SHIM (R6, `60_exceptions.md` R169): the answer to a trap request, and what the shim's own state
(SyscallState and the oracle's coming answers, coded as a natural number) becomes. Free value
(log 5). -/
opaque Config.shim (shimState : Nat) (request : TrapRequest) : TrapResponse × Nat

/-- DESIGN CHOICE (log 3): the reset parameters of `State.reset`, since the spec gives the hardware
none: the example configuration of `95_test_vectors.md` section 0. -/
def Config.exampleParams : ResetParams where
  entryPc := 0x00001000#32
  initSp := 0x7FFFFFF0#32
  initRegs := []
  mem0 :=
    { map := [⟨0x00001000, 0x00002000⟩, ⟨0x00010000, 0x00011000⟩, ⟨0x7FFFE000, 0x80000000⟩]
      cells := [] }
  run := { alignPolicy := .permissive, terminalSentinel := 0x5EAD0000#32 }

end Sys2Proof
end

