-- ==== Sys2Proof/Machine/Memory.lean ====
section
/-! DEFINITION. The operations on MAP and MEM (`spec/10_state.md` R24, `20_memory.md` R32 to R44) that
need no other state: what is mapped, one byte read and written, big-endian accesses of several bytes,
adding a region to MAP, and the canonical form. -/
namespace Sys2Proof

/-- The size of the address space (`20_memory.md` R32). -/
abbrev addressSpace : Nat := 4294967296

/-- `a` lies in the region. -/
def Region.contains (r : Region) (a : Nat) : Bool := decide (r.lo ≤ a) && decide (a < r.hi)

/-- `a ∈ MAP` (R24). -/
def Memory.mapped (m : Memory) (a : Nat) : Bool := m.map.any (·.contains a)

/-- What the listed cells hold at `a`; an address that is not listed holds 0 (R44). -/
def cellAt : List Host.Cell → Nat → Byte
  | [], _ => 0
  | c :: rest, a => if c.1 = a then c.2 else cellAt rest a

/-- Puts a cell in its place by address. -/
def insertCell : List Host.Cell → Nat → Byte → List Host.Cell
  | [], a, b => [(a, b)]
  | c :: rest, a, b => if a < c.1 then (a, b) :: c :: rest else c :: insertCell rest a b

/-- The cells with `a` holding `b`; a zero byte is not listed. -/
def setCell (cells : List Host.Cell) (a : Nat) (b : Byte) : List Host.Cell :=
  let others := cells.filter (fun c => decide (c.1 ≠ a))
  if b = 0 then others else insertCell others a b

/-- The byte at `a`; none where `a ∉ MAP`: such an address has no content (R24). -/
def Memory.read (m : Memory) (a : Nat) : Option Byte :=
  if m.mapped a then some (cellAt m.cells a) else none

/-- `MEM[a] <- b`, for an `a` the caller knows to be mapped. -/
def Memory.write (m : Memory) (a : Nat) (b : Byte) : Memory :=
  { m with cells := setCell m.cells a b }

/-- Every byte of the `n` bytes from `addr` is in MAP, addresses modulo 2^32 (R38, R40). -/
def Memory.allMapped (m : Memory) (addr : Word) : Nat → Bool
  | 0 => true
  | n + 1 => m.mapped addr.toNat && m.allMapped (addr + 1) n

/-- The `n` bytes from `addr`, the byte at `addr` most significant (R34, R35), below `acc`. None
where one of them is unmapped. -/
def Memory.readBE (m : Memory) (addr : Word) : Nat → Word → Option Word
  | 0, acc => some acc
  | n + 1, acc =>
    match m.read addr.toNat with
    | none => none
    | some b => m.readBE (addr + 1) n ((acc <<< 8) ||| b.setWidth 32)

/-- The low `8n` bits of `v` to the `n` bytes from `addr`, most significant byte first (R36). -/
def Memory.writeBE (m : Memory) (addr : Word) : Nat → Word → Memory
  | 0, _ => m
  | n + 1, v => (m.write addr.toNat ((v >>> (8 * n)).setWidth 8)).writeBE (addr + 1) n v

/-- The union of a canonical list of regions with `[lo, hi)`: regions that overlap or touch become
one. An empty region adds nothing. -/
def insertRegion : List Region → Nat → Nat → List Region
  | [], lo, hi => if lo < hi then [⟨lo, hi⟩] else []
  | r :: rest, lo, hi =>
    if hi ≤ lo then r :: rest
    else if r.hi ≤ r.lo then insertRegion rest lo hi
    else if hi < r.lo then ⟨lo, hi⟩ :: r :: rest
    else if r.hi < lo then r :: insertRegion rest lo hi
    else insertRegion rest (min lo r.lo) (max hi r.hi)

/-- `MAP <- MAP ∪ [lo, hi)`, each byte not mapped before being 0 (`60_exceptions.md` R170,
`20_memory.md` R44). A region never reaches past the address space (log 6). -/
def Memory.mapRegion (m : Memory) (r : Region) : Memory :=
  let hi := min r.hi addressSpace
  { map := insertRegion m.map r.lo hi
    cells := m.cells.filter (fun c => m.mapped c.1 || !(Region.contains ⟨r.lo, hi⟩ c.1)) }

/-- The regions are not empty, inside the address space, rising, and do not touch. -/
abbrev regionsWf (map : List Region) : Prop :=
  (∀ r ∈ map, r.lo < r.hi ∧ r.hi ≤ addressSpace) ∧ map.Pairwise (fun r q => r.hi < q.lo)

/-- The cells' addresses rise, and no cell holds 0. -/
abbrev cellsWf (cells : List Host.Cell) : Prop :=
  (∀ c ∈ cells, c.2 ≠ 0) ∧ cells.Pairwise (fun c d => c.1 < d.1)

/-- The canonical form: equal memories are equal data. Only mapped bytes are listed. -/
abbrev Memory.wf (m : Memory) : Prop :=
  regionsWf m.map ∧ cellsWf m.cells ∧ ∀ c ∈ m.cells, m.mapped c.1 = true

end Sys2Proof
end

