-- ==== Sys2Proof/Machine/State.lean ====
section
/-! DEFINITION. The complete architectural state (`spec/10_state.md` R12), the fault record
(`60_exceptions.md` R162), the reasons a step may stop, and the state after reset (R28, R190). -/
namespace Sys2Proof.Machine

/-- `status` (R25). `Loaded` is not told apart from `Running` (R25). -/
inductive Status where
  | running
  | halted
  | faulted
  deriving DecidableEq, Repr, Inhabited

/-- The access kind of a memory request (`20_memory.md` R33). -/
inductive AccessKind where
  | fetch
  | read
  | write
  deriving DecidableEq, Repr, Inhabited

/-- The two variants of a word that is no admitted instruction (`30_encoding.md` R60). -/
inductive IllegalVariant where
  | reserved
  | invalid
  deriving DecidableEq, Repr, Inhabited

/-- The fault record (`60_exceptions.md` R160, R162): the kind, `pc` (the address of the faulting
instruction) and the fields of the kind. -/
inductive FaultRecord where
  | illegalInstruction (pc word : Word) (variant : IllegalVariant)
  | unmappedAccess (pc address : Word) (kind : AccessKind)
  | addressError (pc address : Word) (kind : AccessKind)
  | integerOverflow (pc word : Word)
  | shimFault (pc : Word) (kind : ShimFault) (detail : Nat)
  deriving DecidableEq, Repr, Inhabited

/-- The reasons a step stops. A fault of the core is none of these: taking it is a next state, with
`status = faulted` and the record of R162 (log 1). -/
inductive Fault where
  /-- Raised by `step` in a state whose status is `halted`: `step` is not enabled (R70, R193). Safe: the
  hardware makes no step either. -/
  | stepWhenHalted
  /-- Raised by `step` in a state whose status is `faulted`: `step` is not enabled (R70, R161). Safe: the
  hardware makes no step either. -/
  | stepWhenFaulted
  deriving DecidableEq, Repr

/-- The reasons an instruction has no meaning in the model. -/
inductive Refusal where
  /-- An instruction not modelled yet, by its mnemonic. Raised by no instruction of this model: every row
  of the opcode table has its meaning. Safe. -/
  | notModelled (mnemonic : String)
  deriving DecidableEq, Repr

/-- The machine's state (R12), and two fields of the model's own: `params` (log 2) and `shimState`
(log 5). -/
structure State where
  /-- `x[0]` .. `x[31]` (R14); read and written through `State.reg` and `State.setReg` only (R15). -/
  regs : Vector Word 32
  /-- `pc` (R18). -/
  pc : Word
  /-- `next_pc` (R19). -/
  nextPc : Word
  /-- `HI` (R21). -/
  hi : Word
  /-- `LO` (R21). -/
  lo : Word
  /-- `MAP` and `MEM` (R24). -/
  mem : Memory
  /-- `status` (R25). -/
  status : Status
  /-- `fault_record` (R25). -/
  faultRecord : Option FaultRecord
  /-- `step_index` (R26). -/
  stepIndex : Nat
  /-- ALIGN_POLICY and TERMINAL_SENTINEL of the run (`00_scope.md` R6). No step writes it. -/
  params : RunParams
  /-- Stands for the shim's own state and the oracle's answers (`60_exceptions.md` R168). -/
  shimState : Nat
  deriving DecidableEq, Repr

/-- INIT_REGS applied to a register file; x[0] stays 0 (R15, R28). -/
def initialRegs (regs : Vector Word 32) : List (Reg × Word) → Vector Word 32
  | [] => regs
  | (r, v) :: rest => initialRegs (if r = 0 then regs else regs.set r.toNat v r.isLt) rest

/-- The register file after reset (R28): zero except x[29] = INIT_SP and what INIT_REGS names. -/
def resetRegs (p : ResetParams) : Vector Word 32 :=
  initialRegs ((Vector.replicate 32 0#32).set 29 p.initSp) p.initRegs

/-- `reset(parameters)` (`70_reset_and_hazards.md` R190): every piece of state at its value of R28. It
does not depend on the state before it (R191). -/
def State.resetWith (p : ResetParams) : State where
  regs := resetRegs p
  pc := p.entryPc
  nextPc := p.entryPc + 4
  hi := 0
  lo := 0
  mem := p.mem0
  status := .running
  faultRecord := none
  stepIndex := 0
  params := p.run
  shimState := 0

/-- The machine right after reset, with the parameters the model chose (log 3). -/
def State.reset : State := State.resetWith Config.exampleParams

end Sys2Proof.Machine
end

