-- ==== Sys2Proof/Machine/Ops.lean ====
section
/-! DEFINITION. The named operations on registers and memory, the advance of `pc`, taking a fault, the
fetch, and the bookkeeping at the end of a step. -/
namespace Sys2Proof.Machine

/-! ### Registers (`spec/10_state.md` R14 to R21) -/

/-- `x[i]`; `x[0]` is 0 in every state (R15). -/
def State.reg (s : State) (r : Reg) : Word :=
  if r = 0 then 0 else s.regs[r.toNat]'r.isLt

/-- `x[i] <- v`; discarded when `i = 0` (R15). -/
def State.setReg (s : State) (r : Reg) (v : Word) : State :=
  if r = 0 then s else { s with regs := s.regs.set r.toNat v r.isLt }

/-- `HI <- hi; LO <- lo`. -/
def State.setHiLo (s : State) (hi lo : Word) : State := { s with hi := hi, lo := lo }

/-- `HI ‖ LO` (R21). -/
def State.acc (s : State) : DWord := s.hi ++ s.lo

/-- `HI <- v[63:32]; LO <- v[31:0]` (R21). -/
def State.setAcc (s : State) (v : DWord) : State :=
  s.setHiLo (v.extractLsb' 32 32) (v.extractLsb' 0 32)

/-- The register the and-link instructions write (R17). -/
abbrev linkReg : Reg := 31#5

/-- The derived predicate `in_delay_slot` (R20). No rule reads it. -/
def State.inDelaySlot (s : State) : Bool := decide (s.nextPc ≠ s.pc + 4)

/-! ### Ending the execute part (`40_step_cycle.md` R70 to R73) -/

/-- `pc <- old_next; next_pc <- old_next + 4` (R71). -/
def State.advance (s : State) : State := { s with pc := s.nextPc, nextPc := s.nextPc + 4 }

/-- `branch_to(t)`: `pc <- old_next; next_pc <- t` (R72). -/
def State.branchTo (s : State) (t : Word) : State := { s with pc := s.nextPc, nextPc := t }

/-- Taking a fault (`60_exceptions.md` R161, `40_step_cycle.md` R75): from the state before the step,
only the record and the status change. -/
def State.takeFault (s : State) (r : FaultRecord) : State :=
  { s with status := .faulted, faultRecord := some r }

/-- What a step or a meaning answers. -/
abbrev Result := Host.Outcome State Fault Refusal

/-- `raise r`. -/
def raise (r : FaultRecord) (s : State) : Result := .next (s.takeFault r)

/-- `x[rd] <- v`, then the sequential advance. -/
def writeReg (rd : Reg) (v : Word) (s : State) : Result := .next (s.setReg rd v).advance

/-- `HI ‖ LO <- v`, then the sequential advance. -/
def writeAcc (v : DWord) (s : State) : Result := .next (s.setAcc v).advance

/-- `branch_to(t)` where the condition holds, else the sequential advance (`44_branch.md` R111 (b)). -/
def State.branchIf (s : State) (taken : Bool) (t : Word) : State :=
  if taken then s.branchTo t else s.advance

/-! ### Memory (`20_memory.md` R35 to R40) -/

/-- An access of `n` bytes at `addr` that the strict policy forbids (R39). -/
def misaligned (addr : Word) (n : Nat) : Bool :=
  (decide (n = 2) && decide (addr.toNat % 2 ≠ 0)) || (decide (n = 4) && decide (addr.toNat % 4 ≠ 0))

/-- The alignment check of R35 and R36 fails. -/
def State.alignFault (s : State) (addr : Word) (n : Nat) : Bool :=
  decide (s.params.alignPolicy = .strict) && misaligned addr n

/-- `MemRead(ea, addr, n, kind)` (R35): the `8n` bits, zero-extended, or the fault raised. -/
def State.memRead (s : State) (ea addr : Word) (n : Nat) (kind : AccessKind) :
    Except FaultRecord Word :=
  if s.alignFault addr n then .error (.addressError s.pc ea kind)
  else
    match s.mem.readBE addr n 0 with
    | some v => .ok v
    | none => .error (.unmappedAccess s.pc ea kind)

/-- `MemWrite(ea, addr, n, v)` (R36) of the low `8n` bits of `v`: the memory after it, or the fault
raised; every check precedes every byte. -/
def State.memWrite (s : State) (ea addr : Word) (n : Nat) (v : Word) : Except FaultRecord Memory :=
  if s.alignFault addr n then .error (.addressError s.pc ea .write)
  else if s.mem.allMapped addr n then .ok (s.mem.writeBE addr n v)
  else .error (.unmappedAccess s.pc ea .write)

/-- A load (`46_load.md` R125): the value read, made a register value by `f`, goes to `x[rt]`. -/
def loadReg (rt : Reg) (ea addr : Word) (n : Nat) (f : Word → Word) (s : State) : Result :=
  match s.memRead ea addr n .read with
  | .ok v => writeReg rt (f v) s
  | .error r => raise r s

/-- A store (`47_store.md` R134), after which `after` writes what else the instruction writes. -/
def storeMem (ea addr : Word) (n : Nat) (v : Word) (after : State → State) (s : State) : Result :=
  match s.memWrite ea addr n v with
  | .ok m => .next (after { s with mem := m }).advance
  | .error r => raise r s

/-! ### The parts of a step around the execute part (`40_step_cycle.md` R70) -/

/-- The fetch: `MemRead(here, here, 4, fetch)`. -/
def State.fetch (s : State) : Except FaultRecord Word := s.memRead s.pc s.pc 4 .fetch

/-- Executing `Reserved` or `Invalid` (`49_trap_noop.md` R158). -/
def raiseIllegal (w : Word) (variant : IllegalVariant) (s : State) : Result :=
  raise (.illegalInstruction s.pc w variant) s

/-- Step 6 of R70 and the halting check of R76: a completed step counts, and halts where `pc` is the
sentinel. A faulting step (R75) does neither. -/
def State.bookkeep (t : State) : State :=
  if t.status = .faulted then t
  else
    { t with
      stepIndex := t.stepIndex + 1
      status := if t.pc = t.params.terminalSentinel then .halted else t.status }

/-- A function of the next state, where there is one. -/
def mapNext (f : State → State) : Result → Result
  | .next s => .next (f s)
  | .fault r => .fault r
  | .refused r => .refused r

/-- The bytes at `addr` mapped, where they are not, and holding `bytes`: the loader's part before a run
(`70_reset_and_hazards.md` R192). -/
def loadBytes (m : Memory) (addr : Word) : List Byte → Memory
  | [] => m
  | b :: rest =>
    loadBytes ((m.mapRegion ⟨addr.toNat, addr.toNat + 1⟩).write addr.toNat b) (addr + 1) rest

/-- The state with the instruction of a table word at `pc`, and able to step (log 8). -/
def placeWord (s : State) (nbits w : Nat) : State :=
  { s with
    mem := loadBytes s.mem s.pc (wordBytes (tableWord nbits w))
    status := .running
    faultRecord := none }

end Sys2Proof.Machine
end

