-- ==== Sys2Proof/Machine/Arithmetic.lean ====
section
/-! DEFINITION. The arithmetic, compare and conditional-move instructions (`spec/41_arithmetic.md`). -/
namespace Sys2Proof.Machine

/-- The exact result `z` to `x[rd]`, or `IntegerOverflow(w, here)` with nothing written, also for
`rd = 0` (R80 (b)). `w` is the executed word, the one word that decodes to `i`. -/
def writeExact (i : Instr) (rd : Reg) (z : Int) (s : State) : Result :=
  if signedOverflow z then raise (.integerOverflow s.pc (encode i)) s
  else writeReg rd (BitVec.ofInt 32 z) s

/-- ADD (R81). -/
def execAdd (rd rs rt : Reg) (s : State) : Result :=
  writeExact (.add rd rs rt) rd ((s.reg rs).toInt + (s.reg rt).toInt) s

/-- ADDU (R82). -/
def execAddu (rd rs rt : Reg) (s : State) : Result := writeReg rd (s.reg rs + s.reg rt) s

/-- SUB (R83). -/
def execSub (rd rs rt : Reg) (s : State) : Result :=
  writeExact (.sub rd rs rt) rd ((s.reg rs).toInt - (s.reg rt).toInt) s

/-- SUBU (R84). -/
def execSubu (rd rs rt : Reg) (s : State) : Result := writeReg rd (s.reg rs - s.reg rt) s

/-- ADDI (R85). -/
def execAddi (rt rs : Reg) (imm : BitVec 16) (s : State) : Result :=
  writeExact (.addi rt rs imm) rt ((s.reg rs).toInt + (sext16 imm).toInt) s

/-- ADDIU (R86). -/
def execAddiu (rt rs : Reg) (imm : BitVec 16) (s : State) : Result :=
  writeReg rt (s.reg rs + sext16 imm) s

/-- SLT (R87). -/
def execSlt (rd rs rt : Reg) (s : State) : Result :=
  writeReg rd (compareResult (signedLess (s.reg rs) (s.reg rt))) s

/-- SLTU (R88). -/
def execSltu (rd rs rt : Reg) (s : State) : Result :=
  writeReg rd (compareResult (unsignedLess (s.reg rs) (s.reg rt))) s

/-- SLTI (R89). -/
def execSlti (rt rs : Reg) (imm : BitVec 16) (s : State) : Result :=
  writeReg rt (compareResult (signedLess (s.reg rs) (sext16 imm))) s

/-- SLTIU (R90): the immediate is sign-extended, the comparison unsigned. -/
def execSltiu (rt rs : Reg) (imm : BitVec 16) (s : State) : Result :=
  writeReg rt (compareResult (unsignedLess (s.reg rs) (sext16 imm))) s

/-- MOVZ (R91). -/
def execMovz (rd rs rt : Reg) (s : State) : Result :=
  if s.reg rt = 0 then writeReg rd (s.reg rs) s else .next s.advance

/-- MOVN (R92). -/
def execMovn (rd rs rt : Reg) (s : State) : Result :=
  if s.reg rt ≠ 0 then writeReg rd (s.reg rs) s else .next s.advance

end Sys2Proof.Machine
end

