-- ==== Sys2Proof/Machine/Branch.lean ====
section
/-! DEFINITION. The conditional branches (`spec/44_branch.md`). The condition reads the state before the
step (R111 (c)); comparisons with zero are signed (R111 (d)). -/
namespace Sys2Proof.Machine

/-- The branch: taken, to its target from `here`; else the sequential advance (R111 (a), (b)). -/
def branchWhen (taken : Bool) (offset : BitVec 16) (s : State) : Result :=
  .next (s.branchIf taken (branchTarget s.pc offset))

/-- The and-link form: `x[31] <- here + 8` whether or not it is taken, the condition having been read
before (R111 (e)). -/
def branchLinkWhen (taken : Bool) (offset : BitVec 16) (s : State) : Result :=
  .next ((s.setReg linkReg (linkValue s.pc)).branchIf taken (branchTarget s.pc offset))

/-- BEQ (R112). -/
def execBeq (rs rt : Reg) (offset : BitVec 16) (s : State) : Result :=
  branchWhen (decide (s.reg rs = s.reg rt)) offset s

/-- BNE (R113). -/
def execBne (rs rt : Reg) (offset : BitVec 16) (s : State) : Result :=
  branchWhen (decide (s.reg rs ≠ s.reg rt)) offset s

/-- BLEZ (R114). -/
def execBlez (rs : Reg) (offset : BitVec 16) (s : State) : Result :=
  branchWhen (decide ((s.reg rs).toInt ≤ 0)) offset s

/-- BGTZ (R115). -/
def execBgtz (rs : Reg) (offset : BitVec 16) (s : State) : Result :=
  branchWhen (decide (0 < (s.reg rs).toInt)) offset s

/-- BLTZ (R116). -/
def execBltz (rs : Reg) (offset : BitVec 16) (s : State) : Result :=
  branchWhen (decide ((s.reg rs).toInt < 0)) offset s

/-- BGEZ (R117). -/
def execBgez (rs : Reg) (offset : BitVec 16) (s : State) : Result :=
  branchWhen (decide (0 ≤ (s.reg rs).toInt)) offset s

/-- BLTZAL (R118). -/
def execBltzal (rs : Reg) (offset : BitVec 16) (s : State) : Result :=
  branchLinkWhen (decide ((s.reg rs).toInt < 0)) offset s

/-- BGEZAL (R119). -/
def execBgezal (rs : Reg) (offset : BitVec 16) (s : State) : Result :=
  branchLinkWhen (decide (0 ≤ (s.reg rs).toInt)) offset s

end Sys2Proof.Machine
end

