-- ==== Sys2Proof/Machine/Jump.lean ====
section
/-! DEFINITION. The jumps (`spec/45_jump.md`): unconditional and delayed (R120 (a)). -/
namespace Sys2Proof.Machine

/-- J (R121). -/
def execJ (index : BitVec 26) (s : State) : Result := .next (s.branchTo (jumpTarget s.pc index))

/-- JAL (R122). -/
def execJal (index : BitVec 26) (s : State) : Result :=
  .next ((s.setReg linkReg (linkValue s.pc)).branchTo (jumpTarget s.pc index))

/-- JR (R123): the target is the register's value, unchanged. -/
def execJr (rs : Reg) (s : State) : Result := .next (s.branchTo (s.reg rs))

/-- JALR (R124): the target is the old `x[rs]`, also when `rs = rd`. -/
def execJalr (rd rs : Reg) (s : State) : Result :=
  .next ((s.setReg rd (linkValue s.pc)).branchTo (s.reg rs))

end Sys2Proof.Machine
end

