-- ==== Sys2Proof/Machine/Load.lean ====
section
/-! DEFINITION. The loads (`spec/46_load.md`). A load to register 0 still makes its access (R125 (g)). -/
namespace Sys2Proof.Machine

/-- A load of the `n` bytes from EA (R125 (a)). -/
def loadAt (rt : Reg) (offset : BitVec 16) (base : Reg) (n : Nat) (f : Word → Word) (s : State) :
    Result :=
  loadReg rt (effectiveAddr (s.reg base) offset) (effectiveAddr (s.reg base) offset) n f s

/-- LB (R126). -/
def execLb (rt : Reg) (offset : BitVec 16) (base : Reg) (s : State) : Result :=
  loadAt rt offset base 1 signedByte s

/-- LBU (R127). -/
def execLbu (rt : Reg) (offset : BitVec 16) (base : Reg) (s : State) : Result :=
  loadAt rt offset base 1 id s

/-- LH (R128). -/
def execLh (rt : Reg) (offset : BitVec 16) (base : Reg) (s : State) : Result :=
  loadAt rt offset base 2 signedHalf s

/-- LHU (R129). -/
def execLhu (rt : Reg) (offset : BitVec 16) (base : Reg) (s : State) : Result :=
  loadAt rt offset base 2 id s

/-- LW (R130). -/
def execLw (rt : Reg) (offset : BitVec 16) (base : Reg) (s : State) : Result :=
  loadAt rt offset base 4 id s

/-- LWL (R131): the bytes from EA to the end of its aligned word, into the most significant bytes. -/
def execLwl (rt : Reg) (offset : BitVec 16) (base : Reg) (s : State) : Result :=
  let ea := effectiveAddr (s.reg base) offset
  loadReg rt ea ea (4 - lowTwo ea) (fun v => mergeLeft (s.reg rt) v (lowTwo ea)) s

/-- LWR (R132): the bytes from the start of EA's aligned word to EA, into the least significant bytes.
The address reported on a fault is EA. -/
def execLwr (rt : Reg) (offset : BitVec 16) (base : Reg) (s : State) : Result :=
  let ea := effectiveAddr (s.reg base) offset
  loadReg rt ea (ea &&& 0xFFFFFFFC#32) (lowTwo ea + 1)
    (fun v => mergeRight (s.reg rt) v (lowTwo ea + 1)) s

/-- LL (R133): exactly LW; no link state exists (`20_memory.md` R49). -/
def execLl (rt : Reg) (offset : BitVec 16) (base : Reg) (s : State) : Result :=
  loadAt rt offset base 4 id s

end Sys2Proof.Machine
end

