-- ==== Sys2Proof/Machine/Logical.lean ====
section
/-! DEFINITION. The logical, load-upper and bit-count instructions (`spec/42_logical.md`). -/
namespace Sys2Proof.Machine

/-- AND (R94). -/
def execAnd (rd rs rt : Reg) (s : State) : Result := writeReg rd (s.reg rs &&& s.reg rt) s

/-- OR (R95). -/
def execOr (rd rs rt : Reg) (s : State) : Result := writeReg rd (s.reg rs ||| s.reg rt) s

/-- XOR (R96). -/
def execXor (rd rs rt : Reg) (s : State) : Result := writeReg rd (s.reg rs ^^^ s.reg rt) s

/-- NOR (R97). -/
def execNor (rd rs rt : Reg) (s : State) : Result := writeReg rd (~~~(s.reg rs ||| s.reg rt)) s

/-- ANDI (R98). -/
def execAndi (rt rs : Reg) (imm : BitVec 16) (s : State) : Result :=
  writeReg rt (s.reg rs &&& zext16 imm) s

/-- ORI (R99). -/
def execOri (rt rs : Reg) (imm : BitVec 16) (s : State) : Result :=
  writeReg rt (s.reg rs ||| zext16 imm) s

/-- XORI (R100). -/
def execXori (rt rs : Reg) (imm : BitVec 16) (s : State) : Result :=
  writeReg rt (s.reg rs ^^^ zext16 imm) s

/-- LUI (R101). -/
def execLui (rt : Reg) (imm : BitVec 16) (s : State) : Result := writeReg rt (upperImm imm) s

/-- CLZ (R102): the `rt` field is not used. -/
def execClz (rd rs : Reg) (s : State) : Result := writeReg rd (countLeadingZeros (s.reg rs)) s

/-- CLO (R103): the `rt` field is not used. -/
def execClo (rd rs : Reg) (s : State) : Result := writeReg rd (countLeadingOnes (s.reg rs)) s

end Sys2Proof.Machine
end

