-- ==== Sys2Proof/Machine/MulDiv.lean ====
section
/-! DEFINITION. The multiply, divide and HI/LO instructions (`spec/48_muldiv.md`). None faults
(R141 (c)). -/
namespace Sys2Proof.Machine

/-- `HI <- hi; LO <- lo`, then the sequential advance. -/
def writeHiLo (hi lo : Word) (s : State) : Result := .next (s.setHiLo hi lo).advance

/-- A division by zero (R141 (e)): HI and LO receive the free value DIV0 (log 4). -/
def divideByZero (isSigned : Bool) (rs rt : Reg) (s : State) : Result :=
  let r := Config.div0 isSigned (s.reg rs) (s.reg rt) s.hi s.lo
  writeHiLo r.1 r.2 s

/-- MULT (R142). -/
def execMult (rs rt : Reg) (s : State) : Result :=
  writeAcc (signedProduct (s.reg rs) (s.reg rt)) s

/-- MULTU (R143). -/
def execMultu (rs rt : Reg) (s : State) : Result :=
  writeAcc (unsignedProduct (s.reg rs) (s.reg rt)) s

/-- DIV (R144): the quotient toward zero to LO, the remainder to HI. -/
def execDiv (rs rt : Reg) (s : State) : Result :=
  let a := (s.reg rs).toInt
  let b := (s.reg rt).toInt
  if b = 0 then divideByZero true rs rt s
  else if a = -2147483648 ∧ b = -1 then writeHiLo 0 0x80000000#32 s
  else writeHiLo (BitVec.ofInt 32 (a.tmod b)) (BitVec.ofInt 32 (a.tdiv b)) s

/-- DIVU (R145). -/
def execDivu (rs rt : Reg) (s : State) : Result :=
  let a := (s.reg rs).toNat
  let b := (s.reg rt).toNat
  if b = 0 then divideByZero false rs rt s
  else writeHiLo (BitVec.ofNat 32 (a % b)) (BitVec.ofNat 32 (a / b)) s

/-- MFHI (R146). -/
def execMfhi (rd : Reg) (s : State) : Result := writeReg rd s.hi s

/-- MFLO (R147). -/
def execMflo (rd : Reg) (s : State) : Result := writeReg rd s.lo s

/-- MTHI (R148): LO is unchanged. -/
def execMthi (rs : Reg) (s : State) : Result := writeHiLo (s.reg rs) s.lo s

/-- MTLO (R149): HI is unchanged. -/
def execMtlo (rs : Reg) (s : State) : Result := writeHiLo s.hi (s.reg rs) s

/-- MUL (R150): HI and LO are unchanged (R141 (g)). -/
def execMul (rd rs rt : Reg) (s : State) : Result := writeReg rd (s.reg rs * s.reg rt) s

/-- MADD (R151). -/
def execMadd (rs rt : Reg) (s : State) : Result :=
  writeAcc (s.acc + signedProduct (s.reg rs) (s.reg rt)) s

/-- MADDU (R152). -/
def execMaddu (rs rt : Reg) (s : State) : Result :=
  writeAcc (s.acc + unsignedProduct (s.reg rs) (s.reg rt)) s

/-- MSUB (R153). -/
def execMsub (rs rt : Reg) (s : State) : Result :=
  writeAcc (s.acc - signedProduct (s.reg rs) (s.reg rt)) s

/-- MSUBU (R154). -/
def execMsubu (rs rt : Reg) (s : State) : Result :=
  writeAcc (s.acc - unsignedProduct (s.reg rs) (s.reg rt)) s

end Sys2Proof.Machine
end

