-- ==== Sys2Proof/Machine/Shift.lean ====
section
/-! DEFINITION. The shift instructions (`spec/43_shift.md`). The value shifted is `x[rt]` (R104). -/
namespace Sys2Proof.Machine

/-- SLL (R105); the word of zeros is the conventional NOP (R64, R157). -/
def execSll (rd rt : Reg) (sa : BitVec 5) (s : State) : Result :=
  writeReg rd (s.reg rt <<< sa.toNat) s

/-- SRL (R106). -/
def execSrl (rd rt : Reg) (sa : BitVec 5) (s : State) : Result :=
  writeReg rd (s.reg rt >>> sa.toNat) s

/-- SRA (R107). -/
def execSra (rd rt : Reg) (sa : BitVec 5) (s : State) : Result :=
  writeReg rd ((s.reg rt).sshiftRight sa.toNat) s

/-- SLLV (R108). -/
def execSllv (rd rt rs : Reg) (s : State) : Result :=
  writeReg rd (s.reg rt <<< shiftAmount (s.reg rs)) s

/-- SRLV (R109). -/
def execSrlv (rd rt rs : Reg) (s : State) : Result :=
  writeReg rd (s.reg rt >>> shiftAmount (s.reg rs)) s

/-- SRAV (R110). -/
def execSrav (rd rt rs : Reg) (s : State) : Result :=
  writeReg rd ((s.reg rt).sshiftRight (shiftAmount (s.reg rs))) s

end Sys2Proof.Machine
end

