-- ==== Sys2Proof/Machine/Store.lean ====
section
/-! DEFINITION. The stores (`spec/47_store.md`). -/
namespace Sys2Proof.Machine

/-- A store of the low `n` bytes of `x[rt]` to the `n` bytes from EA (R134 (a), (b)). -/
def storeAt (rt : Reg) (offset : BitVec 16) (base : Reg) (n : Nat) (after : State → State)
    (s : State) : Result :=
  storeMem (effectiveAddr (s.reg base) offset) (effectiveAddr (s.reg base) offset) n (s.reg rt)
    after s

/-- SB (R135). -/
def execSb (rt : Reg) (offset : BitVec 16) (base : Reg) (s : State) : Result :=
  storeAt rt offset base 1 id s

/-- SH (R136). -/
def execSh (rt : Reg) (offset : BitVec 16) (base : Reg) (s : State) : Result :=
  storeAt rt offset base 2 id s

/-- SW (R137). -/
def execSw (rt : Reg) (offset : BitVec 16) (base : Reg) (s : State) : Result :=
  storeAt rt offset base 4 id s

/-- SWL (R138): the most significant bytes of `x[rt]` to the bytes from EA to the end of its aligned
word. -/
def execSwl (rt : Reg) (offset : BitVec 16) (base : Reg) (s : State) : Result :=
  let ea := effectiveAddr (s.reg base) offset
  storeMem ea ea (4 - lowTwo ea) (s.reg rt >>> (8 * lowTwo ea)) id s

/-- SWR (R139): the least significant bytes of `x[rt]` to the bytes from the start of EA's aligned word
to EA. The address reported on a fault is EA. -/
def execSwr (rt : Reg) (offset : BitVec 16) (base : Reg) (s : State) : Result :=
  let ea := effectiveAddr (s.reg base) offset
  storeMem ea (ea &&& 0xFFFFFFFC#32) (lowTwo ea + 1) (s.reg rt) id s

/-- SC (R140): the store is always made, then `x[rt] <- 1`. -/
def execSc (rt : Reg) (offset : BitVec 16) (base : Reg) (s : State) : Result :=
  storeAt rt offset base 4 (fun t => t.setReg rt 1) s

end Sys2Proof.Machine
end

