-- ==== Sys2Proof/Machine/TrapPort.lean ====
section
/-! DEFINITION. The trap port (`spec/60_exceptions.md` R167 to R172): the request the core presents and
how it applies the shim's answer. There is no return from a fault to stand beside it (R165): a trap is
completed inside the SYSCALL step. -/
namespace Sys2Proof.Machine

/-- The registers as instructions read them, for a request. -/
def State.regsView (s : State) : Vector Word 32 := Vector.ofFn (fun i => s.reg (BitVec.ofFin i))

/-- The request (R168): `epc` and the word, and the state after the commit of R167. -/
def State.trapRequest (committed : State) (epc word : Word) : TrapRequest where
  epc := epc
  word := word
  regs := committed.regsView
  hi := committed.hi
  lo := committed.lo
  pc := committed.pc
  nextPc := committed.nextPc
  mem := committed.mem

/-- `MAP <- MAP ∪ map_add`, new bytes 0 (R170). -/
def addRegions (m : Memory) : List Region → Memory
  | [] => m
  | r :: rest => addRegions (m.mapRegion r) rest

/-- `MEM[a] <- b` for every `(a, b)` (R170); an address outside MAP is left out (log 6). -/
def writeMapped (m : Memory) : List (Word × Byte) → Memory
  | [] => m
  | (a, b) :: rest => writeMapped (if m.mapped a.toNat then m.write a.toNat b else m) rest

/-- `x[i] <- v` for every `(i, v)` (R170). -/
def writeRegs (s : State) : List (Reg × Word) → State
  | [] => s
  | (r, v) :: rest => writeRegs (s.setReg r v) rest

/-- `if pc_override = Some v then pc <- v; next_pc <- v + 4` (R170). -/
def State.overridePc (s : State) : Option Word → State
  | none => s
  | some v => { s with pc := v, nextPc := v + 4 }

/-- Applying a `Resume`, in the order of R170. -/
def State.applyResume (s : State) (r : Resume) : State :=
  (writeRegs { s with mem := writeMapped (addRegions s.mem r.mapAdd) r.mem } r.regs).overridePc
    r.pcOverride

/-- The answer applied (R169, R170): `before` is the state before the SYSCALL step, `committed` the
state handed over. A `Fault` answer makes the whole step a faulting step. -/
def applyResponse (before committed : State) : TrapResponse → State
  | .resume r => committed.applyResume r
  | .fault kind detail => before.takeFault (.shimFault before.pc kind detail)

end Sys2Proof.Machine
end

