-- ==== Sys2Proof/Machine/TrapNoop.lean ====
section
/-! DEFINITION. SYSCALL and SYNC (`spec/49_trap_noop.md`). -/
namespace Sys2Proof.Machine

/-- SYSCALL (R155): the core steps over the instruction, hands over to the shim with the state after
that commit, and applies its answer, all in this step. The shim's answer and its own new state are the
free value SHIM (log 5); a faulting answer leaves the shim's state as it was. -/
def execSyscall (code : BitVec 20) (s : State) : Result :=
  let committed := s.advance
  let answer :=
    Config.shim s.shimState (committed.trapRequest s.pc (encode (.syscall code)))
  .next (applyResponse s { committed with shimState := answer.2 } answer.1)

/-- SYNC (R156): a no-op for every `stype`. -/
def execSync (s : State) : Result := .next s.advance

end Sys2Proof.Machine
end

