-- ==== Sys2Proof/Machine/Step.lean ====
section
/-! DEFINITION. The step (`spec/40_step_cycle.md` R70): fetch, decode, execute, commit, bookkeeping. -/
namespace Sys2Proof.Machine

/-- Steps 2 to 5 of R70 on the fetched word: an admitted instruction is executed, `Reserved` and
`Invalid` fault (`49_trap_noop.md` R158). -/
def execDecoded (d : Decoded) (s : State) : Host.Outcome State Fault Refusal :=
  match d with
  | .instr i => exec i s
  | .reserved w => raiseIllegal w .reserved s
  | .invalid w => raiseIllegal w .invalid s

/-- A step in a state whose status is `running`. -/
def stepRunning (s : State) : Host.Outcome State Fault Refusal :=
  match s.fetch with
  | .ok w => mapNext State.bookkeep (execDecoded (decode w) s)
  | .error r => raise r s

/-- One step (R70); it is not enabled in a terminal state (R193). -/
def step (s : State) : Host.Outcome State Fault Refusal :=
  match s.status with
  | .running => stepRunning s
  | .halted => .fault .stepWhenHalted
  | .faulted => .fault .stepWhenFaulted

/-- `s` with the instruction of a table word stored at its `pc`, so that the next step runs it (log 8). -/
def State.withFetchWord (s : State) (nbits w : Nat) : State := placeWord s nbits w

end Sys2Proof.Machine
end

