-- ==== Sys2Proof/Machine/Trace.lean ====
section
/-! DEFINITION. The trace port (`spec/60_exceptions.md` R178): output only, no effect on any state.
`symbol_name?` is the sink's, outside the core. -/
namespace Sys2Proof.Machine

/-- The record of a completed step (R178). -/
structure TraceRecord where
  stepIndex : Nat
  pc : Word
  instructionBytes : List Byte
  deriving DecidableEq, Repr

/-- What the step from `s` emits: the count of steps before it, `here` and the fetched bytes; nothing
for a faulting step, nor where no step is enabled. -/
def emitTrace (s : State) : Option TraceRecord :=
  match s.fetch, step s with
  | .ok w, .next t =>
    if t.status = .faulted then none
    else some { stepIndex := s.stepIndex, pc := s.pc, instructionBytes := wordBytes w }
  | _, _ => none

end Sys2Proof.Machine
end

