-- ==== Sys2Proof/WellFormed.lean ====
section
/-! DEFINITION. Well-formedness of what comes from outside: instructions, reset parameters, answers of
the shim. -/
namespace Sys2Proof

/-- Every term of `Instr` is well formed: each operand's type holds exactly the values of its field, so
that an index out of range cannot be written (`spec/10_state.md` R14, `30_encoding.md` R69,
`93_implementation_defined.md` U5). There is no check an instruction could fail. -/
abbrev Instr.WellFormed (_i : Instr) : Prop := True

/-- What must hold of the arguments of `reset` (R6, `70_reset_and_hazards.md` R192): the entry point is
a multiple of 4, mapped with the three bytes after it, and is not the sentinel; memory is in canonical
form; INIT_REGS names each register once, neither x[0] nor x[29], which INIT_SP sets (log 9). -/
def ResetParams.wellFormed (p : ResetParams) : Bool :=
  decide (p.entryPc.toNat % 4 = 0) &&
  decide (p.entryPc ≠ p.run.terminalSentinel) &&
  p.mem0.allMapped p.entryPc 4 &&
  decide p.mem0.wf &&
  p.initRegs.all (fun e => decide (e.1 ≠ 0 ∧ e.1 ≠ 29)) &&
  decide ((p.initRegs.map Prod.fst).Nodup)

/-- The constraints on a `Resume` answer given with MAP as it stands (`60_exceptions.md` R169): no
write to x[0], one value for each register and each byte, every byte written in `MAP ∪ map_add`, and
added regions inside the address space. -/
def Resume.admissible (r : Resume) (m : Memory) : Bool :=
  r.regs.all (fun e => decide (e.1 ≠ 0)) &&
  decide ((r.regs.map Prod.fst).Nodup) &&
  decide ((r.mem.map Prod.fst).Nodup) &&
  r.mem.all (fun e => m.mapped e.1.toNat || r.mapAdd.any (·.contains e.1.toNat)) &&
  r.mapAdd.all (fun g => decide (g.hi ≤ addressSpace))

end Sys2Proof
end

