-- ==== Sys2Proof/Safety.lean ====
section
/-! DEFINITION. The terms in which claims about the machine are made: what a completed instruction leaves
unchanged, what a store leaves in memory, what a faulting step leaves, the data access of a load or
store, the row of the opcode table a word belongs to, and the invariant of a run. -/
namespace Sys2Proof.Machine

/-- The register file of `s` with `x[rd]` holding `v`: a write to x[0] is discarded (R15). -/
def State.regsWith (s : State) (rd : Reg) (v : Word) (r : Reg) : Word :=
  if r = 0 then 0 else if r = rd then v else s.reg r

/-- `s` to `t` by an instruction that completes, memory aside: every register is as `regs` says, HI and
LO as given, `pc` is the old `next_pc`, `next_pc` as given; and what no instruction but SYSCALL writes
is unchanged. -/
structure Completed (s t : State) (regs : Reg → Word) (hi lo nextPc : Word) : Prop where
  regs : ∀ r, t.reg r = regs r
  hi : t.hi = hi
  lo : t.lo = lo
  pc : t.pc = s.nextPc
  nextPc : t.nextPc = nextPc
  status : t.status = s.status
  faultRecord : t.faultRecord = s.faultRecord
  stepIndex : t.stepIndex = s.stepIndex
  params : t.params = s.params
  shimState : t.shimState = s.shimState

/-- Every address holds what it held: the same bytes, at the same mapped addresses. -/
def SameBytes (s t : State) : Prop := ∀ a, t.mem.read a = s.mem.read a

/-- Byte number `k` of a word, 0 the most significant (`20_memory.md` R34). -/
def wordByte (v : Word) (k : Nat) : Byte := (v >>> (8 * (3 - k))).setWidth 8

/-- Address number `k` of an access at `addr`, modulo 2^32 (`20_memory.md` R40). -/
def accessAddr (addr : Word) (k : Nat) : Nat := (addr + BitVec.ofNat 32 k).toNat

/-- The low `8n` bits of `v` stand in the `n` bytes from `addr`, most significant first, and every other
address holds what it held (`20_memory.md` R36). -/
structure StoredBytes (s t : State) (addr : Word) (n : Nat) (v : Word) : Prop where
  stored : ∀ k, k < n → t.mem.read (accessAddr addr k) = some ((v >>> (8 * (n - 1 - k))).setWidth 8)
  others : ∀ a, (∀ k, k < n → a ≠ accessAddr addr k) → t.mem.read a = s.mem.read a

/-- Only `x[rd] <- v`, and the sequential advance (`40_step_cycle.md` R71). -/
def WritesReg (s t : State) (rd : Reg) (v : Word) : Prop :=
  Completed s t (s.regsWith rd v) s.hi s.lo (s.nextPc + 4) ∧ SameBytes s t

/-- Only `HI <- hi; LO <- lo`, and the sequential advance. -/
def WritesHiLo (s t : State) (hi lo : Word) : Prop :=
  Completed s t s.reg hi lo (s.nextPc + 4) ∧ SameBytes s t

/-- Only the sequential advance. -/
def OnlyAdvances (s t : State) : Prop :=
  Completed s t s.reg s.hi s.lo (s.nextPc + 4) ∧ SameBytes s t

/-- Only `branch_to(target)` (R72). -/
def Transfers (s t : State) (target : Word) : Prop :=
  Completed s t s.reg s.hi s.lo target ∧ SameBytes s t

/-- Only `x[rd] <- here + 8`, and `next_pc <- next`. -/
def Links (s t : State) (rd : Reg) (next : Word) : Prop :=
  Completed s t (s.regsWith rd (s.pc + 8)) s.hi s.lo next ∧ SameBytes s t

/-- Only the stored bytes, and the sequential advance. -/
def Stores (s t : State) (addr : Word) (n : Nat) (v : Word) : Prop :=
  Completed s t s.reg s.hi s.lo (s.nextPc + 4) ∧ StoredBytes s t addr n v

/-- What a faulting step leaves: only `status` and `fault_record` differ (`40_step_cycle.md` R75). -/
def faultedWith (s : State) (r : FaultRecord) : State :=
  { s with status := .faulted, faultRecord := some r }

/-- The `pc` a fault record holds (`60_exceptions.md` R162). -/
def FaultRecord.pc : FaultRecord → Word
  | .illegalInstruction pc _ _ => pc
  | .unmappedAccess pc _ _ => pc
  | .addressError pc _ _ => pc
  | .integerOverflow pc _ => pc
  | .shimFault pc _ _ => pc

/-- The sequential value of `next_pc`, or the target where the branch is taken. -/
def nextIf (s : State) (taken : Prop) [Decidable taken] (target : Word) : Word :=
  if taken then target else s.nextPc + 4

/-- The alignment policy admits an access of `n` bytes at `addr` (`20_memory.md` R39). -/
def AlignedFor (s : State) (addr : Word) (n : Nat) : Prop :=
  s.params.alignPolicy = .strict → (n = 2 → addr.toNat % 2 = 0) ∧ (n = 4 → addr.toNat % 4 = 0)

/-- Every byte of the access is mapped (`20_memory.md` R38). -/
def MappedFor (s : State) (addr : Word) (n : Nat) : Prop :=
  ∀ k, k < n → s.mem.mapped (accessAddr addr k) = true

/-- An access of which a byte is not mapped raises `UnmappedAccess` with `ea`, and nothing else changes
(`20_memory.md` R38, `40_step_cycle.md` R75). -/
def FaultsWhereUnmapped (s : State) (i : Instr) (ea addr : Word) (n : Nat) (kind : AccessKind) : Prop :=
  ¬ MappedFor s addr n → exec i s = .next (faultedWith s (.unmappedAccess s.pc ea kind))

/-- An access at `ea` that the policy forbids raises `AddressError`, one it admits faults where it is not
mapped (`20_memory.md` R38, R39). -/
def FaultsByPolicy (s : State) (i : Instr) (ea : Word) (n : Nat) (kind : AccessKind) : Prop :=
  (¬ AlignedFor s ea n → exec i s = .next (faultedWith s (.addressError s.pc ea kind))) ∧
  (AlignedFor s ea n → FaultsWhereUnmapped s i ea ea n kind)

/-- The access a load or store makes: `EA`, the first byte accessed, how many, and its kind
(`20_memory.md` R37, `46_load.md`, `47_store.md`). -/
def dataAccess (s : State) : Instr → Option (Word × Word × Nat × AccessKind)
  | .lb _ o b | .lbu _ o b =>
    some (effectiveAddr (s.reg b) o, effectiveAddr (s.reg b) o, 1, .read)
  | .lh _ o b | .lhu _ o b =>
    some (effectiveAddr (s.reg b) o, effectiveAddr (s.reg b) o, 2, .read)
  | .lw _ o b | .ll _ o b =>
    some (effectiveAddr (s.reg b) o, effectiveAddr (s.reg b) o, 4, .read)
  | .lwl _ o b =>
    some (effectiveAddr (s.reg b) o, effectiveAddr (s.reg b) o,
      4 - (effectiveAddr (s.reg b) o).toNat % 4, .read)
  | .lwr _ o b =>
    some (effectiveAddr (s.reg b) o, effectiveAddr (s.reg b) o &&& 0xFFFFFFFC#32,
      (effectiveAddr (s.reg b) o).toNat % 4 + 1, .read)
  | .sb _ o b => some (effectiveAddr (s.reg b) o, effectiveAddr (s.reg b) o, 1, .write)
  | .sh _ o b => some (effectiveAddr (s.reg b) o, effectiveAddr (s.reg b) o, 2, .write)
  | .sw _ o b | .sc _ o b =>
    some (effectiveAddr (s.reg b) o, effectiveAddr (s.reg b) o, 4, .write)
  | .swl _ o b =>
    some (effectiveAddr (s.reg b) o, effectiveAddr (s.reg b) o,
      4 - (effectiveAddr (s.reg b) o).toNat % 4, .write)
  | .swr _ o b =>
    some (effectiveAddr (s.reg b) o, effectiveAddr (s.reg b) o &&& 0xFFFFFFFC#32,
      (effectiveAddr (s.reg b) o).toNat % 4 + 1, .write)
  | .add .. | .addu .. | .sub .. | .subu .. | .addi .. | .addiu .. | .slt .. | .sltu ..
  | .slti .. | .sltiu .. | .movz .. | .movn .. | .and .. | .or .. | .xor .. | .nor .. | .andi ..
  | .ori .. | .xori .. | .lui .. | .clz .. | .clo .. | .sll .. | .srl .. | .sra .. | .sllv ..
  | .srlv .. | .srav .. | .beq .. | .bne .. | .blez .. | .bgtz .. | .bltz .. | .bgez ..
  | .bltzal .. | .bgezal .. | .j .. | .jal .. | .jr .. | .jalr .. | .mult .. | .multu ..
  | .div .. | .divu .. | .mfhi .. | .mflo .. | .mthi .. | .mtlo .. | .mul .. | .madd ..
  | .maddu .. | .msub .. | .msubu .. | .syscall .. | .sync .. => none

/-- The row `mask`, `value` of the opcode table: a word that meets it decodes to the instruction `f`
reads from its fields; a word of its selector that does not, a field that must be zero not being so,
decodes to `Reserved` (`30_encoding.md` R56, R61). -/
def DecodesTo (mask value : Word) (f : Word → Instr) : Prop :=
  ∀ w : Word, (w &&& mask = value → decode w = .instr (f w)) ∧
    (selector w = selector value → w &&& mask ≠ value → decode w = .reserved w)

/-- What holds of every state of a run: memory is in canonical form and lists mapped bytes only; the
place of x[0] holds 0; there is a fault record exactly in a faulted state (R25); a halted state's `pc`
is the sentinel (`70_reset_and_hazards.md` R193). -/
structure State.Inv (s : State) : Prop where
  memory : s.mem.wf
  zero : s.regs[0] = 0
  record : s.status = .faulted ↔ s.faultRecord ≠ none
  sentinel : s.status = .halted → s.pc = s.params.terminalSentinel

/-- The state of a step that has not faulted (`60_exceptions.md` R161). -/
def State.Safe (s : State) : Prop := s.status ≠ .faulted

end Sys2Proof.Machine
end

