-- ==== Sys2Proof/Certificates/Slice0/Obligations.lean ====
section
/-! DEFINITION. The statements for the provers, from the spec's numbered rules. -/
open Sys2Proof Sys2Proof.Machine

/-! ### Decoding (`spec/30_encoding.md`) -/

/-- Words written out in the spec decode to their instructions: ten decode-only vectors of
`95_test_vectors.md` section 4, MULT from the single-step vectors of section 2 (V48), SW from the
programs of section 3 (P3). -/
def Obligations.SampleWordsDecode : Prop :=
  decode 0x2402002A#32 = .instr (.addiu 2 0 0x002A) ∧
  decode 0x00084FC3#32 = .instr (.sra 9 8 31) ∧
  decode 0x0411FFFF#32 = .instr (.bgezal 0 0xFFFF) ∧
  decode 0x0C000408#32 = .instr (.jal 0x408) ∧
  decode 0x8FBF0004#32 = .instr (.lw 31 0x0004 29) ∧
  decode 0xAFBF0004#32 = .instr (.sw 31 0x0004 29) ∧
  decode 0x71094820#32 = .instr (.clz 9 8 9) ∧
  decode 0x01090018#32 = .instr (.mult 8 9) ∧
  decode 0x03FFFFCC#32 = .instr (.syscall 0xFFFFF) ∧
  decode 0x000007CF#32 = .instr (.sync 31) ∧
  decode 0x0000000D#32 = .invalid 0x0000000D#32 ∧
  decode 0x01095060#32 = .reserved 0x01095060#32

/-- Decoding the word of an instruction gives the instruction, with every operand (R52, R54). -/
def Obligations.DecodeOfEncode : Prop :=
  ∀ i : Instr, i.WellFormed → decode (encode i) = .instr i

/-- A word that decodes to an instruction is that instruction's word: decoding drops no bit. -/
def Obligations.EncodeOfDecode : Prop :=
  ∀ (w : Word) (i : Instr), decode w = .instr i → encode i = w

/-- R56: a word whose selector names a row is the row's instruction, with the word's own fields, where it
meets the row's mask, and `Reserved` where it does not; a word whose selector names no row is `Invalid`.
The two variants and the strict masks are the spec's own decisions (D3, D4). -/
def Obligations.DecodeFollowsOpcodeTable : Prop :=
  ∀ w : Word,
    (∀ row ∈ opcodeTable, selector row.value = selector w →
      (w &&& row.mask = row.value →
        ∃ i, decode w = .instr i ∧ i.mnemonic = row.mnemonic ∧ encode i = w) ∧
      (w &&& row.mask ≠ row.value → decode w = .reserved w)) ∧
    ((∀ row ∈ opcodeTable, selector row.value ≠ selector w) → decode w = .invalid w)

/-! ### The step (`spec/40_step_cycle.md`) -/

/-- R53: an instruction is fetched as four bytes, the byte at `pc` being `w[31:24]` and the byte at
`pc + 3` being `w[7:0]`. -/
def Obligations.FetchReadsFourBytesBigEndian : Prop :=
  ∀ (s : State) (w : Word), AlignedFor s s.pc 4 →
    (∀ k, k < 4 → s.mem.read (accessAddr s.pc k) = some (wordByte w k)) → s.fetch = .ok w

/-- Where the bytes at `pc` decode to a well-formed instruction, the step of a running state is `exec`
of it, then the bookkeeping of R70 step 6 where it has not faulted. -/
def Obligations.StepRunsTheDecodedInstruction : Prop :=
  ∀ (s : State) (w : Word) (i : Instr), i.WellFormed → s.status = .running →
    AlignedFor s s.pc 4 →
    (∀ k, k < 4 → s.mem.read (accessAddr s.pc k) = some (wordByte w k)) →
    decode w = .instr i →
    step s = mapNext State.bookkeep (exec i s) ∧
    ∀ t, exec i s = .next t →
      (t.Safe → step s = .next { t with
        stepIndex := t.stepIndex + 1
        status := if t.pc = t.params.terminalSentinel then .halted else t.status }) ∧
      (¬ t.Safe → step s = .next t)

/-- R158: a word that decodes to `Reserved` or `Invalid` raises `IllegalInstruction` with the word, the
variant and the address, and nothing else changes. That both variants always
fault is the spec's own decision (D4). -/
def Obligations.IllegalWordsFault : Prop :=
  ∀ (s : State) (w : Word), s.status = .running → s.fetch = .ok w →
    (decode w = .reserved w →
      step s = .next (faultedWith s (.illegalInstruction s.pc w .reserved))) ∧
    (decode w = .invalid w →
      step s = .next (faultedWith s (.illegalInstruction s.pc w .invalid)))

/-- R75: a step that faults changes nothing but the status and the record, and the record's `pc` is the
address of the faulting instruction, which `pc` still is; no trace record is emitted. That the state is
left so is the spec's own decision (D18). -/
def Obligations.FaultingStepCommitsNothing : Prop :=
  ∀ s t : State, s.status = .running → step s = .next t → t.status = .faulted →
    emitTrace s = none ∧ ∃ r : FaultRecord, t = faultedWith s r ∧ r.pc = s.pc

/-- R76: after a step that completes, the core has halted exactly where `pc` is the sentinel, and then no
further step is enabled; the step is counted (R26) and the fault record is untouched (R25). -/
def Obligations.CompletedStepChecksSentinel : Prop :=
  ∀ s t : State, step s = .next t → t.Safe →
    (t.status = .halted ↔ t.pc = t.params.terminalSentinel) ∧
    (t.status ≠ .halted → t.status = .running) ∧
    (t.status = .halted → ∀ u, step t ≠ .next u) ∧
    t.stepIndex = s.stepIndex + 1 ∧ t.faultRecord = s.faultRecord

/-- R11, R193: a step is enabled exactly in a running state, where it always answers a next state;
there is no stuck outcome. A terminal state has none: the model's step then answers a stop by name,
which is the model's choice (log 1). -/
def Obligations.StepEnabledExactlyWhenRunning : Prop :=
  ∀ s : State, ((∃ t, step s = .next t) ↔ s.status = .running) ∧
    (s.status = .halted → step s = .fault .stepWhenHalted) ∧
    (s.status = .faulted → step s = .fault .stepWhenFaulted)

/-- R71, R72, R196: after every instruction but SYSCALL that does not fault, the next instruction is the
one at the old `next_pc`, the delay slot always among them; and `next_pc` is the address after it unless
the instruction is a branch or a jump. -/
def Obligations.DelaySlotAlwaysExecutes : Prop :=
  ∀ (i : Instr) (s t : State), exec i s = .next t → t.Safe → i.opClass ≠ .trap →
    t.pc = s.nextPc ∧
    (i.opClass ≠ .branch → i.opClass ≠ .jump → t.nextPc = s.nextPc + 4)

/-- R163, first three places: the alignment of the fetch comes before its mapping, both before the
word's legality. The order is the spec's own decision (D17). -/
def Obligations.FetchFaultsComeFirst : Prop :=
  ∀ s : State, s.status = .running →
    (¬ AlignedFor s s.pc 4 → step s = .next (faultedWith s (.addressError s.pc s.pc .fetch))) ∧
    (AlignedFor s s.pc 4 → ¬ MappedFor s s.pc 4 →
      step s = .next (faultedWith s (.unmappedAccess s.pc s.pc .fetch))) ∧
    (AlignedFor s s.pc 4 → MappedFor s s.pc 4 → ∃ w, s.fetch = .ok w)

/-! ### Invariants and rules of the whole machine -/

/-- Every step keeps the invariant: memory stays canonical, x[0]'s place stays 0, a fault record exists
exactly in a faulted state, and a halted state's `pc` is the sentinel. -/
def Obligations.StepKeepsInvariant : Prop :=
  ∀ s t : State, s.Inv → step s = .next t → t.Inv

/-- The state after reset with well-formed parameters meets the invariant, `State.reset` among them. -/
def Obligations.ResetMeetsInvariant : Prop :=
  (∀ p : ResetParams, p.wellFormed = true → (State.resetWith p).Inv) ∧ State.reset.Inv

/-- R13: the parameters are fixed for a run; no step writes them. -/
def Obligations.ParametersNeverChange : Prop :=
  ∀ s t : State, step s = .next t → t.params = s.params

/-- R43: MAP only grows, and only SYSCALL changes it. -/
def Obligations.MapOnlyGrows : Prop :=
  (∀ s t : State, step s = .next t → ∀ a, s.mem.mapped a = true → t.mem.mapped a = true) ∧
  ∀ (i : Instr) (s t : State), exec i s = .next t → i.opClass ≠ .trap → t.mem.map = s.mem.map

/-- R15: x[0] reads 0 in every state and a write to it changes nothing; a write to any other register
is read back, and leaves the others alone. -/
def Obligations.ZeroRegisterReadsZero : Prop :=
  (∀ s : State, s.reg 0 = 0) ∧ (∀ (s : State) (v : Word), s.setReg 0 v = s) ∧
  ∀ (s : State) (r q : Reg) (v : Word), r ≠ 0 →
    (s.setReg r v).reg r = v ∧ (q ≠ r → (s.setReg r v).reg q = s.reg q)

/-- R21: only the multiply and divide instructions, MTHI and MTLO write HI or LO. -/
def Obligations.HiLoWrittenOnlyByMultiplyDivide : Prop :=
  ∀ (i : Instr) (s t : State), exec i s = .next t →
    i.mnemonic ∉ [Mnemonic.mult, .multu, .div, .divu, .madd, .maddu, .msub, .msubu, .mthi, .mtlo] →
    t.hi = s.hi ∧ t.lo = s.lo

/-- R32: only the stores and SYSCALL change memory. -/
def Obligations.OnlyStoresAndTrapsChangeMemory : Prop :=
  ∀ (i : Instr) (s t : State), exec i s = .next t → i.opClass ≠ .store → i.opClass ≠ .trap →
    t.mem = s.mem

/-- R73, R134 (f): no store writes a general register except SC, and SC none but its `rt`. -/
def Obligations.StoresWriteNoRegisterButSc : Prop :=
  ∀ (i : Instr) (s t : State), exec i s = .next t → i.opClass = .store → ∀ r : Reg,
    t.reg r = s.reg r ∨ ∃ (o : BitVec 16) (b : Reg), i = .sc r o b ∧ t.reg r = 1

/-- R26: `step_index` influences nothing: two states that differ in it alone step to states that
differ in it alone. -/
def Obligations.StepIndexInfluencesNothing : Prop :=
  ∀ (s t : State) (k : Nat), step s = .next t →
    step { s with stepIndex := k } =
      .next { t with stepIndex := if t.status = .faulted then k else k + 1 }

/-! ### Reset (`spec/10_state.md` R28, `70_reset_and_hazards.md` R190) -/

/-- R190: `reset` puts every piece of state to the value of R28, for every INIT_REGS that is a partial
map on the indices 1 to 31 (R6). Which of INIT_SP and an INIT_REGS that names x[29] as well wins, the
spec does not say, nor does this. That ENTRY_PC and INIT_REGS are parameters, and `next_pc` after reset,
are the spec's own decisions (D21, D22), and that `params` of the state holds ALIGN_POLICY and
TERMINAL_SENTINEL is the model's choice (log 2). -/
def Obligations.ResetPutsEveryPieceOfState : Prop :=
  ∀ p : ResetParams, (∀ e ∈ p.initRegs, e.1 ≠ 0) → (p.initRegs.map Prod.fst).Nodup →
    (State.resetWith p).reg 0 = 0 ∧
    ((∀ e ∈ p.initRegs, e.1 ≠ 29) → (State.resetWith p).reg 29 = p.initSp) ∧
    (∀ e ∈ p.initRegs, e.1 ≠ 29 → (State.resetWith p).reg e.1 = e.2) ∧
    (∀ r : Reg, r ≠ 29 → (∀ e ∈ p.initRegs, e.1 ≠ r) → (State.resetWith p).reg r = 0) ∧
    (State.resetWith p).hi = 0 ∧ (State.resetWith p).lo = 0 ∧
    (State.resetWith p).pc = p.entryPc ∧ (State.resetWith p).nextPc = p.entryPc + 4 ∧
    (∀ a, (State.resetWith p).mem.read a = p.mem0.read a) ∧
    (State.resetWith p).status = .running ∧ (State.resetWith p).faultRecord = none ∧
    (State.resetWith p).stepIndex = 0 ∧ (State.resetWith p).params = p.run

/-! ### Memory (`spec/20_memory.md`) -/

/-- R35: the alignment check, then the mapped check, then the `n` bytes, the byte at `addr` most
significant. The order of the two checks is the spec's own decision (D17). -/
def Obligations.MemReadChecksThenReads : Prop :=
  ∀ (s : State) (ea addr : Word) (n : Nat) (kind : AccessKind), 1 ≤ n → n ≤ 4 →
    (¬ AlignedFor s addr n → s.memRead ea addr n kind = .error (.addressError s.pc ea kind)) ∧
    (AlignedFor s addr n → ¬ MappedFor s addr n →
      s.memRead ea addr n kind = .error (.unmappedAccess s.pc ea kind)) ∧
    (AlignedFor s addr n → ∀ bytes : List Byte, bytes.length = n →
      (∀ k (h : k < bytes.length), s.mem.read (accessAddr addr k) = some bytes[k]) →
      ∃ v, s.memRead ea addr n kind = .ok v ∧
        v.toNat = bytes.foldl (fun acc b => acc * 256 + b.toNat) 0)

/-- R36: all checks precede all byte writes; then the low `8n` bits go to the `n` bytes, the most
significant to the lowest address, and no other byte changes. -/
def Obligations.MemWriteChecksThenWrites : Prop :=
  ∀ (s : State) (ea addr v : Word) (n : Nat), 1 ≤ n → n ≤ 4 →
    (¬ AlignedFor s addr n → s.memWrite ea addr n v = .error (.addressError s.pc ea .write)) ∧
    (AlignedFor s addr n → ¬ MappedFor s addr n →
      s.memWrite ea addr n v = .error (.unmappedAccess s.pc ea .write)) ∧
    (AlignedFor s addr n → MappedFor s addr n →
      ∃ m, s.memWrite ea addr n v = .ok m ∧ m.map = s.mem.map ∧
        StoredBytes s { s with mem := m } addr n v)

/-- R47 (c): a read of the bytes a write has just written gives the value written. -/
def Obligations.ReadAfterWrite : Prop :=
  ∀ (s : State) (ea addr v : Word) (n : Nat) (kind : AccessKind) (m : Memory), 1 ≤ n → n ≤ 4 →
    s.memWrite ea addr n v = .ok m →
    ({ s with mem := m } : State).memRead ea addr n kind =
      .ok (BitVec.ofNat 32 (v.toNat % 2 ^ (8 * n)))

/-- R50: a word stored where the next instruction stands is what the very next step fetches. -/
def Obligations.StoreIsSeenByTheNextFetch : Prop :=
  ∀ (s t : State) (rt base : Reg) (offset : BitVec 16),
    s.reg base + offset.signExtend 32 = s.nextPc → exec (.sw rt offset base) s = .next t → t.Safe →
    t.fetch = .ok (s.reg rt)

/-- R38, R39, R125 (d) to (f), R134 (d), (e): a load or store whose access the policy forbids raises
`AddressError`; else, one of whose bytes is not mapped, `UnmappedAccess`, in each case with EA and with
nothing else changed; else it completes. -/
def Obligations.DataAccessFaults : Prop :=
  ∀ (i : Instr) (s : State) (ea addr : Word) (n : Nat) (kind : AccessKind),
    dataAccess s i = some (ea, addr, n, kind) →
    (¬ AlignedFor s addr n → exec i s = .next (faultedWith s (.addressError s.pc ea kind))) ∧
    (AlignedFor s addr n → ¬ MappedFor s addr n →
      exec i s = .next (faultedWith s (.unmappedAccess s.pc ea kind))) ∧
    (AlignedFor s addr n → MappedFor s addr n →
      ∃ t, exec i s = .next t ∧ t.pc = s.nextPc ∧ t.nextPc = s.nextPc + 4 ∧
        t.status = s.status ∧ t.faultRecord = s.faultRecord)

/-! ### The trap port (`spec/49_trap_noop.md` R155, `60_exceptions.md` R167 to R172) -/

/-- R155, R167, R168: SYSCALL steps over itself, hands over the address, the word and the whole state
after that commit, and ends with the shim's answer applied: a `Resume` to that state, a `Fault` as a
faulting step. It holds for every SHIM. The commit before the hand-over is the spec's own decision
(D19). That a faulting answer leaves the shim's state is the model's choice (log 5). -/
def Obligations.SyscallHandsOverAndAppliesTheAnswer : Prop :=
  DecodesTo 0xFC00003F#32 0x0000000C#32 (fun w => .syscall (fieldCode w)) ∧
  ∀ (s : State) (code : BitVec 20), ∃ request : TrapRequest,
    request.epc = s.pc ∧ request.word = encode (.syscall code) ∧
    (∀ r : Reg, request.regs[r.toNat]'r.isLt = s.reg r) ∧ request.hi = s.hi ∧ request.lo = s.lo ∧
    request.pc = s.nextPc ∧ request.nextPc = s.nextPc + 4 ∧ request.mem = s.mem ∧
    exec (.syscall code) s = .next
      (match Config.shim s.shimState request with
        | (.resume r, next) =>
          State.applyResume
            { s with pc := s.nextPc, nextPc := s.nextPc + 4, shimState := next } r
        | (.fault kind detail, _) => faultedWith s (.shimFault s.pc kind detail))

/-- R170: an admissible `Resume` (R169) is applied as it stands: MAP grows by `map_add`, new bytes being
0, then bytes, registers and `pc` take their values, and nothing else changes. `next_pc` after an override
is the spec's own decision (D19). -/
def Obligations.ResumeIsApplied : Prop :=
  ∀ (s : State) (r : Resume), r.admissible s.mem = true →
    (∀ a, (s.applyResume r).mem.mapped a = (s.mem.mapped a || r.mapAdd.any (·.contains a))) ∧
    (∀ e ∈ r.mem, (s.applyResume r).mem.read e.1.toNat = some e.2) ∧
    (∀ a, (∀ e ∈ r.mem, e.1.toNat ≠ a) →
      (s.applyResume r).mem.read a =
        if s.mem.mapped a then s.mem.read a
        else if r.mapAdd.any (·.contains a) then some 0 else none) ∧
    (∀ e ∈ r.regs, (s.applyResume r).reg e.1 = e.2) ∧
    (∀ q : Reg, (∀ e ∈ r.regs, e.1 ≠ q) → (s.applyResume r).reg q = s.reg q) ∧
    (r.pcOverride = none →
      (s.applyResume r).pc = s.pc ∧ (s.applyResume r).nextPc = s.nextPc) ∧
    (∀ v, r.pcOverride = some v →
      (s.applyResume r).pc = v ∧ (s.applyResume r).nextPc = v + 4)

/-- R169: whatever a `Resume` holds, it changes neither x[0], HI, LO, `status`, `fault_record`,
`step_index` nor the parameters, and takes no address out of MAP. For an answer outside the constraints
of R169 this is the model's choice (log 6). -/
def Obligations.ResumeLeavesProtectedState : Prop :=
  ∀ (s : State) (r : Resume),
    (s.applyResume r).reg 0 = 0 ∧ (s.applyResume r).hi = s.hi ∧ (s.applyResume r).lo = s.lo ∧
    (s.applyResume r).status = s.status ∧ (s.applyResume r).faultRecord = s.faultRecord ∧
    (s.applyResume r).stepIndex = s.stepIndex ∧ (s.applyResume r).params = s.params ∧
    ∀ a, s.mem.mapped a = true → (s.applyResume r).mem.mapped a = true

/-- R178: a completed step emits the count of steps before it, `here`, and the four fetched bytes in
memory order; a faulting step emits nothing. The record as a function of the state before the step is
the model's choice (log 11). -/
def Obligations.TraceRecordOfAStep : Prop :=
  ∀ (s t : State), step s = .next t →
    (¬ t.Safe → emitTrace s = none) ∧
    (t.Safe → ∃ bytes : List Byte, bytes.length = 4 ∧
      (∀ k (h : k < bytes.length), s.mem.read (accessAddr s.pc k) = some bytes[k]) ∧
      emitTrace s = some { stepIndex := s.stepIndex, pc := s.pc, instructionBytes := bytes })

/-- R156: SYNC is a no-op for every `stype`: only the sequential advance. That is the spec's own decision
(D11). -/
def Obligations.SyncOnlyAdvances : Prop :=
  DecodesTo 0xFFFFF83F#32 0x0000000F#32 (fun w => .sync (fieldShamt w)) ∧
  ∀ (s : State) (stype : BitVec 5), ∃ t, exec (.sync stype) s = .next t ∧ OnlyAdvances s t

/-! ### Arithmetic (`spec/41_arithmetic.md`) -/

/-- R82, R84, R86: ADDU, SUBU and ADDIU compute modulo 2^32. -/
def Obligations.WrappingAddAndSubtract : Prop :=
  DecodesTo 0xFC0007FF#32 0x00000021#32 (fun w => .addu (fieldRd w) (fieldRs w) (fieldRt w)) ∧
  DecodesTo 0xFC0007FF#32 0x00000023#32 (fun w => .subu (fieldRd w) (fieldRs w) (fieldRt w)) ∧
  DecodesTo 0xFC000000#32 0x24000000#32 (fun w => .addiu (fieldRt w) (fieldRs w) (fieldImm w)) ∧
  (∀ (s : State) (rd rs rt : Reg), ∃ t v, exec (.addu rd rs rt) s = .next t ∧ WritesReg s t rd v ∧
    v.toNat = ((s.reg rs).toNat + (s.reg rt).toNat) % 2 ^ 32) ∧
  (∀ (s : State) (rd rs rt : Reg), ∃ t v, exec (.subu rd rs rt) s = .next t ∧ WritesReg s t rd v ∧
    (v.toNat : Int) = ((s.reg rs).toNat - (s.reg rt).toNat : Int) % 2 ^ 32) ∧
  ∀ (s : State) (rt rs : Reg) (imm : BitVec 16), ∃ t v,
    exec (.addiu rt rs imm) s = .next t ∧ WritesReg s t rt v ∧
    (v.toNat : Int) = ((s.reg rs).toNat + imm.toInt : Int) % 2 ^ 32

/-- R81, R83, R85: ADD, SUB and ADDI write the exact result where it is in [-2^31, 2^31 - 1]; else they
raise `IntegerOverflow` with the executed word, also for destination 0, and write nothing. That
they are modelled, with this fault, is the spec's own decision (D8). -/
def Obligations.TrappingAddAndSubtract : Prop :=
  DecodesTo 0xFC0007FF#32 0x00000020#32 (fun w => .add (fieldRd w) (fieldRs w) (fieldRt w)) ∧
  DecodesTo 0xFC0007FF#32 0x00000022#32 (fun w => .sub (fieldRd w) (fieldRs w) (fieldRt w)) ∧
  DecodesTo 0xFC000000#32 0x20000000#32 (fun w => .addi (fieldRt w) (fieldRs w) (fieldImm w)) ∧
  (∀ (s : State) (rd rs rt : Reg) (z : Int), z = (s.reg rs).toInt + (s.reg rt).toInt →
    (-2 ^ 31 ≤ z → z ≤ 2 ^ 31 - 1 →
      ∃ t v, exec (.add rd rs rt) s = .next t ∧ WritesReg s t rd v ∧ v.toInt = z) ∧
    ((z < -2 ^ 31 ∨ 2 ^ 31 - 1 < z) → exec (.add rd rs rt) s =
      .next (faultedWith s (.integerOverflow s.pc (encode (.add rd rs rt)))))) ∧
  (∀ (s : State) (rd rs rt : Reg) (z : Int), z = (s.reg rs).toInt - (s.reg rt).toInt →
    (-2 ^ 31 ≤ z → z ≤ 2 ^ 31 - 1 →
      ∃ t v, exec (.sub rd rs rt) s = .next t ∧ WritesReg s t rd v ∧ v.toInt = z) ∧
    ((z < -2 ^ 31 ∨ 2 ^ 31 - 1 < z) → exec (.sub rd rs rt) s =
      .next (faultedWith s (.integerOverflow s.pc (encode (.sub rd rs rt)))))) ∧
  ∀ (s : State) (rt rs : Reg) (imm : BitVec 16) (z : Int), z = (s.reg rs).toInt + imm.toInt →
    (-2 ^ 31 ≤ z → z ≤ 2 ^ 31 - 1 →
      ∃ t v, exec (.addi rt rs imm) s = .next t ∧ WritesReg s t rt v ∧ v.toInt = z) ∧
    ((z < -2 ^ 31 ∨ 2 ^ 31 - 1 < z) → exec (.addi rt rs imm) s =
      .next (faultedWith s (.integerOverflow s.pc (encode (.addi rt rs imm)))))

/-- R87 to R90: the set-on-less-than instructions write 1 or 0; SLTIU sign-extends its immediate and
compares unsigned. -/
def Obligations.SetOnLessThan : Prop :=
  DecodesTo 0xFC0007FF#32 0x0000002A#32 (fun w => .slt (fieldRd w) (fieldRs w) (fieldRt w)) ∧
  DecodesTo 0xFC0007FF#32 0x0000002B#32 (fun w => .sltu (fieldRd w) (fieldRs w) (fieldRt w)) ∧
  DecodesTo 0xFC000000#32 0x28000000#32 (fun w => .slti (fieldRt w) (fieldRs w) (fieldImm w)) ∧
  DecodesTo 0xFC000000#32 0x2C000000#32 (fun w => .sltiu (fieldRt w) (fieldRs w) (fieldImm w)) ∧
  (∀ (s : State) (rd rs rt : Reg), ∃ t, exec (.slt rd rs rt) s = .next t ∧
    WritesReg s t rd (if (s.reg rs).toInt < (s.reg rt).toInt then 1 else 0)) ∧
  (∀ (s : State) (rd rs rt : Reg), ∃ t, exec (.sltu rd rs rt) s = .next t ∧
    WritesReg s t rd (if (s.reg rs).toNat < (s.reg rt).toNat then 1 else 0)) ∧
  (∀ (s : State) (rt rs : Reg) (imm : BitVec 16), ∃ t, exec (.slti rt rs imm) s = .next t ∧
    WritesReg s t rt (if (s.reg rs).toInt < imm.toInt then 1 else 0)) ∧
  ∀ (s : State) (rt rs : Reg) (imm : BitVec 16), ∃ t, exec (.sltiu rt rs imm) s = .next t ∧
    WritesReg s t rt (if (s.reg rs).toNat < (imm.signExtend 32).toNat then 1 else 0)

/-- R91, R92: MOVZ and MOVN move where `x[rt]` is zero, or is not; else no register is written. -/
def Obligations.ConditionalMoves : Prop :=
  DecodesTo 0xFC0007FF#32 0x0000000A#32 (fun w => .movz (fieldRd w) (fieldRs w) (fieldRt w)) ∧
  DecodesTo 0xFC0007FF#32 0x0000000B#32 (fun w => .movn (fieldRd w) (fieldRs w) (fieldRt w)) ∧
  (∀ (s : State) (rd rs rt : Reg), ∃ t, exec (.movz rd rs rt) s = .next t ∧
    (s.reg rt = 0 → WritesReg s t rd (s.reg rs)) ∧ (s.reg rt ≠ 0 → OnlyAdvances s t)) ∧
  ∀ (s : State) (rd rs rt : Reg), ∃ t, exec (.movn rd rs rt) s = .next t ∧
    (s.reg rt ≠ 0 → WritesReg s t rd (s.reg rs)) ∧ (s.reg rt = 0 → OnlyAdvances s t)

/-! ### Logical (`spec/42_logical.md`) -/

/-- R94 to R97: AND, OR, XOR and NOR, bit by bit. -/
def Obligations.BitwiseRegisterOperations : Prop :=
  DecodesTo 0xFC0007FF#32 0x00000024#32 (fun w => .and (fieldRd w) (fieldRs w) (fieldRt w)) ∧
  DecodesTo 0xFC0007FF#32 0x00000025#32 (fun w => .or (fieldRd w) (fieldRs w) (fieldRt w)) ∧
  DecodesTo 0xFC0007FF#32 0x00000026#32 (fun w => .xor (fieldRd w) (fieldRs w) (fieldRt w)) ∧
  DecodesTo 0xFC0007FF#32 0x00000027#32 (fun w => .nor (fieldRd w) (fieldRs w) (fieldRt w)) ∧
  (∀ (s : State) (rd rs rt : Reg), ∃ t v, exec (.and rd rs rt) s = .next t ∧ WritesReg s t rd v ∧
    ∀ k, v.getLsbD k = ((s.reg rs).getLsbD k && (s.reg rt).getLsbD k)) ∧
  (∀ (s : State) (rd rs rt : Reg), ∃ t v, exec (.or rd rs rt) s = .next t ∧ WritesReg s t rd v ∧
    ∀ k, v.getLsbD k = ((s.reg rs).getLsbD k || (s.reg rt).getLsbD k)) ∧
  (∀ (s : State) (rd rs rt : Reg), ∃ t v, exec (.xor rd rs rt) s = .next t ∧ WritesReg s t rd v ∧
    ∀ k, v.getLsbD k = ((s.reg rs).getLsbD k != (s.reg rt).getLsbD k)) ∧
  ∀ (s : State) (rd rs rt : Reg), ∃ t v, exec (.nor rd rs rt) s = .next t ∧ WritesReg s t rd v ∧
    ∀ k, k < 32 → v.getLsbD k = !((s.reg rs).getLsbD k || (s.reg rt).getLsbD k)

/-- R98 to R101: ANDI, ORI and XORI zero-extend their immediate; LUI puts it in the upper half. -/
def Obligations.BitwiseImmediateOperations : Prop :=
  DecodesTo 0xFC000000#32 0x30000000#32 (fun w => .andi (fieldRt w) (fieldRs w) (fieldImm w)) ∧
  DecodesTo 0xFC000000#32 0x34000000#32 (fun w => .ori (fieldRt w) (fieldRs w) (fieldImm w)) ∧
  DecodesTo 0xFC000000#32 0x38000000#32 (fun w => .xori (fieldRt w) (fieldRs w) (fieldImm w)) ∧
  DecodesTo 0xFFE00000#32 0x3C000000#32 (fun w => .lui (fieldRt w) (fieldImm w)) ∧
  (∀ (s : State) (rt rs : Reg) (imm : BitVec 16), ∃ t v, exec (.andi rt rs imm) s = .next t ∧
    WritesReg s t rt v ∧ ∀ k, v.getLsbD k = ((s.reg rs).getLsbD k && imm.getLsbD k)) ∧
  (∀ (s : State) (rt rs : Reg) (imm : BitVec 16), ∃ t v, exec (.ori rt rs imm) s = .next t ∧
    WritesReg s t rt v ∧ ∀ k, v.getLsbD k = ((s.reg rs).getLsbD k || imm.getLsbD k)) ∧
  (∀ (s : State) (rt rs : Reg) (imm : BitVec 16), ∃ t v, exec (.xori rt rs imm) s = .next t ∧
    WritesReg s t rt v ∧ ∀ k, v.getLsbD k = ((s.reg rs).getLsbD k != imm.getLsbD k)) ∧
  ∀ (s : State) (rt : Reg) (imm : BitVec 16), ∃ t v, exec (.lui rt imm) s = .next t ∧
    WritesReg s t rt v ∧ v.toNat = imm.toNat * 65536

/-- R102, R103: CLZ and CLO count the zeros, the ones, from bit 31 downward; the `rt` field is not
used, which is the spec's own decision (D26). -/
def Obligations.CountLeadingBits : Prop :=
  DecodesTo 0xFC0007FF#32 0x70000020#32 (fun w => .clz (fieldRd w) (fieldRs w) (fieldRt w)) ∧
  DecodesTo 0xFC0007FF#32 0x70000021#32 (fun w => .clo (fieldRd w) (fieldRs w) (fieldRt w)) ∧
  (∀ (s : State) (rd rs rt : Reg), ∃ t v, exec (.clz rd rs rt) s = .next t ∧ WritesReg s t rd v ∧
    v.toNat ≤ 32 ∧ (∀ k, k < v.toNat → (s.reg rs).getLsbD (31 - k) = false) ∧
    (v.toNat < 32 → (s.reg rs).getLsbD (31 - v.toNat) = true)) ∧
  ∀ (s : State) (rd rs rt : Reg), ∃ t v, exec (.clo rd rs rt) s = .next t ∧ WritesReg s t rd v ∧
    v.toNat ≤ 32 ∧ (∀ k, k < v.toNat → (s.reg rs).getLsbD (31 - k) = true) ∧
    (v.toNat < 32 → (s.reg rs).getLsbD (31 - v.toNat) = false)

/-! ### Shifts (`spec/43_shift.md`) -/

/-- R105 to R107: SLL, SRL and SRA by the `shamt` field; SRA rounds toward minus infinity. -/
def Obligations.ShiftsByImmediate : Prop :=
  DecodesTo 0xFFE0003F#32 0x00000000#32 (fun w => .sll (fieldRd w) (fieldRt w) (fieldShamt w)) ∧
  DecodesTo 0xFFE0003F#32 0x00000002#32 (fun w => .srl (fieldRd w) (fieldRt w) (fieldShamt w)) ∧
  DecodesTo 0xFFE0003F#32 0x00000003#32 (fun w => .sra (fieldRd w) (fieldRt w) (fieldShamt w)) ∧
  (∀ (s : State) (rd rt : Reg) (sa : BitVec 5), ∃ t v, exec (.sll rd rt sa) s = .next t ∧
    WritesReg s t rd v ∧ v.toNat = (s.reg rt).toNat * 2 ^ sa.toNat % 2 ^ 32) ∧
  (∀ (s : State) (rd rt : Reg) (sa : BitVec 5), ∃ t v, exec (.srl rd rt sa) s = .next t ∧
    WritesReg s t rd v ∧ v.toNat = (s.reg rt).toNat / 2 ^ sa.toNat) ∧
  ∀ (s : State) (rd rt : Reg) (sa : BitVec 5), ∃ t v, exec (.sra rd rt sa) s = .next t ∧
    WritesReg s t rd v ∧ v.toInt = (s.reg rt).toInt / 2 ^ sa.toNat

/-- R108 to R110: SLLV, SRLV and SRAV by the low five bits of `x[rs]`. -/
def Obligations.ShiftsByRegister : Prop :=
  DecodesTo 0xFC0007FF#32 0x00000004#32 (fun w => .sllv (fieldRd w) (fieldRt w) (fieldRs w)) ∧
  DecodesTo 0xFC0007FF#32 0x00000006#32 (fun w => .srlv (fieldRd w) (fieldRt w) (fieldRs w)) ∧
  DecodesTo 0xFC0007FF#32 0x00000007#32 (fun w => .srav (fieldRd w) (fieldRt w) (fieldRs w)) ∧
  (∀ (s : State) (rd rt rs : Reg), ∃ t v, exec (.sllv rd rt rs) s = .next t ∧ WritesReg s t rd v ∧
    v.toNat = (s.reg rt).toNat * 2 ^ ((s.reg rs).toNat % 32) % 2 ^ 32) ∧
  (∀ (s : State) (rd rt rs : Reg), ∃ t v, exec (.srlv rd rt rs) s = .next t ∧ WritesReg s t rd v ∧
    v.toNat = (s.reg rt).toNat / 2 ^ ((s.reg rs).toNat % 32)) ∧
  ∀ (s : State) (rd rt rs : Reg), ∃ t v, exec (.srav rd rt rs) s = .next t ∧ WritesReg s t rd v ∧
    v.toInt = (s.reg rt).toInt / 2 ^ ((s.reg rs).toNat % 32)

/-! ### Branches (`spec/44_branch.md`) and jumps (`spec/45_jump.md`) -/

/-- R112, R113: BEQ and BNE, the target counted in words from the delay slot. -/
def Obligations.EqualityBranches : Prop :=
  DecodesTo 0xFC000000#32 0x10000000#32 (fun w => .beq (fieldRs w) (fieldRt w) (fieldImm w)) ∧
  DecodesTo 0xFC000000#32 0x14000000#32 (fun w => .bne (fieldRs w) (fieldRt w) (fieldImm w)) ∧
  (∀ (s : State) (rs rt : Reg) (o : BitVec 16), ∃ t, exec (.beq rs rt o) s = .next t ∧
    Transfers s t (nextIf s (s.reg rs = s.reg rt) (s.pc + 4 + (o.signExtend 32 <<< 2)))) ∧
  ∀ (s : State) (rs rt : Reg) (o : BitVec 16), ∃ t, exec (.bne rs rt o) s = .next t ∧
    Transfers s t (nextIf s (s.reg rs ≠ s.reg rt) (s.pc + 4 + (o.signExtend 32 <<< 2)))

/-- R114 to R117: BLEZ, BGTZ, BLTZ and BGEZ; negative means bit 31 set (R111 (d)). -/
def Obligations.SignBranches : Prop :=
  DecodesTo 0xFC1F0000#32 0x18000000#32 (fun w => .blez (fieldRs w) (fieldImm w)) ∧
  DecodesTo 0xFC1F0000#32 0x1C000000#32 (fun w => .bgtz (fieldRs w) (fieldImm w)) ∧
  DecodesTo 0xFC1F0000#32 0x04000000#32 (fun w => .bltz (fieldRs w) (fieldImm w)) ∧
  DecodesTo 0xFC1F0000#32 0x04010000#32 (fun w => .bgez (fieldRs w) (fieldImm w)) ∧
  (∀ (s : State) (rs : Reg) (o : BitVec 16), ∃ t, exec (.blez rs o) s = .next t ∧
    Transfers s t (nextIf s ((s.reg rs).msb = true ∨ s.reg rs = 0)
      (s.pc + 4 + (o.signExtend 32 <<< 2)))) ∧
  (∀ (s : State) (rs : Reg) (o : BitVec 16), ∃ t, exec (.bgtz rs o) s = .next t ∧
    Transfers s t (nextIf s ((s.reg rs).msb = false ∧ s.reg rs ≠ 0)
      (s.pc + 4 + (o.signExtend 32 <<< 2)))) ∧
  (∀ (s : State) (rs : Reg) (o : BitVec 16), ∃ t, exec (.bltz rs o) s = .next t ∧
    Transfers s t (nextIf s ((s.reg rs).msb = true) (s.pc + 4 + (o.signExtend 32 <<< 2)))) ∧
  ∀ (s : State) (rs : Reg) (o : BitVec 16), ∃ t, exec (.bgez rs o) s = .next t ∧
    Transfers s t (nextIf s ((s.reg rs).msb = false) (s.pc + 4 + (o.signExtend 32 <<< 2)))

/-- R118, R119: BLTZAL and BGEZAL test the old `x[rs]`, also for `rs = 31`, and write the link whether
or not they are taken. Both are the spec's own decision (D27). -/
def Obligations.AndLinkBranches : Prop :=
  DecodesTo 0xFC1F0000#32 0x04100000#32 (fun w => .bltzal (fieldRs w) (fieldImm w)) ∧
  DecodesTo 0xFC1F0000#32 0x04110000#32 (fun w => .bgezal (fieldRs w) (fieldImm w)) ∧
  (∀ (s : State) (rs : Reg) (o : BitVec 16), ∃ t, exec (.bltzal rs o) s = .next t ∧
    Links s t 31 (nextIf s ((s.reg rs).msb = true) (s.pc + 4 + (o.signExtend 32 <<< 2)))) ∧
  ∀ (s : State) (rs : Reg) (o : BitVec 16), ∃ t, exec (.bgezal rs o) s = .next t ∧
    Links s t 31 (nextIf s ((s.reg rs).msb = false) (s.pc + 4 + (o.signExtend 32 <<< 2)))

/-- R121, R122: J and JAL go to the delay slot's 256 MiB region; JAL links `here + 8` in x[31]. -/
def Obligations.RegionJumps : Prop :=
  DecodesTo 0xFC000000#32 0x08000000#32 (fun w => .j (fieldIndex w)) ∧
  DecodesTo 0xFC000000#32 0x0C000000#32 (fun w => .jal (fieldIndex w)) ∧
  (∀ (s : State) (index : BitVec 26), ∃ t, exec (.j index) s = .next t ∧
    Transfers s t ((s.pc + 4).extractLsb' 28 4 ++ index ++ 0#2)) ∧
  ∀ (s : State) (index : BitVec 26), ∃ t, exec (.jal index) s = .next t ∧
    Links s t 31 ((s.pc + 4).extractLsb' 28 4 ++ index ++ 0#2)

/-- R123: JR goes to `x[rs]`, unchanged, also where that is no multiple of 4. -/
def Obligations.JumpRegister : Prop :=
  DecodesTo 0xFC1FFFFF#32 0x00000008#32 (fun w => .jr (fieldRs w)) ∧
  ∀ (s : State) (rs : Reg), ∃ t, exec (.jr rs) s = .next t ∧ Transfers s t (s.reg rs)

/-- R124: JALR goes to the old `x[rs]` and links `here + 8` in `x[rd]`, or nowhere for `rd = 0`. That
`rs = rd` uses the old value is the spec's own decision (D27). -/
def Obligations.JumpAndLinkRegister : Prop :=
  DecodesTo 0xFC1F07FF#32 0x00000009#32 (fun w => .jalr (fieldRd w) (fieldRs w)) ∧
  ∀ (s : State) (rd rs : Reg), ∃ t, exec (.jalr rd rs) s = .next t ∧ Links s t rd (s.reg rs)

/-! ### Loads (`spec/46_load.md`) -/

/-- R126 to R129: LB, LBU, LH and LHU extend the byte, the big-endian halfword, at EA; an access that is
not mapped or, for LH and LHU, that the policy forbids faults. -/
def Obligations.ByteAndHalfwordLoads : Prop :=
  DecodesTo 0xFC000000#32 0x80000000#32 (fun w => .lb (fieldRt w) (fieldImm w) (fieldRs w)) ∧
  DecodesTo 0xFC000000#32 0x90000000#32 (fun w => .lbu (fieldRt w) (fieldImm w) (fieldRs w)) ∧
  DecodesTo 0xFC000000#32 0x84000000#32 (fun w => .lh (fieldRt w) (fieldImm w) (fieldRs w)) ∧
  DecodesTo 0xFC000000#32 0x94000000#32 (fun w => .lhu (fieldRt w) (fieldImm w) (fieldRs w)) ∧
  (∀ (s : State) (rt base : Reg) (o : BitVec 16) (ea : Word), ea = s.reg base + o.signExtend 32 →
    FaultsWhereUnmapped s (.lb rt o base) ea ea 1 .read ∧
    FaultsWhereUnmapped s (.lbu rt o base) ea ea 1 .read ∧
    FaultsByPolicy s (.lh rt o base) ea 2 .read ∧ FaultsByPolicy s (.lhu rt o base) ea 2 .read) ∧
  (∀ (s : State) (rt base : Reg) (o : BitVec 16) (ea : Word) (b0 : Byte),
    ea = s.reg base + o.signExtend 32 → s.mem.read (accessAddr ea 0) = some b0 →
    (∃ t, exec (.lb rt o base) s = .next t ∧ WritesReg s t rt (b0.signExtend 32)) ∧
    ∃ t, exec (.lbu rt o base) s = .next t ∧ WritesReg s t rt (b0.setWidth 32)) ∧
  ∀ (s : State) (rt base : Reg) (o : BitVec 16) (ea : Word) (b0 b1 : Byte),
    ea = s.reg base + o.signExtend 32 → AlignedFor s ea 2 →
    s.mem.read (accessAddr ea 0) = some b0 → s.mem.read (accessAddr ea 1) = some b1 →
    (∃ t, exec (.lh rt o base) s = .next t ∧ WritesReg s t rt ((b0 ++ b1).signExtend 32)) ∧
    ∃ t, exec (.lhu rt o base) s = .next t ∧ WritesReg s t rt ((b0 ++ b1).setWidth 32)

/-- R130: LW reads the big-endian word at EA, or faults. -/
def Obligations.WordLoad : Prop :=
  DecodesTo 0xFC000000#32 0x8C000000#32 (fun w => .lw (fieldRt w) (fieldImm w) (fieldRs w)) ∧
  (∀ (s : State) (rt base : Reg) (o : BitVec 16) (ea : Word), ea = s.reg base + o.signExtend 32 →
    FaultsByPolicy s (.lw rt o base) ea 4 .read) ∧
  ∀ (s : State) (rt base : Reg) (o : BitVec 16) (ea : Word) (b0 b1 b2 b3 : Byte),
    ea = s.reg base + o.signExtend 32 → AlignedFor s ea 4 →
    s.mem.read (accessAddr ea 0) = some b0 → s.mem.read (accessAddr ea 1) = some b1 →
    s.mem.read (accessAddr ea 2) = some b2 → s.mem.read (accessAddr ea 3) = some b3 →
    ∃ t, exec (.lw rt o base) s = .next t ∧ WritesReg s t rt (b0 ++ b1 ++ b2 ++ b3)

/-- R133: LL is exactly LW: it reads the word at EA, or faults, and records nothing. That there is no link
state is the spec's own decision (D13). -/
def Obligations.LoadLinkedRecordsNothing : Prop :=
  DecodesTo 0xFC000000#32 0xC0000000#32 (fun w => .ll (fieldRt w) (fieldImm w) (fieldRs w)) ∧
  (∀ (s : State) (rt base : Reg) (o : BitVec 16) (ea : Word), ea = s.reg base + o.signExtend 32 →
    FaultsByPolicy s (.ll rt o base) ea 4 .read) ∧
  (∀ (s : State) (rt base : Reg) (o : BitVec 16) (ea : Word) (b0 b1 b2 b3 : Byte),
    ea = s.reg base + o.signExtend 32 → AlignedFor s ea 4 →
    s.mem.read (accessAddr ea 0) = some b0 → s.mem.read (accessAddr ea 1) = some b1 →
    s.mem.read (accessAddr ea 2) = some b2 → s.mem.read (accessAddr ea 3) = some b3 →
    ∃ t, exec (.ll rt o base) s = .next t ∧ WritesReg s t rt (b0 ++ b1 ++ b2 ++ b3)) ∧
  ∀ (s : State) (rt base : Reg) (o : BitVec 16), exec (.ll rt o base) s = exec (.lw rt o base) s

/-- R131, R132: LWL puts the bytes from EA to the end of its aligned word in the most significant bytes
of `x[rt]`, LWR those from the start of the aligned word to EA in the least significant; the other
bytes of the old `x[rt]` are kept. Where one of those bytes is not mapped they raise `UnmappedAccess`
with EA; no alignment policy applies. That only those bytes are accessed is the spec's own decision
(D12). -/
def Obligations.LeftAndRightLoads : Prop :=
  DecodesTo 0xFC000000#32 0x88000000#32 (fun w => .lwl (fieldRt w) (fieldImm w) (fieldRs w)) ∧
  DecodesTo 0xFC000000#32 0x98000000#32 (fun w => .lwr (fieldRt w) (fieldImm w) (fieldRs w)) ∧
  (∀ (s : State) (rt base : Reg) (o : BitVec 16) (ea : Word) (n : Nat),
    ea = s.reg base + o.signExtend 32 → n = 4 - ea.toNat % 4 →
    FaultsWhereUnmapped s (.lwl rt o base) ea ea n .read ∧
    (MappedFor s ea n → ∃ t v, exec (.lwl rt o base) s = .next t ∧ WritesReg s t rt v ∧
      (∀ k, k < n → s.mem.read (accessAddr ea k) = some (wordByte v k)) ∧
      ∀ k, n ≤ k → k < 4 → wordByte v k = wordByte (s.reg rt) k)) ∧
  ∀ (s : State) (rt base : Reg) (o : BitVec 16) (ea first : Word) (n : Nat),
    ea = s.reg base + o.signExtend 32 → n = ea.toNat % 4 + 1 →
    first = ea - BitVec.ofNat 32 (ea.toNat % 4) →
    FaultsWhereUnmapped s (.lwr rt o base) ea first n .read ∧
    (MappedFor s first n → ∃ t v, exec (.lwr rt o base) s = .next t ∧ WritesReg s t rt v ∧
      (∀ k, k < n → s.mem.read (accessAddr first k) = some (wordByte v (4 - n + k))) ∧
      ∀ k, k < 4 - n → wordByte v k = wordByte (s.reg rt) k)

/-! ### Stores (`spec/47_store.md`) -/

/-- R135 to R137: SB, SH and SW store the low byte, halfword, word of `x[rt]` at EA, big-endian; an access
that is not mapped or, for SH and SW, that the policy forbids faults and stores nothing. -/
def Obligations.ByteHalfwordWordStores : Prop :=
  DecodesTo 0xFC000000#32 0xA0000000#32 (fun w => .sb (fieldRt w) (fieldImm w) (fieldRs w)) ∧
  DecodesTo 0xFC000000#32 0xA4000000#32 (fun w => .sh (fieldRt w) (fieldImm w) (fieldRs w)) ∧
  DecodesTo 0xFC000000#32 0xAC000000#32 (fun w => .sw (fieldRt w) (fieldImm w) (fieldRs w)) ∧
  ∀ (s : State) (rt base : Reg) (o : BitVec 16) (ea : Word), ea = s.reg base + o.signExtend 32 →
    FaultsWhereUnmapped s (.sb rt o base) ea ea 1 .write ∧
    FaultsByPolicy s (.sh rt o base) ea 2 .write ∧ FaultsByPolicy s (.sw rt o base) ea 4 .write ∧
    (MappedFor s ea 1 → ∃ t, exec (.sb rt o base) s = .next t ∧ Stores s t ea 1 (s.reg rt)) ∧
    (AlignedFor s ea 2 → MappedFor s ea 2 →
      ∃ t, exec (.sh rt o base) s = .next t ∧ Stores s t ea 2 (s.reg rt)) ∧
    (AlignedFor s ea 4 → MappedFor s ea 4 →
      ∃ t, exec (.sw rt o base) s = .next t ∧ Stores s t ea 4 (s.reg rt))

/-- R138, R139: SWL stores the most significant bytes of `x[rt]` from EA to the end of its aligned
word, SWR the least significant from the start of the aligned word to EA; no other byte is touched. Where
one of those bytes is not mapped they raise `UnmappedAccess` with EA; no alignment policy applies.
That only those bytes are accessed is the spec's own decision (D12). -/
def Obligations.LeftAndRightStores : Prop :=
  DecodesTo 0xFC000000#32 0xA8000000#32 (fun w => .swl (fieldRt w) (fieldImm w) (fieldRs w)) ∧
  DecodesTo 0xFC000000#32 0xB8000000#32 (fun w => .swr (fieldRt w) (fieldImm w) (fieldRs w)) ∧
  (∀ (s : State) (rt base : Reg) (o : BitVec 16) (ea : Word) (k : Nat),
    ea = s.reg base + o.signExtend 32 → k = ea.toNat % 4 →
    FaultsWhereUnmapped s (.swl rt o base) ea ea (4 - k) .write ∧
    (MappedFor s ea (4 - k) → ∃ t, exec (.swl rt o base) s = .next t ∧
      Stores s t ea (4 - k) (s.reg rt >>> (8 * k)))) ∧
  ∀ (s : State) (rt base : Reg) (o : BitVec 16) (ea first : Word) (k : Nat),
    ea = s.reg base + o.signExtend 32 → k = ea.toNat % 4 → first = ea - BitVec.ofNat 32 k →
    FaultsWhereUnmapped s (.swr rt o base) ea first (k + 1) .write ∧
    (MappedFor s first (k + 1) → ∃ t, exec (.swr rt o base) s = .next t ∧
      Stores s t first (k + 1) (s.reg rt))

/-- R140: SC always makes its store of the old `x[rt]` and then writes 1 to `x[rt]`, or faults as SW does
and does neither. That it always succeeds is the spec's own decision (D13). -/
def Obligations.StoreConditionalAlwaysSucceeds : Prop :=
  DecodesTo 0xFC000000#32 0xE0000000#32 (fun w => .sc (fieldRt w) (fieldImm w) (fieldRs w)) ∧
  ∀ (s : State) (rt base : Reg) (o : BitVec 16) (ea : Word), ea = s.reg base + o.signExtend 32 →
    FaultsByPolicy s (.sc rt o base) ea 4 .write ∧
    (AlignedFor s ea 4 → MappedFor s ea 4 →
      ∃ t, exec (.sc rt o base) s = .next t ∧
        Completed s t (s.regsWith rt 1) s.hi s.lo (s.nextPc + 4) ∧ StoredBytes s t ea 4 (s.reg rt))

/-! ### Multiply, divide, HI and LO (`spec/48_muldiv.md`) -/

/-- R142, R143, R150: MULT and MULTU leave the 64-bit product in `HI ‖ LO`; MUL writes the low word to
`x[rd]` and leaves HI and LO. Which half of the product HI holds, and that MUL leaves the pair, are the
spec's own decision (D25). -/
def Obligations.Multiplications : Prop :=
  DecodesTo 0xFC00FFFF#32 0x00000018#32 (fun w => .mult (fieldRs w) (fieldRt w)) ∧
  DecodesTo 0xFC00FFFF#32 0x00000019#32 (fun w => .multu (fieldRs w) (fieldRt w)) ∧
  DecodesTo 0xFC0007FF#32 0x70000002#32 (fun w => .mul (fieldRd w) (fieldRs w) (fieldRt w)) ∧
  (∀ (s : State) (rs rt : Reg), ∃ t hi lo, exec (.mult rs rt) s = .next t ∧ WritesHiLo s t hi lo ∧
    (hi ++ lo : DWord).toInt = (s.reg rs).toInt * (s.reg rt).toInt) ∧
  (∀ (s : State) (rs rt : Reg), ∃ t hi lo, exec (.multu rs rt) s = .next t ∧ WritesHiLo s t hi lo ∧
    (hi ++ lo : DWord).toNat = (s.reg rs).toNat * (s.reg rt).toNat) ∧
  ∀ (s : State) (rd rs rt : Reg), ∃ t v, exec (.mul rd rs rt) s = .next t ∧ WritesReg s t rd v ∧
    v.toNat = (s.reg rs).toNat * (s.reg rt).toNat % 2 ^ 32

/-- R144, R145: DIV and DIVU leave the quotient in LO and the remainder in HI; DIV rounds toward zero,
its remainder has the dividend's sign; -2^31 / -1 gives LO = 0x80000000, HI = 0; a zero divisor gives
DIV0 of the operands and the old HI and LO, whatever DIV0 is, and no fault. The result of -2^31 / -1 is
the spec's own decision (D10), as are DIV0's being open (D9) and the roles of HI and LO (D25). DIV0 is a
free value of the model (log 4). -/
def Obligations.Divisions : Prop :=
  DecodesTo 0xFC00FFFF#32 0x0000001A#32 (fun w => .div (fieldRs w) (fieldRt w)) ∧
  DecodesTo 0xFC00FFFF#32 0x0000001B#32 (fun w => .divu (fieldRs w) (fieldRt w)) ∧
  (∀ (s : State) (rs rt : Reg) (a b : Int), a = (s.reg rs).toInt → b = (s.reg rt).toInt →
    ∃ t hi lo, exec (.div rs rt) s = .next t ∧ WritesHiLo s t hi lo ∧
      (b = 0 → (hi, lo) = Config.div0 true (s.reg rs) (s.reg rt) s.hi s.lo) ∧
      (a = -2 ^ 31 → b = -1 → lo = 0x80000000#32 ∧ hi = 0#32) ∧
      (b ≠ 0 → ¬ (a = -2 ^ 31 ∧ b = -1) →
        a = lo.toInt * b + hi.toInt ∧ hi.toInt.natAbs < b.natAbs ∧
        (0 ≤ a → 0 ≤ hi.toInt) ∧ (a ≤ 0 → hi.toInt ≤ 0))) ∧
  ∀ (s : State) (rs rt : Reg) (a b : Nat), a = (s.reg rs).toNat → b = (s.reg rt).toNat →
    ∃ t hi lo, exec (.divu rs rt) s = .next t ∧ WritesHiLo s t hi lo ∧
      (b = 0 → (hi, lo) = Config.div0 false (s.reg rs) (s.reg rt) s.hi s.lo) ∧
      (b ≠ 0 → a = lo.toNat * b + hi.toNat ∧ hi.toNat < b)

/-- R146 to R149: MFHI and MFLO read, MTHI and MTLO write one of HI and LO and leave the other. -/
def Obligations.MovesOfHiAndLo : Prop :=
  DecodesTo 0xFFFF07FF#32 0x00000010#32 (fun w => .mfhi (fieldRd w)) ∧
  DecodesTo 0xFFFF07FF#32 0x00000012#32 (fun w => .mflo (fieldRd w)) ∧
  DecodesTo 0xFC1FFFFF#32 0x00000011#32 (fun w => .mthi (fieldRs w)) ∧
  DecodesTo 0xFC1FFFFF#32 0x00000013#32 (fun w => .mtlo (fieldRs w)) ∧
  (∀ (s : State) (rd : Reg), ∃ t, exec (.mfhi rd) s = .next t ∧ WritesReg s t rd s.hi) ∧
  (∀ (s : State) (rd : Reg), ∃ t, exec (.mflo rd) s = .next t ∧ WritesReg s t rd s.lo) ∧
  (∀ (s : State) (rs : Reg), ∃ t, exec (.mthi rs) s = .next t ∧ WritesHiLo s t (s.reg rs) s.lo) ∧
  ∀ (s : State) (rs : Reg), ∃ t, exec (.mtlo rs) s = .next t ∧ WritesHiLo s t s.hi (s.reg rs)

/-- R151 to R154: MADD, MADDU, MSUB and MSUBU accumulate onto the old `HI ‖ LO` modulo 2^64. -/
def Obligations.MultiplyAccumulate : Prop :=
  DecodesTo 0xFC00FFFF#32 0x70000000#32 (fun w => .madd (fieldRs w) (fieldRt w)) ∧
  DecodesTo 0xFC00FFFF#32 0x70000001#32 (fun w => .maddu (fieldRs w) (fieldRt w)) ∧
  DecodesTo 0xFC00FFFF#32 0x70000004#32 (fun w => .msub (fieldRs w) (fieldRt w)) ∧
  DecodesTo 0xFC00FFFF#32 0x70000005#32 (fun w => .msubu (fieldRs w) (fieldRt w)) ∧
  ∀ (s : State) (rs rt : Reg) (acc : Nat), acc = s.hi.toNat * 2 ^ 32 + s.lo.toNat →
    (∃ t hi lo, exec (.madd rs rt) s = .next t ∧ WritesHiLo s t hi lo ∧
      ((hi.toNat * 2 ^ 32 + lo.toNat : Nat) : Int) =
        ((acc : Int) + (s.reg rs).toInt * (s.reg rt).toInt) % 2 ^ 64) ∧
    (∃ t hi lo, exec (.maddu rs rt) s = .next t ∧ WritesHiLo s t hi lo ∧
      hi.toNat * 2 ^ 32 + lo.toNat =
        (acc + (s.reg rs).toNat * (s.reg rt).toNat) % 2 ^ 64) ∧
    (∃ t hi lo, exec (.msub rs rt) s = .next t ∧ WritesHiLo s t hi lo ∧
      ((hi.toNat * 2 ^ 32 + lo.toNat : Nat) : Int) =
        ((acc : Int) - (s.reg rs).toInt * (s.reg rt).toInt) % 2 ^ 64) ∧
    ∃ t hi lo, exec (.msubu rs rt) s = .next t ∧ WritesHiLo s t hi lo ∧
      ((hi.toNat * 2 ^ 32 + lo.toNat : Nat) : Int) =
        ((acc : Int) - ((s.reg rs).toNat * (s.reg rt).toNat : Nat)) % 2 ^ 64
end

