-- ==== Sys2Proof/Laws/Encoding.lean ====
section
/-! SUPPORT. Fields of encoded words, words from their fields, and fields of masked words. -/
namespace Sys2Proof.Laws

variable (op fn : BitVec 6) (rs rt rd : Reg) (sh : BitVec 5) (imm : BitVec 16) (ix : BitVec 26)
  (code : BitVec 20) (w v : Word)

/-! ### The fields of a word made by a format (R54) -/

@[simp] theorem fieldOpcode_encodeR : fieldOpcode (encodeR op rs rt rd sh fn) = op := by
  unfold fieldOpcode encodeR; ext i hi; simp; grind
@[simp] theorem fieldRs_encodeR : fieldRs (encodeR op rs rt rd sh fn) = rs := by
  unfold fieldRs encodeR; ext i hi; simp; grind
@[simp] theorem fieldRt_encodeR : fieldRt (encodeR op rs rt rd sh fn) = rt := by
  unfold fieldRt encodeR; ext i hi; simp; grind
@[simp] theorem fieldRd_encodeR : fieldRd (encodeR op rs rt rd sh fn) = rd := by
  unfold fieldRd encodeR; ext i hi; simp; grind
@[simp] theorem fieldShamt_encodeR : fieldShamt (encodeR op rs rt rd sh fn) = sh := by
  unfold fieldShamt encodeR; ext i hi; simp; grind
@[simp] theorem fieldFunct_encodeR : fieldFunct (encodeR op rs rt rd sh fn) = fn := by
  unfold fieldFunct encodeR; ext i hi; simp; grind
@[simp] theorem fieldOpcode_encodeI : fieldOpcode (encodeI op rs rt imm) = op := by
  unfold fieldOpcode encodeI; ext i hi; simp; grind
@[simp] theorem fieldRs_encodeI : fieldRs (encodeI op rs rt imm) = rs := by
  unfold fieldRs encodeI; ext i hi; simp; grind
@[simp] theorem fieldRt_encodeI : fieldRt (encodeI op rs rt imm) = rt := by
  unfold fieldRt encodeI; ext i hi; simp; grind
@[simp] theorem fieldImm_encodeI : fieldImm (encodeI op rs rt imm) = imm := by
  unfold fieldImm encodeI; ext i hi; simp; grind
@[simp] theorem fieldOpcode_encodeJ : fieldOpcode (encodeJ op ix) = op := by
  unfold fieldOpcode encodeJ; ext i hi; simp; grind
@[simp] theorem fieldIndex_encodeJ : fieldIndex (encodeJ op ix) = ix := by
  unfold fieldIndex encodeJ; ext i hi; simp; grind
@[simp] theorem fieldOpcode_encodeSyscall : fieldOpcode (encodeSyscall code) = 0x00#6 := by
  unfold fieldOpcode encodeSyscall; ext i hi; simp; grind
@[simp] theorem fieldCode_encodeSyscall : fieldCode (encodeSyscall code) = code := by
  unfold fieldCode encodeSyscall; ext i hi; simp; grind
@[simp] theorem fieldFunct_encodeSyscall : fieldFunct (encodeSyscall code) = 0x0C#6 := by
  unfold fieldFunct encodeSyscall; ext i hi; simp; grind

/-! ### A word from its fields -/

theorem encodeR_fields :
    encodeR (fieldOpcode w) (fieldRs w) (fieldRt w) (fieldRd w) (fieldShamt w) (fieldFunct w) = w := by
  unfold encodeR fieldOpcode fieldRs fieldRt fieldRd fieldShamt fieldFunct; ext i hi; grind
theorem encodeI_fields :
    encodeI (fieldOpcode w) (fieldRs w) (fieldRt w) (fieldImm w) = w := by
  unfold encodeI fieldOpcode fieldRs fieldRt fieldImm; ext i hi; grind
theorem encodeJ_fields : encodeJ (fieldOpcode w) (fieldIndex w) = w := by
  unfold encodeJ fieldOpcode fieldIndex; ext i hi; grind
theorem encodeSyscall_fields (ho : fieldOpcode w = 0x00#6) (hf : fieldFunct w = 0x0C#6) :
    encodeSyscall (fieldCode w) = w := by
  unfold encodeSyscall
  rw [← ho, ← hf]
  unfold fieldOpcode fieldCode fieldFunct; ext i hi; grind

/-- Two words with the same R fields are the same word. -/
theorem word_ext_R (h1 : fieldOpcode w = fieldOpcode v) (h2 : fieldRs w = fieldRs v)
    (h3 : fieldRt w = fieldRt v) (h4 : fieldRd w = fieldRd v) (h5 : fieldShamt w = fieldShamt v)
    (h6 : fieldFunct w = fieldFunct v) : w = v := by
  rw [← encodeR_fields w, ← encodeR_fields v, h1, h2, h3, h4, h5, h6]

/-- Two words with the same I fields are the same word. -/
theorem word_ext_I (h1 : fieldOpcode w = fieldOpcode v) (h2 : fieldRs w = fieldRs v)
    (h3 : fieldRt w = fieldRt v) (h4 : fieldImm w = fieldImm v) : w = v := by
  rw [← encodeI_fields w, ← encodeI_fields v, h1, h2, h3, h4]

/-- Two words with the same J fields are the same word. -/
theorem word_ext_J (h1 : fieldOpcode w = fieldOpcode v) (h2 : fieldIndex w = fieldIndex v) :
    w = v := by
  rw [← encodeJ_fields w, ← encodeJ_fields v, h1, h2]

/-- Two words with the same opcode, code and function code are the same word. -/
theorem word_ext_code (h1 : fieldOpcode w = fieldOpcode v) (h2 : fieldCode w = fieldCode v)
    (h3 : fieldFunct w = fieldFunct v) : w = v := by
  have key : ∀ u : Word, fieldOpcode u ++ fieldCode u ++ fieldFunct u = u := by
    intro u; unfold fieldOpcode fieldCode fieldFunct; ext i hi; grind
  rw [← key w, ← key v, h1, h2, h3]

/-! ### The fields of a masked word -/

theorem fieldOpcode_and : fieldOpcode (w &&& v) = fieldOpcode w &&& fieldOpcode v := by
  simp [fieldOpcode, BitVec.extractLsb'_and]
theorem fieldRs_and : fieldRs (w &&& v) = fieldRs w &&& fieldRs v := by
  simp [fieldRs, BitVec.extractLsb'_and]
theorem fieldRt_and : fieldRt (w &&& v) = fieldRt w &&& fieldRt v := by
  simp [fieldRt, BitVec.extractLsb'_and]
theorem fieldRd_and : fieldRd (w &&& v) = fieldRd w &&& fieldRd v := by
  simp [fieldRd, BitVec.extractLsb'_and]
theorem fieldShamt_and : fieldShamt (w &&& v) = fieldShamt w &&& fieldShamt v := by
  simp [fieldShamt, BitVec.extractLsb'_and]
theorem fieldFunct_and : fieldFunct (w &&& v) = fieldFunct w &&& fieldFunct v := by
  simp [fieldFunct, BitVec.extractLsb'_and]
theorem fieldImm_and : fieldImm (w &&& v) = fieldImm w &&& fieldImm v := by
  simp [fieldImm, BitVec.extractLsb'_and]
theorem fieldIndex_and : fieldIndex (w &&& v) = fieldIndex w &&& fieldIndex v := by
  simp [fieldIndex, BitVec.extractLsb'_and]
theorem fieldCode_and : fieldCode (w &&& v) = fieldCode w &&& fieldCode v := by
  simp [fieldCode, BitVec.extractLsb'_and]

/-- The fields of a word that meets a row, masked as the row's are. -/
theorem fields_of_masked {w mask value : Word} (h : w &&& mask = value) :
    fieldOpcode w &&& fieldOpcode mask = fieldOpcode value ∧
    fieldRs w &&& fieldRs mask = fieldRs value ∧ fieldRt w &&& fieldRt mask = fieldRt value ∧
    fieldRd w &&& fieldRd mask = fieldRd value ∧
    fieldShamt w &&& fieldShamt mask = fieldShamt value ∧
    fieldFunct w &&& fieldFunct mask = fieldFunct value := by
  subst h
  exact ⟨(fieldOpcode_and ..).symm, (fieldRs_and ..).symm, (fieldRt_and ..).symm,
    (fieldRd_and ..).symm, (fieldShamt_and ..).symm, (fieldFunct_and ..).symm⟩

end Sys2Proof.Laws
end

