-- ==== Sys2Proof/Laws/Decode.lean ====
section
/-! SUPPORT. How a statement that a row decodes to its instruction is proved: from the row's place in its
map and from the fields its mask names. -/
namespace Sys2Proof.Laws
open Sys2Proof.Machine

theorem eq_of_and_allOnes {n : Nat} {a b c : BitVec n} (h : a &&& b = c)
    (hb : b = BitVec.allOnes n) : a = c := by
  subst hb; rwa [BitVec.and_allOnes] at h

/-- A word meets a row exactly where its fields do. -/
theorem masked_iff_fields (w mask value : Word) : w &&& mask = value ↔
    fieldOpcode w &&& fieldOpcode mask = fieldOpcode value ∧
    fieldRs w &&& fieldRs mask = fieldRs value ∧ fieldRt w &&& fieldRt mask = fieldRt value ∧
    fieldRd w &&& fieldRd mask = fieldRd value ∧
    fieldShamt w &&& fieldShamt mask = fieldShamt value ∧
    fieldFunct w &&& fieldFunct mask = fieldFunct value := by
  refine ⟨fields_of_masked, fun ⟨h1, h2, h3, h4, h5, h6⟩ => ?_⟩
  apply word_ext_R <;> simp only [fieldOpcode_and, fieldRs_and, fieldRt_and, fieldRd_and,
    fieldShamt_and, fieldFunct_and, *]

/-! What a selector says of a word's fields. -/

theorem selector_special {w : Word} {f : BitVec 6} :
    selector w = .special f ↔ fieldOpcode w = 0x00#6 ∧ fieldFunct w = f := by
  unfold selector; split
  · simp [*]
  split
  · simp [*]
  split <;> simp [*]

theorem selector_special2 {w : Word} {f : BitVec 6} :
    selector w = .special2 f ↔ fieldOpcode w = 0x1C#6 ∧ fieldFunct w = f := by
  unfold selector; split
  · simp [*]
  split
  · simp [*]
  split <;> simp [*]

theorem selector_regimm {w : Word} {r : Reg} :
    selector w = .regimm r ↔ fieldOpcode w = 0x01#6 ∧ fieldRt w = r := by
  unfold selector; split
  · simp [*]
  split
  · simp [*]
  split <;> simp [*]

theorem selector_primary {w : Word} {op : BitVec 6} :
    selector w = .primary op ↔
      fieldOpcode w = op ∧ op ≠ 0x00#6 ∧ op ≠ 0x1C#6 ∧ op ≠ 0x01#6 := by
  unfold selector
  by_cases h0 : fieldOpcode w = 0x00#6
  · simp only [h0, if_true]; simp; rintro rfl; simp
  by_cases h1 : fieldOpcode w = 0x1C#6
  · simp only [h1]; simp; rintro rfl; simp
  by_cases h2 : fieldOpcode w = 0x01#6
  · simp only [h2]; simp; rintro rfl; simp
  simp only [h0, h1, h2, if_false]; simp; rintro rfl; simp [*]

/-- A row decodes to its instruction when, on the words of its selector, the decoder checks `z`, and `z`
holds exactly on the words that meet the row. -/
theorem decodesTo_of {mask value : Word} {f : Word → Instr} (z : Word → Bool)
    (hs : ∀ w, w &&& mask = value → selector w = selector value)
    (h : ∀ w, selector w = selector value →
      decode w = .checked (z w) w (f w) ∧ (z w = true ↔ w &&& mask = value)) :
    DecodesTo mask value f := by
  refine fun w => ⟨fun hw => ?_, fun hw hn => ?_⟩
  · obtain ⟨h1, h2⟩ := h w (hs w hw)
    rw [h1, h2.2 hw]; rfl
  · obtain ⟨h1, h2⟩ := h w hw
    have hz : z w = false := by simpa using fun c => hn (h2.1 c)
    rw [h1, hz]; rfl

end Sys2Proof.Laws
end

