-- ==== Sys2Proof/Laws/Memory.lean ====
section
/-! SUPPORT. The laws of memory: a byte read after a write, what each operation leaves unchanged, and
that every operation keeps the canonical form. -/
namespace Sys2Proof.Laws
open Sys2Proof.Machine

/-! ### Cells -/

theorem cellAt_insertCell (cells : List Host.Cell) (a : Nat) (b : Byte)
    (h : ∀ c ∈ cells, c.1 ≠ a) (x : Nat) :
    cellAt (insertCell cells a b) x = if x = a then b else cellAt cells x := by
  induction cells with
  | nil => by_cases hx : a = x <;> simp [insertCell, cellAt, hx, eq_comm]
  | cons c rest ih =>
    have hc : c.1 ≠ a := h c (by simp)
    have ih := ih (fun c hc => h c (by simp [hc]))
    unfold insertCell
    split
    · by_cases hx : a = x <;> simp [cellAt, hx, eq_comm]
    · by_cases hx : x = a
      · subst hx; simp [cellAt, ih, hc]
      · simp [cellAt, ih, hx]

theorem cellAt_filter_ne (cells : List Host.Cell) (a x : Nat) :
    cellAt (cells.filter (fun c => decide (c.1 ≠ a))) x = if x = a then 0 else cellAt cells x := by
  induction cells with
  | nil => simp [cellAt]
  | cons c rest ih =>
    by_cases hc : c.1 = a
    · rw [List.filter_cons_of_neg (by simp [hc]), ih]
      subst hc; by_cases hx : x = c.1
      · simp [hx]
      · simp [cellAt, hx, Ne.symm hx]
    · rw [List.filter_cons_of_pos (by simp [hc])]
      simp only [cellAt, ih]
      by_cases hx : x = a
      · subst hx; simp [hc]
      · simp [hx]

/-- The cell written holds the byte; every other is as it was. -/
theorem cellAt_setCell (cells : List Host.Cell) (a : Nat) (b : Byte) (x : Nat) :
    cellAt (setCell cells a b) x = if x = a then b else cellAt cells x := by
  unfold setCell
  by_cases hb : b = 0
  · simp only [hb, if_true, cellAt_filter_ne]
  · simp only [hb, if_false]
    rw [cellAt_insertCell, cellAt_filter_ne]
    · split <;> rfl
    · intro c hc; simpa using (List.mem_filter.1 hc).2

theorem mem_insertCell {cells : List Host.Cell} {a : Nat} {b : Byte} {c : Host.Cell} :
    c ∈ insertCell cells a b ↔ c = (a, b) ∨ c ∈ cells := by
  induction cells with
  | nil => simp [insertCell]
  | cons d rest ih => unfold insertCell; split <;> simp [ih]; tauto

theorem insertCell_sorted {cells : List Host.Cell} {a : Nat} {b : Byte}
    (h : cells.Pairwise (fun c d => c.1 < d.1)) (hne : ∀ c ∈ cells, c.1 ≠ a) :
    (insertCell cells a b).Pairwise (fun c d => c.1 < d.1) := by
  induction cells with
  | nil => simp [insertCell]
  | cons c rest ih =>
    have hp := List.pairwise_cons.1 h
    unfold insertCell
    split
    · rename_i hlt
      refine List.pairwise_cons.2 ⟨fun d hd => ?_, h⟩
      rcases List.mem_cons.1 hd with rfl | hd
      · exact hlt
      · exact Nat.lt_trans hlt (hp.1 d hd)
    · rename_i hnlt
      refine List.pairwise_cons.2 ⟨fun d hd => ?_, ih hp.2 (fun c hc => hne c (by simp [hc]))⟩
      rcases mem_insertCell.1 hd with rfl | hd
      · have := hne c (by simp); omega
      · exact hp.1 d hd

theorem mem_setCell {cells : List Host.Cell} {a : Nat} {b : Byte} {c : Host.Cell}
    (h : c ∈ setCell cells a b) : (c = (a, b) ∧ b ≠ 0) ∨ c ∈ cells := by
  unfold setCell at h
  split at h
  · exact .inr (List.mem_filter.1 h).1
  · rename_i hb
    rcases mem_insertCell.1 h with h | h
    · exact .inl ⟨h, hb⟩
    · exact .inr (List.mem_filter.1 h).1

theorem setCell_wf {cells : List Host.Cell} (h : cellsWf cells) (a : Nat) (b : Byte) :
    cellsWf (setCell cells a b) := by
  refine ⟨fun c hc => ?_, ?_⟩
  · rcases mem_setCell hc with ⟨rfl, hb⟩ | hc
    · exact hb
    · exact h.1 c hc
  · unfold setCell
    split
    · exact h.2.filter _
    · exact insertCell_sorted (h.2.filter _) fun c hc => by simpa using (List.mem_filter.1 hc).2

/-! ### One byte -/

@[simp] theorem mapped_write (m : Memory) (a : Nat) (b : Byte) (x : Nat) :
    (m.write a b).mapped x = m.mapped x := rfl

@[simp] theorem map_write (m : Memory) (a : Nat) (b : Byte) : (m.write a b).map = m.map := rfl

/-- A byte read after a write: the byte written at a mapped address, else what was there. -/
theorem read_write (m : Memory) (a : Nat) (b : Byte) (x : Nat) :
    (m.write a b).read x = if x = a ∧ m.mapped a = true then some b else m.read x := by
  unfold Memory.read
  rw [mapped_write]
  show (if m.mapped x = true then some (cellAt (setCell m.cells a b) x) else none) = _
  rw [cellAt_setCell]
  by_cases hx : x = a
  · subst hx; by_cases hm : m.mapped x = true <;> simp [hm]
  · simp [hx]

theorem read_isSome (m : Memory) (a : Nat) : (m.read a).isSome = m.mapped a := by
  unfold Memory.read; split <;> simp_all

theorem read_eq_none (m : Memory) (a : Nat) : m.read a = none ↔ m.mapped a = false := by
  unfold Memory.read; split <;> simp_all

theorem write_wf {m : Memory} (h : m.wf) {a : Nat} (ha : m.mapped a = true) (b : Byte) :
    (m.write a b).wf := by
  refine ⟨h.1, setCell_wf h.2.1 a b, fun c hc => ?_⟩
  rcases mem_setCell hc with ⟨rfl, -⟩ | hc
  · exact ha
  · exact h.2.2 c hc

/-! ### Regions -/

/-- A region list holds the addresses it held, and those of the region added. -/
theorem any_insertRegion (map : List Region) (lo hi a : Nat) :
    (insertRegion map lo hi).any (·.contains a) =
      (map.any (·.contains a) || Region.contains ⟨lo, hi⟩ a) := by
  induction map generalizing lo hi with
  | nil =>
    unfold insertRegion; split <;> simp [Region.contains]
    omega
  | cons r rest ih =>
    unfold insertRegion
    split
    · have : Region.contains ⟨lo, hi⟩ a = false := by simp [Region.contains]; omega
      simp [this]
    split
    · have : Region.contains r a = false := by simp [Region.contains]; omega
      simp [ih, this]
    split
    · simp [Bool.or_comm, Bool.or_left_comm]
    split
    · simp [ih, Bool.or_assoc]
    · rw [ih]
      have : Region.contains ⟨min lo r.lo, max hi r.hi⟩ a =
          (Region.contains r a || Region.contains ⟨lo, hi⟩ a) := by
        simp only [Region.contains, ← Bool.decide_and, ← Bool.decide_or, decide_eq_decide]
        omega
      simp only [this, List.any_cons]
      cases r.contains a <;> simp

theorem insertRegion_lower {map : List Region} {lo hi b : Nat} (hlo : b < lo)
    (hb : ∀ r ∈ map, b < r.lo) : ∀ r ∈ insertRegion map lo hi, b < r.lo := by
  induction map generalizing lo hi with
  | nil => unfold insertRegion; split <;> simp [hlo]
  | cons q rest ih =>
    have hq := hb q (by simp)
    have hr : ∀ r ∈ rest, b < r.lo := fun r h => hb r (by simp [h])
    unfold insertRegion
    split
    · exact hb
    split
    · exact ih hlo hr
    split
    · intro r h
      rcases List.mem_cons.1 h with rfl | h
      · exact hlo
      · exact hb r h
    split
    · intro r h
      rcases List.mem_cons.1 h with rfl | h
      · exact hq
      · exact ih hlo hr r h
    · exact ih (by omega) hr

theorem insertRegion_wf {map : List Region} (h : regionsWf map) {lo hi : Nat}
    (hhi : hi ≤ addressSpace) : regionsWf (insertRegion map lo hi) := by
  induction map generalizing lo hi with
  | nil => unfold insertRegion; split <;> simp_all [regionsWf]
  | cons q rest ih =>
    have hp := List.pairwise_cons.1 h.2
    have hq := h.1 q (by simp)
    have hr : regionsWf rest := ⟨fun r hr => h.1 r (by simp [hr]), hp.2⟩
    unfold insertRegion
    split
    · exact h
    split
    · exact ih hr hhi
    split
    · rename_i h1 _ h3
      refine ⟨fun r hm => ?_, List.pairwise_cons.2 ⟨fun r hm => ?_, h.2⟩⟩
      · rcases List.mem_cons.1 hm with rfl | hm
        · exact ⟨by simp; omega, hhi⟩
        · exact h.1 r hm
      · rcases List.mem_cons.1 hm with rfl | hm
        · exact h3
        · have := hp.1 r hm; simp; omega
    split
    · rename_i h4
      have ih := ih (lo := lo) (hi := hi) hr hhi
      refine ⟨fun r hm => ?_, List.pairwise_cons.2 ⟨?_, ih.2⟩⟩
      · rcases List.mem_cons.1 hm with rfl | hm
        · exact hq
        · exact ih.1 r hm
      · exact insertRegion_lower h4 hp.1
    · exact ih hr (by simp only [Nat.max_def]; split <;> omega)

/-- After a region is added, an address is mapped if it was or it lies in the region. -/
theorem mapped_mapRegion (m : Memory) (r : Region) (a : Nat) :
    (m.mapRegion r).mapped a =
      (m.mapped a || Region.contains ⟨r.lo, min r.hi addressSpace⟩ a) :=
  any_insertRegion _ _ _ _

theorem cellAt_filter (cells : List Host.Cell) (p : Nat → Bool) (a : Nat) :
    cellAt (cells.filter (fun c => p c.1)) a = if p a then cellAt cells a else 0 := by
  induction cells with
  | nil => simp [cellAt]
  | cons c rest ih =>
    by_cases hc : p c.1 = true
    · rw [List.filter_cons_of_pos (by simpa using hc)]
      simp only [cellAt, ih]
      by_cases h : c.1 = a
      · subst h; simp [hc]
      · simp [h]
    · rw [List.filter_cons_of_neg (by simpa using hc), ih]
      simp only [cellAt]
      by_cases h : c.1 = a
      · subst h; simp [hc]
      · simp [h]

/-- A byte read after a region is added: what was there, and 0 where nothing was mapped. -/
theorem read_mapRegion (m : Memory) (r : Region) (a : Nat) :
    (m.mapRegion r).read a =
      if m.mapped a then m.read a
      else if Region.contains ⟨r.lo, min r.hi addressSpace⟩ a then some 0 else none := by
  unfold Memory.read
  rw [mapped_mapRegion]
  have hc : cellAt (m.mapRegion r).cells a =
      if (m.mapped a || !(Region.contains ⟨r.lo, min r.hi addressSpace⟩ a)) = true
      then cellAt m.cells a else 0 :=
    cellAt_filter m.cells
      (fun x => m.mapped x || !(Region.contains ⟨r.lo, min r.hi addressSpace⟩ x)) a
  rw [hc]
  by_cases hm : m.mapped a = true
  · simp [hm]
  · by_cases hr : Region.contains ⟨r.lo, min r.hi addressSpace⟩ a = true <;> simp [hm, hr]

theorem mapRegion_wf {m : Memory} (h : m.wf) (r : Region) : (m.mapRegion r).wf := by
  refine ⟨insertRegion_wf h.1 (Nat.min_le_right _ _), ⟨fun c hc => ?_, h.2.1.2.filter _⟩,
    fun c hc => ?_⟩
  · exact h.2.1.1 c (List.mem_filter.1 hc).1
  · rw [mapped_mapRegion, h.2.2 c (List.mem_filter.1 hc).1, Bool.true_or]

/-! ### Accesses of several bytes -/

@[simp] theorem map_writeBE (m : Memory) (addr : Word) (n : Nat) (v : Word) :
    (m.writeBE addr n v).map = m.map := by
  induction n generalizing m addr with
  | zero => rfl
  | succ n ih => unfold Memory.writeBE; rw [ih, map_write]

@[simp] theorem mapped_writeBE (m : Memory) (addr : Word) (n : Nat) (v : Word) (a : Nat) :
    (m.writeBE addr n v).mapped a = m.mapped a := by
  unfold Memory.mapped; rw [map_writeBE]

theorem allMapped_of_map_eq {m m' : Memory} (h : m'.map = m.map) (addr : Word) (n : Nat) :
    m'.allMapped addr n = m.allMapped addr n := by
  induction n generalizing addr with
  | zero => rfl
  | succ n ih => unfold Memory.allMapped; rw [ih]; unfold Memory.mapped; rw [h]

theorem writeBE_wf {m : Memory} (h : m.wf) {addr : Word} {n : Nat}
    (ha : m.allMapped addr n = true) (v : Word) : (m.writeBE addr n v).wf := by
  induction n generalizing m addr with
  | zero => exact h
  | succ n ih =>
    simp only [Memory.allMapped, Bool.and_eq_true] at ha
    refine ih (write_wf h ha.1 _) ?_
    rw [allMapped_of_map_eq (map_write _ _ _)]; exact ha.2

/-! ### Adding and writing lists -/

theorem addRegions_wf {m : Memory} (h : m.wf) (rs : List Region) : (addRegions m rs).wf := by
  induction rs generalizing m with
  | nil => exact h
  | cons r rest ih => exact ih (mapRegion_wf h r)

theorem writeMapped_wf {m : Memory} (h : m.wf) (l : List (Word × Byte)) : (writeMapped m l).wf := by
  induction l generalizing m with
  | nil => exact h
  | cons e rest ih =>
    obtain ⟨a, b⟩ := e
    unfold writeMapped
    refine ih ?_
    split
    · rename_i hm; exact write_wf h hm b
    · exact h

@[simp] theorem map_writeMapped (m : Memory) (l : List (Word × Byte)) :
    (writeMapped m l).map = m.map := by
  induction l generalizing m with
  | nil => rfl
  | cons e rest ih => obtain ⟨a, b⟩ := e; unfold writeMapped; rw [ih]; split <;> rfl

theorem mapped_addRegions_of_mapped {m : Memory} {a : Nat} (h : m.mapped a = true)
    (rs : List Region) : (addRegions m rs).mapped a = true := by
  induction rs generalizing m with
  | nil => exact h
  | cons r rest ih => exact ih (by rw [mapped_mapRegion, h, Bool.true_or])

theorem loadBytes_wf {m : Memory} (h : m.wf) (addr : Word) (bytes : List Byte) :
    (loadBytes m addr bytes).wf := by
  induction bytes generalizing m addr with
  | nil => exact h
  | cons b rest ih =>
    refine ih (write_wf (mapRegion_wf h _) ?_ b) _
    rw [mapped_mapRegion]
    have : Region.contains ⟨addr.toNat, min (addr.toNat + 1) addressSpace⟩ addr.toNat = true := by
      have := addr.isLt
      simp [Region.contains, addressSpace]; omega
    simp [this]

/-- The memory of the reset state is in canonical form. -/
theorem reset_memory_wf : State.reset.mem.wf := by decide

end Sys2Proof.Laws
end

