-- ==== Sys2Proof/Laws/State.lean ====
section
/-! SUPPORT. One lemma per field per update of State, tagged simp, so that no proof unfolds a record
update; and what a register reads after each. -/
namespace Sys2Proof.Laws
open Sys2Proof.Machine

variable (s : State) (r q : Reg) (v hi lo t : Word) (d : DWord) (f : FaultRecord) (b : Bool)
  (o : Option Word) (l : List (Reg × Word))

/-! ### Registers -/

@[simp] theorem reg_zero : s.reg 0 = 0 := by simp [State.reg]

@[simp] theorem setReg_zero : s.setReg 0 v = s := by simp [State.setReg]

/-- A register after a write: x[0] is 0, the destination holds the value, the others are as before. -/
theorem reg_setReg : (s.setReg r v).reg q = if q = 0 then 0 else if q = r then v else s.reg q := by
  unfold State.setReg State.reg
  by_cases hq : q = 0
  · simp only [if_pos hq]
  by_cases hr : r = 0
  · have hqr : q ≠ r := fun h => hq (h.trans hr)
    simp only [if_neg hq, if_pos hr, if_neg hqr]
  simp only [if_neg hq, if_neg hr]
  by_cases hqr : q = r
  · subst hqr; simp
  · have : ¬ r.toNat = q.toNat := fun h => hqr (BitVec.eq_of_toNat_eq h.symm)
    simp [hqr, this]

theorem reg_setReg_self (h : r ≠ 0) : (s.setReg r v).reg r = v := by
  rw [reg_setReg, if_neg h, if_pos rfl]

theorem reg_setReg_of_ne (h : q ≠ r) : (s.setReg r v).reg q = s.reg q := by
  by_cases hq : q = 0
  · subst hq; rw [reg_zero, reg_zero]
  · rw [reg_setReg, if_neg hq, if_neg h]

/-- The place of x[0] is never written. -/
theorem regs_zero_setReg : (s.setReg r v).regs[0] = s.regs[0] := by
  unfold State.setReg
  split
  · rfl
  · rename_i h
    have : ¬ r.toNat = 0 := fun h' => h (BitVec.eq_of_toNat_eq (by simpa using h'))
    simp [this]


/-! ### setReg -/

@[simp] theorem pc_setReg : (s.setReg r v).pc = s.pc := by unfold State.setReg; split <;> rfl
@[simp] theorem nextPc_setReg : (s.setReg r v).nextPc = s.nextPc := by unfold State.setReg; split <;> rfl
@[simp] theorem hi_setReg : (s.setReg r v).hi = s.hi := by unfold State.setReg; split <;> rfl
@[simp] theorem lo_setReg : (s.setReg r v).lo = s.lo := by unfold State.setReg; split <;> rfl
@[simp] theorem mem_setReg : (s.setReg r v).mem = s.mem := by unfold State.setReg; split <;> rfl
@[simp] theorem status_setReg : (s.setReg r v).status = s.status := by unfold State.setReg; split <;> rfl
@[simp] theorem faultRecord_setReg : (s.setReg r v).faultRecord = s.faultRecord := by unfold State.setReg; split <;> rfl
@[simp] theorem stepIndex_setReg : (s.setReg r v).stepIndex = s.stepIndex := by unfold State.setReg; split <;> rfl
@[simp] theorem params_setReg : (s.setReg r v).params = s.params := by unfold State.setReg; split <;> rfl
@[simp] theorem shimState_setReg : (s.setReg r v).shimState = s.shimState := by unfold State.setReg; split <;> rfl

/-! ### setHiLo and setAcc -/

@[simp] theorem reg_setHiLo : (s.setHiLo hi lo).reg q = s.reg q := rfl
@[simp] theorem regs_setHiLo : (s.setHiLo hi lo).regs = s.regs := rfl
@[simp] theorem pc_setHiLo : (s.setHiLo hi lo).pc = s.pc := rfl
@[simp] theorem nextPc_setHiLo : (s.setHiLo hi lo).nextPc = s.nextPc := rfl
@[simp] theorem hi_setHiLo : (s.setHiLo hi lo).hi = hi := rfl
@[simp] theorem lo_setHiLo : (s.setHiLo hi lo).lo = lo := rfl
@[simp] theorem mem_setHiLo : (s.setHiLo hi lo).mem = s.mem := rfl
@[simp] theorem status_setHiLo : (s.setHiLo hi lo).status = s.status := rfl
@[simp] theorem faultRecord_setHiLo : (s.setHiLo hi lo).faultRecord = s.faultRecord := rfl
@[simp] theorem stepIndex_setHiLo : (s.setHiLo hi lo).stepIndex = s.stepIndex := rfl
@[simp] theorem params_setHiLo : (s.setHiLo hi lo).params = s.params := rfl
@[simp] theorem shimState_setHiLo : (s.setHiLo hi lo).shimState = s.shimState := rfl
@[simp] theorem reg_setAcc : (s.setAcc d).reg q = s.reg q := rfl
@[simp] theorem regs_setAcc : (s.setAcc d).regs = s.regs := rfl
@[simp] theorem pc_setAcc : (s.setAcc d).pc = s.pc := rfl
@[simp] theorem nextPc_setAcc : (s.setAcc d).nextPc = s.nextPc := rfl
@[simp] theorem hi_setAcc : (s.setAcc d).hi = d.extractLsb' 32 32 := rfl
@[simp] theorem lo_setAcc : (s.setAcc d).lo = d.extractLsb' 0 32 := rfl
@[simp] theorem mem_setAcc : (s.setAcc d).mem = s.mem := rfl
@[simp] theorem status_setAcc : (s.setAcc d).status = s.status := rfl
@[simp] theorem faultRecord_setAcc : (s.setAcc d).faultRecord = s.faultRecord := rfl
@[simp] theorem stepIndex_setAcc : (s.setAcc d).stepIndex = s.stepIndex := rfl
@[simp] theorem params_setAcc : (s.setAcc d).params = s.params := rfl
@[simp] theorem shimState_setAcc : (s.setAcc d).shimState = s.shimState := rfl

/-! ### advance -/

@[simp] theorem reg_advance : s.advance.reg q = s.reg q := rfl
@[simp] theorem regs_advance : s.advance.regs = s.regs := rfl
@[simp] theorem pc_advance : s.advance.pc = s.nextPc := rfl
@[simp] theorem nextPc_advance : s.advance.nextPc = s.nextPc + 4 := rfl
@[simp] theorem hi_advance : s.advance.hi = s.hi := rfl
@[simp] theorem lo_advance : s.advance.lo = s.lo := rfl
@[simp] theorem mem_advance : s.advance.mem = s.mem := rfl
@[simp] theorem status_advance : s.advance.status = s.status := rfl
@[simp] theorem faultRecord_advance : s.advance.faultRecord = s.faultRecord := rfl
@[simp] theorem stepIndex_advance : s.advance.stepIndex = s.stepIndex := rfl
@[simp] theorem params_advance : s.advance.params = s.params := rfl
@[simp] theorem shimState_advance : s.advance.shimState = s.shimState := rfl

/-! ### branchTo -/

@[simp] theorem reg_branchTo : (s.branchTo t).reg q = s.reg q := rfl
@[simp] theorem regs_branchTo : (s.branchTo t).regs = s.regs := rfl
@[simp] theorem pc_branchTo : (s.branchTo t).pc = s.nextPc := rfl
@[simp] theorem nextPc_branchTo : (s.branchTo t).nextPc = t := rfl
@[simp] theorem hi_branchTo : (s.branchTo t).hi = s.hi := rfl
@[simp] theorem lo_branchTo : (s.branchTo t).lo = s.lo := rfl
@[simp] theorem mem_branchTo : (s.branchTo t).mem = s.mem := rfl
@[simp] theorem status_branchTo : (s.branchTo t).status = s.status := rfl
@[simp] theorem faultRecord_branchTo : (s.branchTo t).faultRecord = s.faultRecord := rfl
@[simp] theorem stepIndex_branchTo : (s.branchTo t).stepIndex = s.stepIndex := rfl
@[simp] theorem params_branchTo : (s.branchTo t).params = s.params := rfl
@[simp] theorem shimState_branchTo : (s.branchTo t).shimState = s.shimState := rfl

/-! ### branchIf -/

@[simp] theorem reg_branchIf : (s.branchIf b t).reg q = s.reg q := by cases b <;> rfl
@[simp] theorem regs_branchIf : (s.branchIf b t).regs = s.regs := by cases b <;> rfl
@[simp] theorem pc_branchIf : (s.branchIf b t).pc = s.nextPc := by cases b <;> rfl
@[simp] theorem nextPc_branchIf : (s.branchIf b t).nextPc = if b then t else s.nextPc + 4 := by cases b <;> rfl
@[simp] theorem hi_branchIf : (s.branchIf b t).hi = s.hi := by cases b <;> rfl
@[simp] theorem lo_branchIf : (s.branchIf b t).lo = s.lo := by cases b <;> rfl
@[simp] theorem mem_branchIf : (s.branchIf b t).mem = s.mem := by cases b <;> rfl
@[simp] theorem status_branchIf : (s.branchIf b t).status = s.status := by cases b <;> rfl
@[simp] theorem faultRecord_branchIf : (s.branchIf b t).faultRecord = s.faultRecord := by cases b <;> rfl
@[simp] theorem stepIndex_branchIf : (s.branchIf b t).stepIndex = s.stepIndex := by cases b <;> rfl
@[simp] theorem params_branchIf : (s.branchIf b t).params = s.params := by cases b <;> rfl
@[simp] theorem shimState_branchIf : (s.branchIf b t).shimState = s.shimState := by cases b <;> rfl

/-! ### takeFault -/

@[simp] theorem reg_takeFault : (s.takeFault f).reg q = s.reg q := rfl
@[simp] theorem regs_takeFault : (s.takeFault f).regs = s.regs := rfl
@[simp] theorem pc_takeFault : (s.takeFault f).pc = s.pc := rfl
@[simp] theorem nextPc_takeFault : (s.takeFault f).nextPc = s.nextPc := rfl
@[simp] theorem hi_takeFault : (s.takeFault f).hi = s.hi := rfl
@[simp] theorem lo_takeFault : (s.takeFault f).lo = s.lo := rfl
@[simp] theorem mem_takeFault : (s.takeFault f).mem = s.mem := rfl
@[simp] theorem status_takeFault : (s.takeFault f).status = .faulted := rfl
@[simp] theorem faultRecord_takeFault : (s.takeFault f).faultRecord = some f := rfl
@[simp] theorem stepIndex_takeFault : (s.takeFault f).stepIndex = s.stepIndex := rfl
@[simp] theorem params_takeFault : (s.takeFault f).params = s.params := rfl
@[simp] theorem shimState_takeFault : (s.takeFault f).shimState = s.shimState := rfl

/-! ### overridePc -/

@[simp] theorem reg_overridePc : (s.overridePc o).reg q = s.reg q := by cases o <;> rfl
@[simp] theorem regs_overridePc : (s.overridePc o).regs = s.regs := by cases o <;> rfl
@[simp] theorem hi_overridePc : (s.overridePc o).hi = s.hi := by cases o <;> rfl
@[simp] theorem lo_overridePc : (s.overridePc o).lo = s.lo := by cases o <;> rfl
@[simp] theorem mem_overridePc : (s.overridePc o).mem = s.mem := by cases o <;> rfl
@[simp] theorem status_overridePc : (s.overridePc o).status = s.status := by cases o <;> rfl
@[simp] theorem faultRecord_overridePc : (s.overridePc o).faultRecord = s.faultRecord := by cases o <;> rfl
@[simp] theorem stepIndex_overridePc : (s.overridePc o).stepIndex = s.stepIndex := by cases o <;> rfl
@[simp] theorem params_overridePc : (s.overridePc o).params = s.params := by cases o <;> rfl
@[simp] theorem shimState_overridePc : (s.overridePc o).shimState = s.shimState := by cases o <;> rfl

/-! ### writeRegs -/

@[simp] theorem pc_writeRegs : (writeRegs s l).pc = s.pc := by
  induction l generalizing s with
  | nil => rfl
  | cons e rest ih => obtain ⟨a, w⟩ := e; unfold writeRegs; rw [ih]; simp
@[simp] theorem nextPc_writeRegs : (writeRegs s l).nextPc = s.nextPc := by
  induction l generalizing s with
  | nil => rfl
  | cons e rest ih => obtain ⟨a, w⟩ := e; unfold writeRegs; rw [ih]; simp
@[simp] theorem hi_writeRegs : (writeRegs s l).hi = s.hi := by
  induction l generalizing s with
  | nil => rfl
  | cons e rest ih => obtain ⟨a, w⟩ := e; unfold writeRegs; rw [ih]; simp
@[simp] theorem lo_writeRegs : (writeRegs s l).lo = s.lo := by
  induction l generalizing s with
  | nil => rfl
  | cons e rest ih => obtain ⟨a, w⟩ := e; unfold writeRegs; rw [ih]; simp
@[simp] theorem mem_writeRegs : (writeRegs s l).mem = s.mem := by
  induction l generalizing s with
  | nil => rfl
  | cons e rest ih => obtain ⟨a, w⟩ := e; unfold writeRegs; rw [ih]; simp
@[simp] theorem status_writeRegs : (writeRegs s l).status = s.status := by
  induction l generalizing s with
  | nil => rfl
  | cons e rest ih => obtain ⟨a, w⟩ := e; unfold writeRegs; rw [ih]; simp
@[simp] theorem faultRecord_writeRegs : (writeRegs s l).faultRecord = s.faultRecord := by
  induction l generalizing s with
  | nil => rfl
  | cons e rest ih => obtain ⟨a, w⟩ := e; unfold writeRegs; rw [ih]; simp
@[simp] theorem stepIndex_writeRegs : (writeRegs s l).stepIndex = s.stepIndex := by
  induction l generalizing s with
  | nil => rfl
  | cons e rest ih => obtain ⟨a, w⟩ := e; unfold writeRegs; rw [ih]; simp
@[simp] theorem params_writeRegs : (writeRegs s l).params = s.params := by
  induction l generalizing s with
  | nil => rfl
  | cons e rest ih => obtain ⟨a, w⟩ := e; unfold writeRegs; rw [ih]; simp
@[simp] theorem shimState_writeRegs : (writeRegs s l).shimState = s.shimState := by
  induction l generalizing s with
  | nil => rfl
  | cons e rest ih => obtain ⟨a, w⟩ := e; unfold writeRegs; rw [ih]; simp
@[simp] theorem regs_zero_writeRegs : (writeRegs s l).regs[0] = s.regs[0] := by
  induction l generalizing s with
  | nil => rfl
  | cons e rest ih => obtain ⟨a, w⟩ := e; unfold writeRegs; rw [ih, regs_zero_setReg]

/-! ### applyResume -/

@[simp] theorem hi_applyResume (a : Resume) : (s.applyResume a).hi = s.hi := by
  simp [State.applyResume]
@[simp] theorem lo_applyResume (a : Resume) : (s.applyResume a).lo = s.lo := by
  simp [State.applyResume]
@[simp] theorem status_applyResume (a : Resume) : (s.applyResume a).status = s.status := by
  simp [State.applyResume]
@[simp] theorem faultRecord_applyResume (a : Resume) : (s.applyResume a).faultRecord = s.faultRecord := by
  simp [State.applyResume]
@[simp] theorem stepIndex_applyResume (a : Resume) : (s.applyResume a).stepIndex = s.stepIndex := by
  simp [State.applyResume]
@[simp] theorem params_applyResume (a : Resume) : (s.applyResume a).params = s.params := by
  simp [State.applyResume]
@[simp] theorem shimState_applyResume (a : Resume) : (s.applyResume a).shimState = s.shimState := by
  simp [State.applyResume]
@[simp] theorem mem_applyResume (a : Resume) :
    (s.applyResume a).mem = writeMapped (addRegions s.mem a.mapAdd) a.mem := by
  simp [State.applyResume]

end Sys2Proof.Laws
end

