-- ==== Sys2Proof/Laws/Ops.lean ====
section
/-! SUPPORT. One lemma for each shared operation, saying everything it can do; and the laws of accesses
of several bytes. -/
namespace Sys2Proof.Laws
open Sys2Proof.Machine

/-! ### Addresses of an access -/

@[simp] theorem accessAddr_zero (addr : Word) : accessAddr addr 0 = addr.toNat := by
  simp [accessAddr]

theorem accessAddr_succ (addr : Word) (k : Nat) :
    accessAddr (addr + 1) k = accessAddr addr (k + 1) := by
  unfold accessAddr; congr 1; bv_omega

/-- The addresses of an access are pairwise different. -/
theorem accessAddr_inj {addr : Word} {j k : Nat} (hj : j < 4294967296) (hk : k < 4294967296)
    (h : accessAddr addr j = accessAddr addr k) : j = k := by
  unfold accessAddr at h; bv_omega

/-! ### The checks of an access -/

theorem alignFault_eq_true (s : State) (addr : Word) (n : Nat) :
    s.alignFault addr n = true ↔ ¬ AlignedFor s addr n := by
  unfold State.alignFault misaligned AlignedFor
  simp only [Bool.and_eq_true, Bool.or_eq_true, decide_eq_true_eq]
  constructor
  · rintro ⟨hs, ⟨hn, ha⟩ | ⟨hn, ha⟩⟩ h
    · exact ha ((h hs).1 hn)
    · exact ha ((h hs).2 hn)
  · intro h
    by_cases hs : s.params.alignPolicy = .strict
    · refine ⟨hs, ?_⟩
      by_contra hc
      refine h fun _ => ⟨fun hn => ?_, fun hn => ?_⟩ <;> by_contra ha <;> tauto
    · exact absurd (fun h' => absurd h' hs) h

theorem alignFault_eq_false (s : State) (addr : Word) (n : Nat) :
    s.alignFault addr n = false ↔ AlignedFor s addr n := by
  rw [← Bool.not_eq_true, alignFault_eq_true, not_not]

/-- Accesses of a length that no policy constrains are aligned. -/
theorem alignedFor_of_ne (s : State) (addr : Word) {n : Nat} (h2 : n ≠ 2) (h4 : n ≠ 4) :
    AlignedFor s addr n := fun _ => ⟨fun h => absurd h h2, fun h => absurd h h4⟩

theorem allMapped_iff (m : Memory) (addr : Word) (n : Nat) :
    m.allMapped addr n = true ↔ ∀ k, k < n → m.mapped (accessAddr addr k) = true := by
  induction n generalizing addr with
  | zero => simp [Memory.allMapped]
  | succ n ih =>
    simp only [Memory.allMapped, Bool.and_eq_true, ih, accessAddr_succ]
    constructor
    · rintro ⟨h0, h⟩ k hk
      cases k with
      | zero => simpa using h0
      | succ k => exact h k (by omega)
    · intro h
      exact ⟨by simpa using h 0 (by omega), fun k hk => h (k + 1) (by omega)⟩

theorem allMapped_eq_mappedFor (s : State) (addr : Word) (n : Nat) :
    s.mem.allMapped addr n = true ↔ MappedFor s addr n := allMapped_iff _ _ _

/-! ### Reading and writing several bytes -/

/-- One more byte below the bytes already read (R35). -/
def joinByte (acc : Word) (b : Byte) : Word := (acc <<< 8) ||| b.setWidth 32

theorem readBE_of_bytes (m : Memory) (bytes : List Byte) (addr acc : Word)
    (h : ∀ k (hk : k < bytes.length), m.read (accessAddr addr k) = some bytes[k]) :
    m.readBE addr bytes.length acc = some (bytes.foldl joinByte acc) := by
  induction bytes generalizing addr acc with
  | nil => rfl
  | cons b rest ih =>
    have h0 := h 0 (by simp)
    simp only [accessAddr_zero, List.getElem_cons_zero] at h0
    simp only [List.length_cons, Memory.readBE, h0, List.foldl_cons]
    exact ih _ _ fun k hk => by
      have := h (k + 1) (by simpa using hk)
      rw [accessAddr_succ, this]; simp

/-- The bytes of a mapped access. -/
theorem bytes_of_allMapped {m : Memory} {addr : Word} {n : Nat} (h : m.allMapped addr n = true) :
    ∃ bytes : List Byte, bytes.length = n ∧
      ∀ k (hk : k < bytes.length), m.read (accessAddr addr k) = some bytes[k] := by
  rw [allMapped_iff] at h
  refine ⟨List.ofFn fun k : Fin n => (m.read (accessAddr addr k)).getD 0, by simp, fun k hk => ?_⟩
  have hk' : k < n := by simpa using hk
  have hm := h k hk'
  rw [← read_isSome] at hm
  simp only [List.getElem_ofFn]
  cases hr : m.read (accessAddr addr k) with
  | none => rw [hr] at hm; simp at hm
  | some b => rfl

theorem readBE_eq_none (m : Memory) (addr : Word) (n : Nat) (acc : Word) :
    m.readBE addr n acc = none ↔ m.allMapped addr n = false := by
  induction n generalizing addr acc with
  | zero => simp [Memory.readBE, Memory.allMapped]
  | succ n ih =>
    unfold Memory.readBE Memory.allMapped
    cases hr : m.read addr.toNat with
    | none => simp [(read_eq_none _ _).1 hr]
    | some b =>
      have : m.mapped addr.toNat = true := by rw [← read_isSome, hr]; rfl
      simp [this, ih]

theorem joinByte_toNat {acc : Word} {b : Byte} (h : acc.toNat < 2 ^ 24) :
    (joinByte acc b).toNat = acc.toNat * 256 + b.toNat := by
  unfold joinByte
  rw [BitVec.toNat_or, BitVec.toNat_shiftLeft, BitVec.toNat_setWidth, Nat.shiftLeft_eq]
  have hb := b.isLt
  rw [Nat.mod_eq_of_lt (by omega), Nat.mod_eq_of_lt (by omega)]
  have := Nat.two_pow_add_eq_or_of_lt (i := 8) hb acc.toNat
  rw [Nat.mul_comm acc.toNat 256]
  rw [show (256 : Nat) = 2 ^ 8 from rfl, this, Nat.mul_comm]

/-- At most four bytes read are the digits of the value, the first the most significant. -/
theorem foldl_joinByte_toNat (bytes : List Byte) (acc : Word) (j : Nat)
    (hj : j + bytes.length ≤ 4) (hacc : acc.toNat < 256 ^ j) :
    (bytes.foldl joinByte acc).toNat = bytes.foldl (fun acc b => acc * 256 + b.toNat) acc.toNat := by
  induction bytes generalizing acc j with
  | nil => rfl
  | cons b rest ih =>
    simp only [List.length_cons] at hj
    have h24 : acc.toNat < 2 ^ 24 :=
      Nat.lt_of_lt_of_le hacc
        (Nat.le_trans (Nat.pow_le_pow_right (by omega) (show j ≤ 3 by omega)) (by decide))
    have hb := b.isLt
    simp only [List.foldl_cons]
    rw [ih (joinByte acc b) (j + 1) (by omega), joinByte_toNat h24]
    rw [joinByte_toNat h24, Nat.pow_succ]; omega

theorem read_writeBE_other (m : Memory) (addr : Word) (n : Nat) (v : Word) (a : Nat)
    (h : ∀ k, k < n → a ≠ accessAddr addr k) : (m.writeBE addr n v).read a = m.read a := by
  induction n generalizing m addr with
  | zero => rfl
  | succ n ih =>
    unfold Memory.writeBE
    rw [ih _ _ fun k hk => by rw [accessAddr_succ]; exact h (k + 1) (by omega), read_write]
    have := h 0 (by omega)
    simp only [accessAddr_zero] at this
    simp [this]

theorem read_writeBE_stored (m : Memory) (addr : Word) (n : Nat) (v : Word) (hn : n ≤ 4)
    (hm : m.allMapped addr n = true) (k : Nat) (hk : k < n) :
    (m.writeBE addr n v).read (accessAddr addr k) =
      some ((v >>> (8 * (n - 1 - k))).setWidth 8) := by
  induction n generalizing m addr k with
  | zero => omega
  | succ n ih =>
    unfold Memory.writeBE
    simp only [Memory.allMapped, Bool.and_eq_true] at hm
    cases k with
    | zero =>
      rw [read_writeBE_other, read_write]
      · simp [hm.1]
      · intro j hj h
        rw [accessAddr_succ] at h
        have := accessAddr_inj (by omega) (by omega) h
        omega
    | succ k =>
      rw [← accessAddr_succ, ih _ _ (by omega) _ k (by omega)]
      · congr 4; omega
      · rw [allMapped_of_map_eq (map_write _ _ _)]; exact hm.2

/-- Writing `n` mapped bytes stores them and nothing else. -/
theorem storedBytes_writeBE (s t : State) (addr : Word) (n : Nat) (v : Word) (hn : n ≤ 4)
    (hm : s.mem.allMapped addr n = true) (ht : t.mem = s.mem.writeBE addr n v) :
    StoredBytes s t addr n v :=
  ⟨fun k hk => by rw [ht]; exact read_writeBE_stored _ _ _ _ hn hm k hk,
   fun a h => by rw [ht]; exact read_writeBE_other _ _ _ _ _ h⟩

/-! ### What the shared operations of the meanings can do -/

variable (s : State)

theorem raise_eq (r : FaultRecord) : raise r s = .next (faultedWith s r) := rfl

theorem reg_eq_regsWith (rd : Reg) (v : Word) (r : Reg) :
    (s.setReg rd v).reg r = s.regsWith rd v r := reg_setReg s rd r v

/-- `x[rd] <- v` and the sequential advance, and nothing else. -/
theorem writeReg_spec (rd : Reg) (v : Word) :
    ∃ t, writeReg rd v s = .next t ∧ WritesReg s t rd v :=
  ⟨_, rfl, ⟨fun r => by simp [reg_eq_regsWith], by simp, by simp, by simp, by simp, by simp, by simp,
    by simp, by simp, by simp⟩, fun a => by simp⟩

/-- The sequential advance, and nothing else. -/
theorem advance_spec : OnlyAdvances s s.advance :=
  ⟨⟨fun _ => rfl, rfl, rfl, rfl, rfl, rfl, rfl, rfl, rfl, rfl⟩, fun _ => rfl⟩

/-- `HI <- hi; LO <- lo` and the sequential advance, and nothing else. -/
theorem writeHiLo_spec (hi lo : Word) :
    ∃ t, writeHiLo hi lo s = .next t ∧ WritesHiLo s t hi lo :=
  ⟨_, rfl, ⟨fun _ => rfl, rfl, rfl, rfl, rfl, rfl, rfl, rfl, rfl, rfl⟩, fun _ => rfl⟩

/-- `HI ‖ LO <- v` and the sequential advance, and nothing else. -/
theorem writeAcc_spec (v : DWord) :
    ∃ t hi lo, writeAcc v s = .next t ∧ WritesHiLo s t hi lo ∧ (hi ++ lo : DWord) = v :=
  ⟨_, v.extractLsb' 32 32, v.extractLsb' 0 32, rfl,
    ⟨⟨fun _ => rfl, rfl, rfl, rfl, rfl, rfl, rfl, rfl, rfl, rfl⟩, fun _ => rfl⟩, by
      apply BitVec.eq_of_getLsbD_eq; intro i hi
      simp only [BitVec.getLsbD_append, BitVec.getLsbD_extractLsb']
      by_cases h : i < 32
      · simp [h]
      · have : i - 32 < 32 := by omega
        simp [h, this]; congr 1; omega⟩

/-- `branch_to(t)`, and nothing else. -/
theorem branchTo_spec (t : Word) : Transfers s (s.branchTo t) t :=
  ⟨⟨fun _ => rfl, rfl, rfl, rfl, rfl, rfl, rfl, rfl, rfl, rfl⟩, fun _ => rfl⟩

/-- A branch goes to its target or advances, and does nothing else. -/
theorem branchWhen_spec (taken : Bool) (offset : BitVec 16) :
    ∃ t, branchWhen taken offset s = .next t ∧
      Transfers s t (if taken then branchTarget s.pc offset else s.nextPc + 4) :=
  ⟨_, rfl, ⟨fun r => by simp, by simp, by simp, by simp, by simp, by simp, by simp, by simp, by simp,
    by simp⟩, fun a => by simp⟩

/-- The and-link form writes the link whether or not it is taken. -/
theorem branchLinkWhen_spec (taken : Bool) (offset : BitVec 16) :
    ∃ t, branchLinkWhen taken offset s = .next t ∧
      Links s t 31 (if taken then branchTarget s.pc offset else s.nextPc + 4) :=
  ⟨_, rfl, ⟨fun r => by rw [reg_branchIf, reg_eq_regsWith]; rfl, by simp, by simp, by simp, by simp,
    by simp, by simp, by simp, by simp, by simp⟩, fun a => by simp⟩

/-- A jump that links. -/
theorem linkTo_spec (rd : Reg) (t : Word) :
    Links s ((s.setReg rd (linkValue s.pc)).branchTo t) rd t :=
  ⟨⟨fun r => by rw [reg_branchTo, reg_eq_regsWith]; rfl, by simp, by simp, by simp, by simp, by simp,
    by simp, by simp, by simp, by simp⟩, fun a => by simp⟩

/-- A load whose access is forbidden or not mapped takes the fault; else it writes `f` of what it
read to `x[rt]`. -/
theorem loadReg_spec (rt : Reg) (ea addr : Word) (n : Nat) (f : Word → Word) :
    (¬ AlignedFor s addr n →
      loadReg rt ea addr n f s = .next (faultedWith s (.addressError s.pc ea .read))) ∧
    (AlignedFor s addr n → ¬ MappedFor s addr n →
      loadReg rt ea addr n f s = .next (faultedWith s (.unmappedAccess s.pc ea .read))) ∧
    (AlignedFor s addr n → MappedFor s addr n → ∃ v, s.mem.readBE addr n 0 = some v ∧
      loadReg rt ea addr n f s = writeReg rt (f v) s) := by
  unfold loadReg State.memRead
  refine ⟨fun h => ?_, fun h hm => ?_, fun h hm => ?_⟩
  · rw [if_pos ((alignFault_eq_true _ _ _).2 h)]; rfl
  · rw [← alignFault_eq_false] at h
    rw [← allMapped_eq_mappedFor, Bool.not_eq_true, ← readBE_eq_none _ _ _ 0] at hm
    rw [h, hm]; rfl
  · rw [← alignFault_eq_false] at h
    rw [← allMapped_eq_mappedFor] at hm
    cases hr : s.mem.readBE addr n 0 with
    | none => rw [readBE_eq_none] at hr; simp [hr] at hm
    | some v => exact ⟨v, rfl, by simp [h]⟩

/-- A store whose access is forbidden or not mapped takes the fault; else it stores the bytes, writes
what `after` writes, and advances. -/
theorem storeMem_spec (ea addr : Word) (n : Nat) (v : Word) (after : State → State) :
    (¬ AlignedFor s addr n →
      storeMem ea addr n v after s = .next (faultedWith s (.addressError s.pc ea .write))) ∧
    (AlignedFor s addr n → ¬ MappedFor s addr n →
      storeMem ea addr n v after s = .next (faultedWith s (.unmappedAccess s.pc ea .write))) ∧
    (AlignedFor s addr n → MappedFor s addr n → storeMem ea addr n v after s =
      .next (after { s with mem := s.mem.writeBE addr n v }).advance) := by
  unfold storeMem State.memWrite
  refine ⟨fun h => ?_, fun h hm => ?_, fun h hm => ?_⟩
  · rw [if_pos ((alignFault_eq_true _ _ _).2 h)]; rfl
  · rw [← alignFault_eq_false] at h
    rw [← allMapped_eq_mappedFor, Bool.not_eq_true] at hm
    rw [h, hm]; rfl
  · rw [← alignFault_eq_false] at h
    rw [← allMapped_eq_mappedFor] at hm
    rw [h, hm]; rfl

/-- The plain store: the bytes, and nothing else. -/
theorem storeMem_stores (ea addr : Word) (n : Nat) (v : Word) (hn : n ≤ 4)
    (ha : AlignedFor s addr n) (hm : MappedFor s addr n) :
    ∃ t, storeMem ea addr n v id s = .next t ∧ Stores s t addr n v :=
  ⟨_, (storeMem_spec s ea addr n v id).2.2 ha hm,
    ⟨fun _ => rfl, rfl, rfl, rfl, rfl, rfl, rfl, rfl, rfl, rfl⟩,
    storedBytes_writeBE _ _ _ _ _ hn ((allMapped_eq_mappedFor _ _ _).2 hm) rfl⟩

/-! ### Operands -/

theorem effectiveAddr_eq (base : Word) (offset : BitVec 16) :
    effectiveAddr base offset = base + offset.signExtend 32 := rfl

theorem lowTwo_eq (ea : Word) : lowTwo ea = ea.toNat % 4 := by simp [lowTwo]

theorem alignedDown_eq (ea : Word) :
    ea &&& 0xFFFFFFFC#32 = ea - BitVec.ofNat 32 (ea.toNat % 4) := by
  have h3 : ea &&& 0x00000003#32 = BitVec.ofNat 32 (ea.toNat % 4) := by
    apply BitVec.eq_of_toNat_eq
    rw [BitVec.toNat_and, BitVec.toNat_ofNat]
    have := Nat.and_two_pow_sub_one_eq_mod ea.toNat 2
    simp at this
    simp [this]; omega
  have hz : (ea &&& 0xFFFFFFFC#32) &&& (ea &&& 0x00000003#32) = 0#32 := by
    rw [show (ea &&& 0xFFFFFFFC#32) &&& (ea &&& 0x00000003#32) =
        (ea &&& ea) &&& (0xFFFFFFFC#32 &&& 0x00000003#32) by ac_rfl,
      show (0xFFFFFFFC#32 &&& 0x00000003#32) = 0#32 by decide, BitVec.and_zero]
  have h := BitVec.add_eq_or_of_and_eq_zero _ _ hz
  have ho : (ea &&& 0xFFFFFFFC#32) ||| (ea &&& 0x00000003#32) = ea := by
    rw [← BitVec.and_or_distrib_left,
      show (0xFFFFFFFC#32 ||| 0x00000003#32) = BitVec.allOnes 32 by decide, BitVec.and_allOnes]
  rw [ho, h3] at h
  exact BitVec.eq_sub_iff_add_eq.2 h

end Sys2Proof.Laws
end

