-- ==== Sys2Proof/Laws/Exec.lean ====
section
/-! SUPPORT. Everything an executed instruction can do: take a fault, complete as an instruction that is
no trap, or apply a shim's answer. Statements over all instructions go through `exec_cases`. -/
namespace Sys2Proof.Laws
open Sys2Proof.Machine

/-- What an instruction that completes and is no SYSCALL leaves. -/
structure Plain (i : Instr) (s t : State) : Prop where
  notTrap : i.opClass ≠ .trap
  zero : t.regs[0] = s.regs[0]
  pc : t.pc = s.nextPc
  nextPc : i.opClass ≠ .branch → i.opClass ≠ .jump → t.nextPc = s.nextPc + 4
  status : t.status = s.status
  faultRecord : t.faultRecord = s.faultRecord
  stepIndex : t.stepIndex = s.stepIndex
  params : t.params = s.params
  hiLo : i.opClass ≠ .multiplyDivide → t.hi = s.hi ∧ t.lo = s.lo
  map : t.mem.map = s.mem.map
  wf : s.mem.wf → t.mem.wf
  mem : i.opClass ≠ .store → t.mem = s.mem

variable {i : Instr} (s : State)

/-- The three things an instruction can do. -/
def Does (i : Instr) (s : State) (a : Result) : Prop :=
  (∃ r, a = .next (faultedWith s r) ∧ r.pc = s.pc) ∨ (∃ t, a = .next t ∧ Plain i s t) ∨
  ∃ code r n, i = .syscall code ∧
    a = .next (State.applyResume { s.advance with shimState := n } r)

theorem does_raise (r : FaultRecord) (h : r.pc = s.pc) : Does i s (raise r s) :=
  .inl ⟨r, rfl, h⟩

theorem does_writeReg (rd : Reg) (v : Word) (h : i.opClass ≠ .trap) :
    Does i s (writeReg rd v s) :=
  .inr <| .inl ⟨_, rfl, h, by rw [regs_advance, regs_zero_setReg], by simp, by simp, by simp, by simp,
    by simp, by simp, by simp, by simp, by simp, by simp⟩

theorem does_advance (h : i.opClass ≠ .trap) : Does i s (.next s.advance) :=
  .inr <| .inl ⟨_, rfl, h, rfl, rfl, fun _ _ => rfl, rfl, rfl, rfl, rfl, fun _ => ⟨rfl, rfl⟩, rfl, id,
    fun _ => rfl⟩

theorem does_writeHiLo (hi lo : Word) (h : i.opClass = .multiplyDivide) :
    Does i s (writeHiLo hi lo s) :=
  .inr <| .inl ⟨_, rfl, by simp [h], rfl, rfl, fun _ _ => rfl, rfl, rfl, rfl, rfl, fun c => absurd h c,
    rfl, id, fun _ => rfl⟩

theorem does_writeAcc (v : DWord) (h : i.opClass = .multiplyDivide) : Does i s (writeAcc v s) :=
  does_writeHiLo s _ _ h

theorem does_branchWhen (b : Bool) (o : BitVec 16) (h : i.opClass = .branch) :
    Does i s (branchWhen b o s) :=
  .inr <| .inl ⟨_, rfl, by simp [h], by simp, by simp, fun c => absurd h c, by simp, by simp, by simp,
    by simp, by simp, by simp, by simp, by simp⟩

theorem does_branchLinkWhen (b : Bool) (o : BitVec 16) (h : i.opClass = .branch) :
    Does i s (branchLinkWhen b o s) :=
  .inr <| .inl ⟨_, rfl, by simp [h], by rw [regs_branchIf, regs_zero_setReg], by simp,
    fun c => absurd h c, by simp, by simp, by simp, by simp, by simp, by simp, by simp, by simp⟩

theorem does_branchTo (t : Word) (h : i.opClass = .jump) : Does i s (.next (s.branchTo t)) :=
  .inr <| .inl ⟨_, rfl, by simp [h], rfl, rfl, fun _ c => absurd h c, rfl, rfl, rfl, rfl,
    fun _ => ⟨rfl, rfl⟩, rfl, id, fun _ => rfl⟩

theorem does_linkTo (rd : Reg) (v t : Word) (h : i.opClass = .jump) :
    Does i s (.next ((s.setReg rd v).branchTo t)) :=
  .inr <| .inl ⟨_, rfl, by simp [h], by rw [regs_branchTo, regs_zero_setReg], by simp,
    fun _ c => absurd h c, by simp, by simp, by simp, by simp, by simp, by simp, by simp, by simp⟩

theorem does_writeExact (j : Instr) (rd : Reg) (z : Int) (h : i.opClass ≠ .trap) :
    Does i s (writeExact j rd z s) := by
  unfold writeExact
  split
  · exact does_raise s _ rfl
  · exact does_writeReg s _ _ h

theorem does_loadReg (rt : Reg) (ea addr : Word) (n : Nat) (f : Word → Word)
    (h : i.opClass ≠ .trap) : Does i s (loadReg rt ea addr n f s) := by
  obtain ⟨h1, h2, h3⟩ := loadReg_spec s rt ea addr n f
  by_cases ha : AlignedFor s addr n
  · by_cases hm : MappedFor s addr n
    · obtain ⟨v, -, h3⟩ := h3 ha hm
      rw [h3]; exact does_writeReg s _ _ h
    · rw [h2 ha hm]; exact does_raise s _ rfl
  · rw [h1 ha]; exact does_raise s _ rfl

theorem does_storeMem (ea addr : Word) (n : Nat) (v : Word) (after : State → State)
    (h : i.opClass = .store) (hafter : after = id ∨ ∃ r w, after = fun t => t.setReg r w) :
    Does i s (storeMem ea addr n v after s) := by
  obtain ⟨h1, h2, h3⟩ := storeMem_spec s ea addr n v after
  by_cases ha : AlignedFor s addr n
  · by_cases hm : MappedFor s addr n
    · rw [h3 ha hm]
      have hw := writeBE_wf (addr := addr) (n := n) (v := v) (m := s.mem)
      rw [← allMapped_eq_mappedFor] at hm
      obtain rfl | ⟨r, w, rfl⟩ := hafter
      · exact .inr <| .inl ⟨_, rfl, by simp [h], rfl, rfl, fun _ _ => rfl, rfl, rfl, rfl, rfl,
          fun _ => ⟨rfl, rfl⟩, by simp, fun c => hw c hm, fun c => absurd h c⟩
      · exact .inr <| .inl ⟨_, rfl, by simp [h], by rw [regs_advance, regs_zero_setReg], by simp,
          by simp, by simp, by simp, by simp, by simp, by simp, by simp,
          fun c => by simpa using hw c hm, fun c => absurd h c⟩
    · rw [h2 ha hm]; exact does_raise s _ rfl
  · rw [h1 ha]; exact does_raise s _ rfl

theorem does_syscall (code : BitVec 20) : Does (.syscall code) s (execSyscall code s) := by
  unfold execSyscall
  dsimp only
  generalize Config.shim _ _ = a
  obtain ⟨a, n⟩ := a
  cases a with
  | resume r => exact .inr <| .inr ⟨code, r, n, rfl, rfl⟩
  | fault kind detail => exact .inl ⟨_, rfl, rfl⟩

/-- What an executed instruction can do. -/
theorem exec_does (i : Instr) (s : State) : Does i s (exec i s) := by
  cases i
  case syscall code => exact does_syscall s code
  case sync => exact does_advance s (by rintro ⟨⟩)
  case movz =>
    simp only [exec]; unfold execMovz; split
    · exact does_writeReg s _ _ (by rintro ⟨⟩)
    · exact does_advance s (by rintro ⟨⟩)
  case movn =>
    simp only [exec]; unfold execMovn; split
    · exact does_writeReg s _ _ (by rintro ⟨⟩)
    · exact does_advance s (by rintro ⟨⟩)
  case div =>
    simp only [exec]; unfold execDiv divideByZero; dsimp only; split
    · exact does_writeHiLo s _ _ (by rfl)
    · split <;> exact does_writeHiLo s _ _ (by rfl)
  case divu =>
    simp only [exec]; unfold execDivu divideByZero; dsimp only
    split <;> exact does_writeHiLo s _ _ (by rfl)
  case sc => exact does_storeMem s _ _ _ _ _ (by rfl) (.inr ⟨_, _, rfl⟩)
  case add | sub | addi => exact does_writeExact s _ _ _ (by rintro ⟨⟩)
  case lb | lbu | lh | lhu | lw | lwl | lwr | ll =>
    exact does_loadReg s _ _ _ _ _ (by rintro ⟨⟩)
  case sb | sh | sw | swl | swr => exact does_storeMem s _ _ _ _ _ (by rfl) (.inl rfl)
  case beq | bne | blez | bgtz | bltz | bgez => exact does_branchWhen s _ _ (by rfl)
  case bltzal | bgezal => exact does_branchLinkWhen s _ _ (by rfl)
  case j | jr => exact does_branchTo s _ (by rfl)
  case jal | jalr => exact does_linkTo s _ _ _ (by rfl)
  case mult | multu | madd | maddu | msub | msubu => exact does_writeAcc s _ (by rfl)
  case mthi | mtlo => exact does_writeHiLo s _ _ (by rfl)
  all_goals exact does_writeReg s _ _ (by rintro ⟨⟩)

/-- The same of an instruction known to answer a next state. -/
theorem exec_cases {t : State} (h : exec i s = .next t) :
    (∃ r, t = faultedWith s r ∧ r.pc = s.pc) ∨ Plain i s t ∨
    ∃ code r n, i = .syscall code ∧
      t = State.applyResume { s.advance with shimState := n } r := by
  obtain ⟨r, h1, h2⟩ | ⟨u, h1, h2⟩ | ⟨code, r, n, h1, h2⟩ := exec_does i s
  · rw [h] at h1; cases h1; exact .inl ⟨r, rfl, h2⟩
  · rw [h] at h1; cases h1; exact .inr (.inl h2)
  · rw [h] at h2; cases h2; exact .inr (.inr ⟨code, r, n, h1, rfl⟩)

end Sys2Proof.Laws
end

