-- ==== Sys2Proof/Laws/PerInstr.lean ====
section
/-! SUPPORT. The family TableRow: the word of every instruction belongs to its row of the opcode table
(`spec/30_encoding.md` R56, R61), one lemma per constructor. -/
namespace Sys2Proof.Laws

/-- Some row of the opcode table has the instruction's mnemonic, and the instruction's word matches it. -/
def TableRow.Statement (i : Instr) : Prop :=
  ∃ row ∈ opcodeTable, row.mnemonic = i.mnemonic ∧ encode i &&& row.mask = row.value

/-- A word of the R format matches a row whose mask and value it meets field by field. -/
theorem encodeR_matches {op fn : BitVec 6} {rs rt rd : Reg} {sh : BitVec 5} {mask value : Word}
    (h : (op &&& fieldOpcode mask = fieldOpcode value ∧ rs &&& fieldRs mask = fieldRs value ∧
      rt &&& fieldRt mask = fieldRt value) ∧ rd &&& fieldRd mask = fieldRd value ∧
      sh &&& fieldShamt mask = fieldShamt value ∧ fn &&& fieldFunct mask = fieldFunct value) :
    encodeR op rs rt rd sh fn &&& mask = value := by
  obtain ⟨⟨h1, h2, h3⟩, h4, h5, h6⟩ := h
  apply word_ext_R <;>
    simp only [fieldOpcode_and, fieldRs_and, fieldRt_and, fieldRd_and, fieldShamt_and,
      fieldFunct_and, fieldOpcode_encodeR, fieldRs_encodeR, fieldRt_encodeR, fieldRd_encodeR,
      fieldShamt_encodeR, fieldFunct_encodeR, *]

/-- The same for the I format. -/
theorem encodeI_matches {op : BitVec 6} {rs rt : Reg} {imm : BitVec 16} {mask value : Word}
    (h : (op &&& fieldOpcode mask = fieldOpcode value ∧ rs &&& fieldRs mask = fieldRs value) ∧
      rt &&& fieldRt mask = fieldRt value ∧ imm &&& fieldImm mask = fieldImm value) :
    encodeI op rs rt imm &&& mask = value := by
  obtain ⟨⟨h1, h2⟩, h3, h4⟩ := h
  apply word_ext_I <;>
    simp only [fieldOpcode_and, fieldRs_and, fieldRt_and, fieldImm_and, fieldOpcode_encodeI,
      fieldRs_encodeI, fieldRt_encodeI, fieldImm_encodeI, *]

/-- The same for the J format. -/
theorem encodeJ_matches {op : BitVec 6} {ix : BitVec 26} {mask value : Word}
    (h : op &&& fieldOpcode mask = fieldOpcode value ∧ ix &&& fieldIndex mask = fieldIndex value) :
    encodeJ op ix &&& mask = value := by
  obtain ⟨h1, h2⟩ := h
  apply word_ext_J <;>
    simp only [fieldOpcode_and, fieldIndex_and, fieldOpcode_encodeJ, fieldIndex_encodeJ, *]

/-- The word of SYSCALL matches its row, whatever the code. -/
theorem encodeSyscall_matches (code : BitVec 20) :
    encodeSyscall code &&& 0xFC00003F#32 = 0x0000000C#32 := by
  apply word_ext_code <;>
    simp only [fieldOpcode_and, fieldCode_and, fieldFunct_and, fieldOpcode_encodeSyscall,
      fieldCode_encodeSyscall, fieldFunct_encodeSyscall]
  · decide
  · rw [show fieldCode 0xFC00003F#32 = 0#20 by decide, BitVec.and_zero]; decide
  · decide

theorem TableRow.add (rd rs rt : Reg) : TableRow.Statement (.add rd rs rt) :=
  ⟨⟨.add, 0xFC0007FF#32, 0x00000020#32⟩, by decide, rfl, encodeR_matches (by
    simp [fieldOpcode, fieldRs, fieldRt, fieldRd, fieldShamt, fieldFunct])⟩
theorem TableRow.addu (rd rs rt : Reg) : TableRow.Statement (.addu rd rs rt) :=
  ⟨⟨.addu, 0xFC0007FF#32, 0x00000021#32⟩, by decide, rfl, encodeR_matches (by
    simp [fieldOpcode, fieldRs, fieldRt, fieldRd, fieldShamt, fieldFunct])⟩
theorem TableRow.sub (rd rs rt : Reg) : TableRow.Statement (.sub rd rs rt) :=
  ⟨⟨.sub, 0xFC0007FF#32, 0x00000022#32⟩, by decide, rfl, encodeR_matches (by
    simp [fieldOpcode, fieldRs, fieldRt, fieldRd, fieldShamt, fieldFunct])⟩
theorem TableRow.subu (rd rs rt : Reg) : TableRow.Statement (.subu rd rs rt) :=
  ⟨⟨.subu, 0xFC0007FF#32, 0x00000023#32⟩, by decide, rfl, encodeR_matches (by
    simp [fieldOpcode, fieldRs, fieldRt, fieldRd, fieldShamt, fieldFunct])⟩
theorem TableRow.addi (rt rs : Reg) (imm : BitVec 16) : TableRow.Statement (.addi rt rs imm) :=
  ⟨⟨.addi, 0xFC000000#32, 0x20000000#32⟩, by decide, rfl, encodeI_matches (by
    simp [fieldOpcode, fieldRs, fieldRt, fieldImm])⟩
theorem TableRow.addiu (rt rs : Reg) (imm : BitVec 16) : TableRow.Statement (.addiu rt rs imm) :=
  ⟨⟨.addiu, 0xFC000000#32, 0x24000000#32⟩, by decide, rfl, encodeI_matches (by
    simp [fieldOpcode, fieldRs, fieldRt, fieldImm])⟩
theorem TableRow.slt (rd rs rt : Reg) : TableRow.Statement (.slt rd rs rt) :=
  ⟨⟨.slt, 0xFC0007FF#32, 0x0000002A#32⟩, by decide, rfl, encodeR_matches (by
    simp [fieldOpcode, fieldRs, fieldRt, fieldRd, fieldShamt, fieldFunct])⟩
theorem TableRow.sltu (rd rs rt : Reg) : TableRow.Statement (.sltu rd rs rt) :=
  ⟨⟨.sltu, 0xFC0007FF#32, 0x0000002B#32⟩, by decide, rfl, encodeR_matches (by
    simp [fieldOpcode, fieldRs, fieldRt, fieldRd, fieldShamt, fieldFunct])⟩
theorem TableRow.slti (rt rs : Reg) (imm : BitVec 16) : TableRow.Statement (.slti rt rs imm) :=
  ⟨⟨.slti, 0xFC000000#32, 0x28000000#32⟩, by decide, rfl, encodeI_matches (by
    simp [fieldOpcode, fieldRs, fieldRt, fieldImm])⟩
theorem TableRow.sltiu (rt rs : Reg) (imm : BitVec 16) : TableRow.Statement (.sltiu rt rs imm) :=
  ⟨⟨.sltiu, 0xFC000000#32, 0x2C000000#32⟩, by decide, rfl, encodeI_matches (by
    simp [fieldOpcode, fieldRs, fieldRt, fieldImm])⟩
theorem TableRow.movz (rd rs rt : Reg) : TableRow.Statement (.movz rd rs rt) :=
  ⟨⟨.movz, 0xFC0007FF#32, 0x0000000A#32⟩, by decide, rfl, encodeR_matches (by
    simp [fieldOpcode, fieldRs, fieldRt, fieldRd, fieldShamt, fieldFunct])⟩
theorem TableRow.movn (rd rs rt : Reg) : TableRow.Statement (.movn rd rs rt) :=
  ⟨⟨.movn, 0xFC0007FF#32, 0x0000000B#32⟩, by decide, rfl, encodeR_matches (by
    simp [fieldOpcode, fieldRs, fieldRt, fieldRd, fieldShamt, fieldFunct])⟩
theorem TableRow.and (rd rs rt : Reg) : TableRow.Statement (.and rd rs rt) :=
  ⟨⟨.and, 0xFC0007FF#32, 0x00000024#32⟩, by decide, rfl, encodeR_matches (by
    simp [fieldOpcode, fieldRs, fieldRt, fieldRd, fieldShamt, fieldFunct])⟩
theorem TableRow.or (rd rs rt : Reg) : TableRow.Statement (.or rd rs rt) :=
  ⟨⟨.or, 0xFC0007FF#32, 0x00000025#32⟩, by decide, rfl, encodeR_matches (by
    simp [fieldOpcode, fieldRs, fieldRt, fieldRd, fieldShamt, fieldFunct])⟩
theorem TableRow.xor (rd rs rt : Reg) : TableRow.Statement (.xor rd rs rt) :=
  ⟨⟨.xor, 0xFC0007FF#32, 0x00000026#32⟩, by decide, rfl, encodeR_matches (by
    simp [fieldOpcode, fieldRs, fieldRt, fieldRd, fieldShamt, fieldFunct])⟩
theorem TableRow.nor (rd rs rt : Reg) : TableRow.Statement (.nor rd rs rt) :=
  ⟨⟨.nor, 0xFC0007FF#32, 0x00000027#32⟩, by decide, rfl, encodeR_matches (by
    simp [fieldOpcode, fieldRs, fieldRt, fieldRd, fieldShamt, fieldFunct])⟩
theorem TableRow.andi (rt rs : Reg) (imm : BitVec 16) : TableRow.Statement (.andi rt rs imm) :=
  ⟨⟨.andi, 0xFC000000#32, 0x30000000#32⟩, by decide, rfl, encodeI_matches (by
    simp [fieldOpcode, fieldRs, fieldRt, fieldImm])⟩
theorem TableRow.ori (rt rs : Reg) (imm : BitVec 16) : TableRow.Statement (.ori rt rs imm) :=
  ⟨⟨.ori, 0xFC000000#32, 0x34000000#32⟩, by decide, rfl, encodeI_matches (by
    simp [fieldOpcode, fieldRs, fieldRt, fieldImm])⟩
theorem TableRow.xori (rt rs : Reg) (imm : BitVec 16) : TableRow.Statement (.xori rt rs imm) :=
  ⟨⟨.xori, 0xFC000000#32, 0x38000000#32⟩, by decide, rfl, encodeI_matches (by
    simp [fieldOpcode, fieldRs, fieldRt, fieldImm])⟩
theorem TableRow.lui (rt : Reg) (imm : BitVec 16) : TableRow.Statement (.lui rt imm) :=
  ⟨⟨.lui, 0xFFE00000#32, 0x3C000000#32⟩, by decide, rfl, encodeI_matches (by
    simp [fieldOpcode, fieldRs, fieldRt, fieldImm])⟩
theorem TableRow.clz (rd rs rt : Reg) : TableRow.Statement (.clz rd rs rt) :=
  ⟨⟨.clz, 0xFC0007FF#32, 0x70000020#32⟩, by decide, rfl, encodeR_matches (by
    simp [fieldOpcode, fieldRs, fieldRt, fieldRd, fieldShamt, fieldFunct])⟩
theorem TableRow.clo (rd rs rt : Reg) : TableRow.Statement (.clo rd rs rt) :=
  ⟨⟨.clo, 0xFC0007FF#32, 0x70000021#32⟩, by decide, rfl, encodeR_matches (by
    simp [fieldOpcode, fieldRs, fieldRt, fieldRd, fieldShamt, fieldFunct])⟩
theorem TableRow.sll (rd rt : Reg) (sa : BitVec 5) : TableRow.Statement (.sll rd rt sa) :=
  ⟨⟨.sll, 0xFFE0003F#32, 0x00000000#32⟩, by decide, rfl, encodeR_matches (by
    simp [fieldOpcode, fieldRs, fieldRt, fieldRd, fieldShamt, fieldFunct])⟩
theorem TableRow.srl (rd rt : Reg) (sa : BitVec 5) : TableRow.Statement (.srl rd rt sa) :=
  ⟨⟨.srl, 0xFFE0003F#32, 0x00000002#32⟩, by decide, rfl, encodeR_matches (by
    simp [fieldOpcode, fieldRs, fieldRt, fieldRd, fieldShamt, fieldFunct])⟩
theorem TableRow.sra (rd rt : Reg) (sa : BitVec 5) : TableRow.Statement (.sra rd rt sa) :=
  ⟨⟨.sra, 0xFFE0003F#32, 0x00000003#32⟩, by decide, rfl, encodeR_matches (by
    simp [fieldOpcode, fieldRs, fieldRt, fieldRd, fieldShamt, fieldFunct])⟩
theorem TableRow.sllv (rd rt rs : Reg) : TableRow.Statement (.sllv rd rt rs) :=
  ⟨⟨.sllv, 0xFC0007FF#32, 0x00000004#32⟩, by decide, rfl, encodeR_matches (by
    simp [fieldOpcode, fieldRs, fieldRt, fieldRd, fieldShamt, fieldFunct])⟩
theorem TableRow.srlv (rd rt rs : Reg) : TableRow.Statement (.srlv rd rt rs) :=
  ⟨⟨.srlv, 0xFC0007FF#32, 0x00000006#32⟩, by decide, rfl, encodeR_matches (by
    simp [fieldOpcode, fieldRs, fieldRt, fieldRd, fieldShamt, fieldFunct])⟩
theorem TableRow.srav (rd rt rs : Reg) : TableRow.Statement (.srav rd rt rs) :=
  ⟨⟨.srav, 0xFC0007FF#32, 0x00000007#32⟩, by decide, rfl, encodeR_matches (by
    simp [fieldOpcode, fieldRs, fieldRt, fieldRd, fieldShamt, fieldFunct])⟩
theorem TableRow.beq (rs rt : Reg) (offset : BitVec 16) : TableRow.Statement (.beq rs rt offset) :=
  ⟨⟨.beq, 0xFC000000#32, 0x10000000#32⟩, by decide, rfl, encodeI_matches (by
    simp [fieldOpcode, fieldRs, fieldRt, fieldImm])⟩
theorem TableRow.bne (rs rt : Reg) (offset : BitVec 16) : TableRow.Statement (.bne rs rt offset) :=
  ⟨⟨.bne, 0xFC000000#32, 0x14000000#32⟩, by decide, rfl, encodeI_matches (by
    simp [fieldOpcode, fieldRs, fieldRt, fieldImm])⟩
theorem TableRow.blez (rs : Reg) (offset : BitVec 16) : TableRow.Statement (.blez rs offset) :=
  ⟨⟨.blez, 0xFC1F0000#32, 0x18000000#32⟩, by decide, rfl, encodeI_matches (by
    simp [fieldOpcode, fieldRs, fieldRt, fieldImm])⟩
theorem TableRow.bgtz (rs : Reg) (offset : BitVec 16) : TableRow.Statement (.bgtz rs offset) :=
  ⟨⟨.bgtz, 0xFC1F0000#32, 0x1C000000#32⟩, by decide, rfl, encodeI_matches (by
    simp [fieldOpcode, fieldRs, fieldRt, fieldImm])⟩
theorem TableRow.bltz (rs : Reg) (offset : BitVec 16) : TableRow.Statement (.bltz rs offset) :=
  ⟨⟨.bltz, 0xFC1F0000#32, 0x04000000#32⟩, by decide, rfl, encodeI_matches (by
    simp [fieldOpcode, fieldRs, fieldRt, fieldImm])⟩
theorem TableRow.bgez (rs : Reg) (offset : BitVec 16) : TableRow.Statement (.bgez rs offset) :=
  ⟨⟨.bgez, 0xFC1F0000#32, 0x04010000#32⟩, by decide, rfl, encodeI_matches (by
    simp [fieldOpcode, fieldRs, fieldRt, fieldImm])⟩
theorem TableRow.bltzal (rs : Reg) (offset : BitVec 16) : TableRow.Statement (.bltzal rs offset) :=
  ⟨⟨.bltzal, 0xFC1F0000#32, 0x04100000#32⟩, by decide, rfl, encodeI_matches (by
    simp [fieldOpcode, fieldRs, fieldRt, fieldImm])⟩
theorem TableRow.bgezal (rs : Reg) (offset : BitVec 16) : TableRow.Statement (.bgezal rs offset) :=
  ⟨⟨.bgezal, 0xFC1F0000#32, 0x04110000#32⟩, by decide, rfl, encodeI_matches (by
    simp [fieldOpcode, fieldRs, fieldRt, fieldImm])⟩
theorem TableRow.j (index : BitVec 26) : TableRow.Statement (.j index) :=
  ⟨⟨.j, 0xFC000000#32, 0x08000000#32⟩, by decide, rfl, encodeJ_matches (by simp [fieldOpcode, fieldIndex])⟩
theorem TableRow.jal (index : BitVec 26) : TableRow.Statement (.jal index) :=
  ⟨⟨.jal, 0xFC000000#32, 0x0C000000#32⟩, by decide, rfl, encodeJ_matches (by simp [fieldOpcode, fieldIndex])⟩
theorem TableRow.jr (rs : Reg) : TableRow.Statement (.jr rs) :=
  ⟨⟨.jr, 0xFC1FFFFF#32, 0x00000008#32⟩, by decide, rfl, encodeR_matches (by
    simp [fieldOpcode, fieldRs, fieldRt, fieldRd, fieldShamt, fieldFunct])⟩
theorem TableRow.jalr (rd rs : Reg) : TableRow.Statement (.jalr rd rs) :=
  ⟨⟨.jalr, 0xFC1F07FF#32, 0x00000009#32⟩, by decide, rfl, encodeR_matches (by
    simp [fieldOpcode, fieldRs, fieldRt, fieldRd, fieldShamt, fieldFunct])⟩
theorem TableRow.lb (rt : Reg) (offset : BitVec 16) (base : Reg) : TableRow.Statement (.lb rt offset base) :=
  ⟨⟨.lb, 0xFC000000#32, 0x80000000#32⟩, by decide, rfl, encodeI_matches (by
    simp [fieldOpcode, fieldRs, fieldRt, fieldImm])⟩
theorem TableRow.lbu (rt : Reg) (offset : BitVec 16) (base : Reg) : TableRow.Statement (.lbu rt offset base) :=
  ⟨⟨.lbu, 0xFC000000#32, 0x90000000#32⟩, by decide, rfl, encodeI_matches (by
    simp [fieldOpcode, fieldRs, fieldRt, fieldImm])⟩
theorem TableRow.lh (rt : Reg) (offset : BitVec 16) (base : Reg) : TableRow.Statement (.lh rt offset base) :=
  ⟨⟨.lh, 0xFC000000#32, 0x84000000#32⟩, by decide, rfl, encodeI_matches (by
    simp [fieldOpcode, fieldRs, fieldRt, fieldImm])⟩
theorem TableRow.lhu (rt : Reg) (offset : BitVec 16) (base : Reg) : TableRow.Statement (.lhu rt offset base) :=
  ⟨⟨.lhu, 0xFC000000#32, 0x94000000#32⟩, by decide, rfl, encodeI_matches (by
    simp [fieldOpcode, fieldRs, fieldRt, fieldImm])⟩
theorem TableRow.lw (rt : Reg) (offset : BitVec 16) (base : Reg) : TableRow.Statement (.lw rt offset base) :=
  ⟨⟨.lw, 0xFC000000#32, 0x8C000000#32⟩, by decide, rfl, encodeI_matches (by
    simp [fieldOpcode, fieldRs, fieldRt, fieldImm])⟩
theorem TableRow.lwl (rt : Reg) (offset : BitVec 16) (base : Reg) : TableRow.Statement (.lwl rt offset base) :=
  ⟨⟨.lwl, 0xFC000000#32, 0x88000000#32⟩, by decide, rfl, encodeI_matches (by
    simp [fieldOpcode, fieldRs, fieldRt, fieldImm])⟩
theorem TableRow.lwr (rt : Reg) (offset : BitVec 16) (base : Reg) : TableRow.Statement (.lwr rt offset base) :=
  ⟨⟨.lwr, 0xFC000000#32, 0x98000000#32⟩, by decide, rfl, encodeI_matches (by
    simp [fieldOpcode, fieldRs, fieldRt, fieldImm])⟩
theorem TableRow.ll (rt : Reg) (offset : BitVec 16) (base : Reg) : TableRow.Statement (.ll rt offset base) :=
  ⟨⟨.ll, 0xFC000000#32, 0xC0000000#32⟩, by decide, rfl, encodeI_matches (by
    simp [fieldOpcode, fieldRs, fieldRt, fieldImm])⟩
theorem TableRow.sb (rt : Reg) (offset : BitVec 16) (base : Reg) : TableRow.Statement (.sb rt offset base) :=
  ⟨⟨.sb, 0xFC000000#32, 0xA0000000#32⟩, by decide, rfl, encodeI_matches (by
    simp [fieldOpcode, fieldRs, fieldRt, fieldImm])⟩
theorem TableRow.sh (rt : Reg) (offset : BitVec 16) (base : Reg) : TableRow.Statement (.sh rt offset base) :=
  ⟨⟨.sh, 0xFC000000#32, 0xA4000000#32⟩, by decide, rfl, encodeI_matches (by
    simp [fieldOpcode, fieldRs, fieldRt, fieldImm])⟩
theorem TableRow.sw (rt : Reg) (offset : BitVec 16) (base : Reg) : TableRow.Statement (.sw rt offset base) :=
  ⟨⟨.sw, 0xFC000000#32, 0xAC000000#32⟩, by decide, rfl, encodeI_matches (by
    simp [fieldOpcode, fieldRs, fieldRt, fieldImm])⟩
theorem TableRow.swl (rt : Reg) (offset : BitVec 16) (base : Reg) : TableRow.Statement (.swl rt offset base) :=
  ⟨⟨.swl, 0xFC000000#32, 0xA8000000#32⟩, by decide, rfl, encodeI_matches (by
    simp [fieldOpcode, fieldRs, fieldRt, fieldImm])⟩
theorem TableRow.swr (rt : Reg) (offset : BitVec 16) (base : Reg) : TableRow.Statement (.swr rt offset base) :=
  ⟨⟨.swr, 0xFC000000#32, 0xB8000000#32⟩, by decide, rfl, encodeI_matches (by
    simp [fieldOpcode, fieldRs, fieldRt, fieldImm])⟩
theorem TableRow.sc (rt : Reg) (offset : BitVec 16) (base : Reg) : TableRow.Statement (.sc rt offset base) :=
  ⟨⟨.sc, 0xFC000000#32, 0xE0000000#32⟩, by decide, rfl, encodeI_matches (by
    simp [fieldOpcode, fieldRs, fieldRt, fieldImm])⟩
theorem TableRow.mult (rs rt : Reg) : TableRow.Statement (.mult rs rt) :=
  ⟨⟨.mult, 0xFC00FFFF#32, 0x00000018#32⟩, by decide, rfl, encodeR_matches (by
    simp [fieldOpcode, fieldRs, fieldRt, fieldRd, fieldShamt, fieldFunct])⟩
theorem TableRow.multu (rs rt : Reg) : TableRow.Statement (.multu rs rt) :=
  ⟨⟨.multu, 0xFC00FFFF#32, 0x00000019#32⟩, by decide, rfl, encodeR_matches (by
    simp [fieldOpcode, fieldRs, fieldRt, fieldRd, fieldShamt, fieldFunct])⟩
theorem TableRow.div (rs rt : Reg) : TableRow.Statement (.div rs rt) :=
  ⟨⟨.div, 0xFC00FFFF#32, 0x0000001A#32⟩, by decide, rfl, encodeR_matches (by
    simp [fieldOpcode, fieldRs, fieldRt, fieldRd, fieldShamt, fieldFunct])⟩
theorem TableRow.divu (rs rt : Reg) : TableRow.Statement (.divu rs rt) :=
  ⟨⟨.divu, 0xFC00FFFF#32, 0x0000001B#32⟩, by decide, rfl, encodeR_matches (by
    simp [fieldOpcode, fieldRs, fieldRt, fieldRd, fieldShamt, fieldFunct])⟩
theorem TableRow.mfhi (rd : Reg) : TableRow.Statement (.mfhi rd) :=
  ⟨⟨.mfhi, 0xFFFF07FF#32, 0x00000010#32⟩, by decide, rfl, encodeR_matches (by
    simp [fieldOpcode, fieldRs, fieldRt, fieldRd, fieldShamt, fieldFunct])⟩
theorem TableRow.mflo (rd : Reg) : TableRow.Statement (.mflo rd) :=
  ⟨⟨.mflo, 0xFFFF07FF#32, 0x00000012#32⟩, by decide, rfl, encodeR_matches (by
    simp [fieldOpcode, fieldRs, fieldRt, fieldRd, fieldShamt, fieldFunct])⟩
theorem TableRow.mthi (rs : Reg) : TableRow.Statement (.mthi rs) :=
  ⟨⟨.mthi, 0xFC1FFFFF#32, 0x00000011#32⟩, by decide, rfl, encodeR_matches (by
    simp [fieldOpcode, fieldRs, fieldRt, fieldRd, fieldShamt, fieldFunct])⟩
theorem TableRow.mtlo (rs : Reg) : TableRow.Statement (.mtlo rs) :=
  ⟨⟨.mtlo, 0xFC1FFFFF#32, 0x00000013#32⟩, by decide, rfl, encodeR_matches (by
    simp [fieldOpcode, fieldRs, fieldRt, fieldRd, fieldShamt, fieldFunct])⟩
theorem TableRow.mul (rd rs rt : Reg) : TableRow.Statement (.mul rd rs rt) :=
  ⟨⟨.mul, 0xFC0007FF#32, 0x70000002#32⟩, by decide, rfl, encodeR_matches (by
    simp [fieldOpcode, fieldRs, fieldRt, fieldRd, fieldShamt, fieldFunct])⟩
theorem TableRow.madd (rs rt : Reg) : TableRow.Statement (.madd rs rt) :=
  ⟨⟨.madd, 0xFC00FFFF#32, 0x70000000#32⟩, by decide, rfl, encodeR_matches (by
    simp [fieldOpcode, fieldRs, fieldRt, fieldRd, fieldShamt, fieldFunct])⟩
theorem TableRow.maddu (rs rt : Reg) : TableRow.Statement (.maddu rs rt) :=
  ⟨⟨.maddu, 0xFC00FFFF#32, 0x70000001#32⟩, by decide, rfl, encodeR_matches (by
    simp [fieldOpcode, fieldRs, fieldRt, fieldRd, fieldShamt, fieldFunct])⟩
theorem TableRow.msub (rs rt : Reg) : TableRow.Statement (.msub rs rt) :=
  ⟨⟨.msub, 0xFC00FFFF#32, 0x70000004#32⟩, by decide, rfl, encodeR_matches (by
    simp [fieldOpcode, fieldRs, fieldRt, fieldRd, fieldShamt, fieldFunct])⟩
theorem TableRow.msubu (rs rt : Reg) : TableRow.Statement (.msubu rs rt) :=
  ⟨⟨.msubu, 0xFC00FFFF#32, 0x70000005#32⟩, by decide, rfl, encodeR_matches (by
    simp [fieldOpcode, fieldRs, fieldRt, fieldRd, fieldShamt, fieldFunct])⟩
theorem TableRow.syscall (code : BitVec 20) : TableRow.Statement (.syscall code) :=
  ⟨⟨.syscall, 0xFC00003F#32, 0x0000000C#32⟩, by decide, rfl, encodeSyscall_matches code⟩
theorem TableRow.sync (stype : BitVec 5) : TableRow.Statement (.sync stype) :=
  ⟨⟨.sync, 0xFFFFF83F#32, 0x0000000F#32⟩, by decide, rfl, encodeR_matches (by
    simp [fieldOpcode, fieldRs, fieldRt, fieldRd, fieldShamt, fieldFunct])⟩

end Sys2Proof.Laws
end

