-- ==== Sys2Proof/Laws/Step.lean ====
section
/-! SUPPORT. Everything a step can do. Statements over steps go through `step_cases`. -/
namespace Sys2Proof.Laws
open Sys2Proof.Machine

theorem step_of_running {s : State} (h : s.status = .running) : step s = stepRunning s := by
  unfold step; rw [h]

@[simp] theorem mem_bookkeep (s : State) : s.bookkeep.mem = s.mem := by
  unfold State.bookkeep; split <;> rfl
@[simp] theorem regs_bookkeep (s : State) : s.bookkeep.regs = s.regs := by
  unfold State.bookkeep; split <;> rfl
@[simp] theorem faultRecord_bookkeep (s : State) : s.bookkeep.faultRecord = s.faultRecord := by
  unfold State.bookkeep; split <;> rfl
@[simp] theorem params_bookkeep (s : State) : s.bookkeep.params = s.params := by
  unfold State.bookkeep; split <;> rfl

/-- A fault raised by the fetch is the fault of the instruction at `pc`. -/
theorem fetch_error_pc {s : State} {r : FaultRecord} (h : s.fetch = .error r) : r.pc = s.pc := by
  unfold State.fetch State.memRead at h
  split at h
  · cases h; rfl
  · split at h <;> cases h; rfl

/-- A step that answers a next state is made in a running state. It takes a fault; or an instruction
was fetched and decoded, it completed, and the bookkeeping followed. -/
theorem step_cases {s t : State} (h : step s = .next t) :
    s.status = .running ∧ ((∃ r : FaultRecord, t = faultedWith s r ∧ r.pc = s.pc) ∨
    ∃ w i u, s.fetch = .ok w ∧ decode w = .instr i ∧ exec i s = .next u ∧ t = u.bookkeep ∧
      (Plain i s u ∨ ∃ code r n, i = .syscall code ∧
        u = State.applyResume { s.advance with shimState := n } r)) := by
  unfold step at h
  split at h <;> rename_i hr
  · refine ⟨hr, ?_⟩
    unfold stepRunning at h
    split at h <;> rename_i hf
    · rename_i w
      unfold execDecoded at h
      split at h <;> rename_i hd
      · rename_i i
        obtain ⟨r, h1, h2⟩ | ⟨u, h1, h2⟩ | ⟨code, r, n, h1, h2⟩ := exec_does i s
        · rw [h1] at h; cases h; exact .inl ⟨r, by simp [State.bookkeep, faultedWith], h2⟩
        · rw [h1] at h; cases h; exact .inr ⟨w, i, u, hf, hd, h1, rfl, .inl h2⟩
        · rw [h2] at h; cases h
          exact .inr ⟨w, i, _, hf, hd, h2, rfl, .inr ⟨code, r, n, h1, rfl⟩⟩
      · cases h; exact .inl ⟨_, by simp [State.bookkeep, faultedWith, State.takeFault]; rfl, rfl⟩
      · cases h; exact .inl ⟨_, by simp [State.bookkeep, faultedWith, State.takeFault]; rfl, rfl⟩
    · cases h; exact .inl ⟨_, rfl, fetch_error_pc hf⟩
  · cases h
  · cases h

end Sys2Proof.Laws
end

