-- ==== Sys2Proof/Tests/Slice0.lean ====
section
/-! SUPPORT. The model's own tests. Expected results are the spec's: the decode-only vectors and the
single-step vectors of `spec/95_test_vectors.md` (sections 2 and 4), whose section is named at each
group, and words written out from the fields of `30_encoding.md` R52 and R57 to R59. The theorems named
witness_ show, for each statement for the provers that has hypotheses, states and operands that meet
them. -/
namespace Sys2Proof.Tests
open Sys2Proof.Machine

/-! ### Helpers -/

/-- A state after reset with registers set and a word at `pc`. -/
def start (w : Nat) (regs : List (Reg × Word)) : State :=
  (writeRegs State.reset regs).withFetchWord 32 w

/-- The start state of V46 and V47, with `x[16]` as given. -/
def startData (w : Nat) (base : Word) : State :=
  let s := start w [(16, base), (9, 0x11223344#32)]
  { s with mem := (s.mem.writeBE 0x10000#32 4 0x8899AABB#32).writeBE 0x10004#32 4 0xCCDDEEFF#32 }

/-- The same state under the strict policy. -/
def strict (s : State) : State := { s with params := { s.params with alignPolicy := .strict } }

/-- The state at another address. -/
def at' (s : State) (pc nextPc : Word) : State := { s with pc := pc, nextPc := nextPc }

/-- What `f` reads from the next state of an outcome. -/
def onNext {α : Type} (f : State → α) : Result → Option α
  | .next t => some (f t)
  | .fault _ => none
  | .refused _ => none

/-- What `f` reads from the state after one step. -/
def after {α : Type} (s : State) (f : State → α) : Option α := onNext f (step s)

/-- The word in memory. -/
def wordAt (t : State) (a : Word) : Option Word := t.mem.readBE a 4 0

theorem next_of_onNext {r : Result} {p : State → Bool} (h : onNext p r = some true) :
    ∃ t, r = .next t ∧ p t = true := by
  cases r with
  | next t => exact ⟨t, rfl, by simpa [onNext] using h⟩
  | fault _ => simp [onNext] at h
  | refused _ => simp [onNext] at h

/-! ### Decoding and encoding (`95_test_vectors.md` sections 2 and 4) -/

/-- The word decodes to the instruction, and is the instruction's word. -/
def agrees (w : Word) (i : Instr) : Bool :=
  decide (decode w = .instr i) && decide (encode i = w)

theorem test_decode_arithmetic :
    agrees 0x01095020#32 (.add 10 8 9) = true ∧
    agrees 0x01095021#32 (.addu 10 8 9) = true ∧
    agrees 0x01095022#32 (.sub 10 8 9) = true ∧
    agrees 0x01095023#32 (.subu 10 8 9) = true ∧
    agrees 0x2109FFFF#32 (.addi 9 8 0xFFFF) = true ∧
    agrees 0x2402002A#32 (.addiu 2 0 0x002A) = true ∧
    agrees 0x0109502A#32 (.slt 10 8 9) = true ∧
    agrees 0x0109502B#32 (.sltu 10 8 9) = true ∧
    agrees 0x2909FFFF#32 (.slti 9 8 0xFFFF) = true ∧
    agrees 0x2D098000#32 (.sltiu 9 8 0x8000) = true ∧
    agrees 0x0109500A#32 (.movz 10 8 9) = true ∧
    agrees 0x0109500B#32 (.movn 10 8 9) = true := by decide

theorem test_decode_logical :
    agrees 0x01095024#32 (.and 10 8 9) = true ∧
    agrees 0x01095025#32 (.or 10 8 9) = true ∧
    agrees 0x01095026#32 (.xor 10 8 9) = true ∧
    agrees 0x01095027#32 (.nor 10 8 9) = true ∧
    agrees 0x3109FFFF#32 (.andi 9 8 0xFFFF) = true ∧
    agrees 0x35098000#32 (.ori 9 8 0x8000) = true ∧
    agrees 0x3909FFFF#32 (.xori 9 8 0xFFFF) = true ∧
    agrees 0x3C098000#32 (.lui 9 0x8000) = true ∧
    agrees 0x71095020#32 (.clz 10 8 9) = true ∧
    agrees 0x71094821#32 (.clo 9 8 9) = true := by decide

theorem test_decode_shift :
    agrees 0x00084900#32 (.sll 9 8 4) = true ∧
    agrees 0x00084902#32 (.srl 9 8 4) = true ∧
    agrees 0x00084FC3#32 (.sra 9 8 31) = true ∧
    agrees 0x01285004#32 (.sllv 10 8 9) = true ∧
    agrees 0x01285006#32 (.srlv 10 8 9) = true ∧
    agrees 0x01285007#32 (.srav 10 8 9) = true := by decide

theorem test_decode_branch :
    agrees 0x11090003#32 (.beq 8 9 3) = true ∧
    agrees 0x1509FFFE#32 (.bne 8 9 0xFFFE) = true ∧
    agrees 0x19000004#32 (.blez 8 4) = true ∧
    agrees 0x1D000004#32 (.bgtz 8 4) = true ∧
    agrees 0x05000004#32 (.bltz 8 4) = true ∧
    agrees 0x05010004#32 (.bgez 8 4) = true ∧
    agrees 0x07F00004#32 (.bltzal 31 4) = true ∧
    agrees 0x0411FFFF#32 (.bgezal 0 0xFFFF) = true := by decide

theorem test_decode_jump :
    agrees 0x08000600#32 (.j 0x600) = true ∧
    agrees 0x0C000408#32 (.jal 0x408) = true ∧
    agrees 0x01000008#32 (.jr 8) = true ∧
    agrees 0x01004809#32 (.jalr 9 8) = true := by decide

theorem test_decode_load :
    agrees 0x82090003#32 (.lb 9 3 16) = true ∧
    agrees 0x92090000#32 (.lbu 9 0 16) = true ∧
    agrees 0x86090001#32 (.lh 9 1 16) = true ∧
    agrees 0x96090002#32 (.lhu 9 2 16) = true ∧
    agrees 0x8E09FFFC#32 (.lw 9 0xFFFC 16) = true ∧
    agrees 0x8A090001#32 (.lwl 9 1 16) = true ∧
    agrees 0x9A090002#32 (.lwr 9 2 16) = true ∧
    agrees 0xC2090000#32 (.ll 9 0 16) = true := by decide

theorem test_decode_store :
    agrees 0xA2090000#32 (.sb 9 0 16) = true ∧
    agrees 0xA6090003#32 (.sh 9 3 16) = true ∧
    agrees 0xAFBF0004#32 (.sw 31 4 29) = true ∧
    agrees 0xAA090001#32 (.swl 9 1 16) = true ∧
    agrees 0xBA090002#32 (.swr 9 2 16) = true ∧
    agrees 0xE2090000#32 (.sc 9 0 16) = true := by decide

theorem test_decode_multiply_divide :
    agrees 0x01090018#32 (.mult 8 9) = true ∧
    agrees 0x01090019#32 (.multu 8 9) = true ∧
    agrees 0x0109001A#32 (.div 8 9) = true ∧
    agrees 0x0109001B#32 (.divu 8 9) = true ∧
    agrees 0x00005010#32 (.mfhi 10) = true ∧
    agrees 0x00005012#32 (.mflo 10) = true ∧
    agrees 0x01000011#32 (.mthi 8) = true ∧
    agrees 0x01000013#32 (.mtlo 8) = true ∧
    agrees 0x71095002#32 (.mul 10 8 9) = true ∧
    agrees 0x71090000#32 (.madd 8 9) = true ∧
    agrees 0x71090001#32 (.maddu 8 9) = true ∧
    agrees 0x71090004#32 (.msub 8 9) = true ∧
    agrees 0x71090005#32 (.msubu 8 9) = true := by decide

theorem test_decode_trap_noop :
    agrees 0x03FFFFCC#32 (.syscall 0xFFFFF) = true ∧
    agrees 0x000007CF#32 (.sync 31) = true := by decide

/-! Words written out field by field (R52, R57 to R59). -/

theorem test_fields_addu : decode (0b000000#6 ++ 0b01000#5 ++ 0b01001#5 ++ 0b01010#5 ++ 0b00000#5 ++
    0b100001#6) = .instr (.addu 10 8 9) := by decide
theorem test_fields_ori : decode (0b001101#6 ++ 0b01000#5 ++ 0b01001#5 ++ 0b1000000000000001#16) =
    .instr (.ori 9 8 0x8001) := by decide
theorem test_fields_clo : decode (0b011100#6 ++ 0b01000#5 ++ 0b01001#5 ++ 0b01010#5 ++ 0b00000#5 ++
    0b100001#6) = .instr (.clo 10 8 9) := by decide
theorem test_fields_sra : decode (0b000000#6 ++ 0b00000#5 ++ 0b01000#5 ++ 0b01001#5 ++ 0b10001#5 ++
    0b000011#6) = .instr (.sra 9 8 17) := by decide
theorem test_fields_srav : decode (0b000000#6 ++ 0b01001#5 ++ 0b01000#5 ++ 0b01010#5 ++ 0b00000#5 ++
    0b000111#6) = .instr (.srav 10 8 9) := by decide
theorem test_fields_bltzal : decode (0b000001#6 ++ 0b01000#5 ++ 0b10000#5 ++ 0b0000000000000100#16) =
    .instr (.bltzal 8 4) := by decide
theorem test_fields_jalr : decode (0b000000#6 ++ 0b01000#5 ++ 0b00000#5 ++ 0b01001#5 ++ 0b00000#5 ++
    0b001001#6) = .instr (.jalr 9 8) := by decide
theorem test_fields_lwr : decode (0b100110#6 ++ 0b10000#5 ++ 0b01001#5 ++ 0b1111111111111101#16) =
    .instr (.lwr 9 0xFFFD 16) := by decide
theorem test_fields_sc : decode (0b111000#6 ++ 0b10000#5 ++ 0b01001#5 ++ 0b0000000000000100#16) =
    .instr (.sc 9 4 16) := by decide
theorem test_fields_msub : decode (0b011100#6 ++ 0b01000#5 ++ 0b01001#5 ++ 0b00000#5 ++ 0b00000#5 ++
    0b000100#6) = .instr (.msub 8 9) := by decide
theorem test_fields_syscall : decode (0b000000#6 ++ 0b00000000000000000101#20 ++ 0b001100#6) =
    .instr (.syscall 5) := by decide

/-! Words outside the table (V41 to V49): the variant of each. -/

/-- The decoder's variant. -/
def isReserved (w : Word) : Bool := decide (decode w = .reserved w)
/-- The decoder's variant. -/
def isInvalid (w : Word) : Bool := decide (decode w = .invalid w)

theorem test_reserved_words : isReserved 0x3D098000#32 = true ∧ isReserved 0x00284902#32 = true ∧
    isReserved 0x01285046#32 = true ∧ isReserved 0x19010004#32 = true ∧
    isReserved 0x01000808#32 = true ∧ isReserved 0x0100FC09#32 = true ∧
    isReserved 0x01090818#32 = true ∧ isReserved 0x01005010#32 = true ∧
    isReserved 0x0020000F#32 = true ∧ isReserved 0x01095060#32 = true := by decide
theorem test_invalid_words : isInvalid 0x0000000D#32 = true ∧ isInvalid 0x00000034#32 = true ∧
    isInvalid 0x00000001#32 = true ∧ isInvalid 0x40806000#32 = true ∧
    isInvalid 0x42000018#32 = true ∧ isInvalid 0x44000000#32 = true ∧
    isInvalid 0x50000001#32 = true ∧ isInvalid 0x7C000000#32 = true ∧
    isInvalid 0xBC000000#32 = true ∧ isInvalid 0xCC000000#32 = true ∧
    isInvalid 0xFFFFFFFF#32 = true ∧ isInvalid 0x7000003F#32 = true ∧
    isInvalid 0x70000003#32 = true ∧ isInvalid 0x04020004#32 = true ∧
    isInvalid 0x68000000#32 = true := by decide
theorem test_no_ops : decode 0x00000000#32 = .instr (.sll 0 0 0) ∧
    decode 0x00000040#32 = .instr (.sll 0 0 1) ∧ decode 0x000000C0#32 = .instr (.sll 0 0 3) := by
  decide

/-- Bytes are read most significant first, and too few are refused by name (R53). -/
theorem test_bytes : decodeBytes [0x24#8, 0x02#8, 0x00#8, 0x2A#8, 0xFF#8] =
    .word (.instr (.addiu 2 0 0x002A)) [0xFF#8] ∧
    decodeBytes [0x24#8, 0x02#8, 0x00#8] = .tooShort 3 ∧
    decodeTableWord 32 0x2402002A = some (.addiu 2 0 0x002A) ∧
    decodeTableWord 32 0x0000000D = none := by decide

/-- 69 rows, one for each mnemonic; each row's value meets its own mask; no word meets two rows. -/
theorem test_table_rows : opcodeTable.length = 69 ∧ (opcodeTable.map OpcodeRow.mnemonic).Nodup ∧
    ∀ row ∈ opcodeTable, row.value &&& row.mask = row.value := by decide
theorem test_table_rows_disjoint :
    opcodeTable.Pairwise (fun r q => r.mask &&& q.mask &&& (r.value ^^^ q.value) ≠ 0) := by decide


/-! One step: arithmetic (V41). -/

theorem test_add_largest : after (start 0x01095020 [(8, 0x7FFFFFFE#32), (9, 0x00000001#32)])
    (·.reg 10) = some 0x7FFFFFFF#32 := by decide
theorem test_add_overflow : after (start 0x01090020 [(8, 0x7FFFFFFF#32), (9, 0x00000001#32)])
    (·.faultRecord) = some (some (.integerOverflow 0x1000#32 0x01090020#32)) := by decide
theorem test_addu_wraps : after (start 0x01095021 [(8, 0x7FFFFFFF#32), (9, 0x00000001#32)])
    (·.reg 10) = some 0x80000000#32 := by decide
theorem test_sub : after (start 0x01095022 [(8, 0x00000005#32), (9, 0x00000007#32)])
    (·.reg 10) = some 0xFFFFFFFE#32 := by decide
theorem test_sub_overflow : after (start 0x01095022 [(8, 0x00000000#32), (9, 0x80000000#32)])
    (·.faultRecord) = some (some (.integerOverflow 0x1000#32 0x01095022#32)) := by decide
theorem test_subu_wraps : after (start 0x01095023 [(8, 0x00000000#32), (9, 0x00000001#32)])
    (·.reg 10) = some 0xFFFFFFFF#32 := by decide
theorem test_addi : after (start 0x21098000 [(8, 0x00008000#32), (9, 0x00000077#32)])
    (·.reg 9) = some 0x00000000#32 := by decide
theorem test_addi_overflow : after (start 0x2109FFFF [(8, 0x80000000#32)])
    (·.faultRecord) = some (some (.integerOverflow 0x1000#32 0x2109FFFF#32)) := by decide
theorem test_addiu : after (start 0x25097FFF [(8, 0x7FFFFFFF#32)])
    (·.reg 9) = some 0x80007FFE#32 := by decide
theorem test_addiu_zero : after (start 0x2400002A [])
    (·.reg 0) = some 0x00000000#32 := by decide
theorem test_slt : after (start 0x0109502A [(8, 0xFFFFFFFF#32), (9, 0x00000001#32)])
    (·.reg 10) = some 0x00000001#32 := by decide
theorem test_sltu : after (start 0x0109502B [(8, 0xFFFFFFFF#32), (9, 0x00000001#32), (10, 0x00000007#32)])
    (·.reg 10) = some 0x00000000#32 := by decide
theorem test_slti : after (start 0x2909FFFF [(8, 0xFFFFFFFE#32)])
    (·.reg 9) = some 0x00000001#32 := by decide
theorem test_sltiu : after (start 0x2D098000 [(8, 0x0000FFFF#32)])
    (·.reg 9) = some 0x00000001#32 := by decide
theorem test_movz : after (start 0x0109500A [(8, 0x00000055#32), (9, 0x00000000#32), (10, 0x000000AA#32)])
    (·.reg 10) = some 0x00000055#32 := by decide
theorem test_movz_no_write : after (start 0x0109500A [(8, 0x00000055#32), (9, 0x00000001#32), (10, 0x000000AA#32)])
    (·.reg 10) = some 0x000000AA#32 := by decide
theorem test_movn : after (start 0x0109500B [(8, 0x00000055#32), (9, 0x00000001#32), (10, 0x000000AA#32)])
    (·.reg 10) = some 0x00000055#32 := by decide
theorem test_movn_no_write : after (start 0x0109500B [(8, 0x00000055#32), (9, 0x00000000#32), (10, 0x000000AA#32)])
    (·.reg 10) = some 0x000000AA#32 := by decide

/-! One step: logical (V42). -/

theorem test_and : after (start 0x01095024 [(8, 0xFF00FF00#32), (9, 0x0FF00FF0#32)])
    (·.reg 10) = some 0x0F000F00#32 := by decide
theorem test_or : after (start 0x01095025 [(8, 0xFF00FF00#32), (9, 0x0FF00FF0#32)])
    (·.reg 10) = some 0xFFF0FFF0#32 := by decide
theorem test_xor : after (start 0x01095026 [(8, 0xFF00FF00#32), (9, 0x0FF00FF0#32)])
    (·.reg 10) = some 0xF0F0F0F0#32 := by decide
theorem test_nor : after (start 0x01095027 [(8, 0xFF00FF00#32), (9, 0x0FF00FF0#32)])
    (·.reg 10) = some 0x000F000F#32 := by decide
theorem test_andi : after (start 0x3109FFFF [(8, 0x12345678#32)])
    (·.reg 9) = some 0x00005678#32 := by decide
theorem test_ori : after (start 0x35098000 [(8, 0x12340000#32)])
    (·.reg 9) = some 0x12348000#32 := by decide
theorem test_xori : after (start 0x3909FFFF [(8, 0xFFFFFFFF#32)])
    (·.reg 9) = some 0xFFFF0000#32 := by decide
theorem test_lui : after (start 0x3C098000 [(9, 0xFFFFFFFF#32)])
    (·.reg 9) = some 0x80000000#32 := by decide
theorem test_clz_zero : after (start 0x71094820 [(8, 0x00000000#32), (9, 0x00000077#32)])
    (·.reg 9) = some 0x00000020#32 := by decide
theorem test_clz : after (start 0x71095020 [(8, 0x00010000#32), (9, 0x00000099#32)])
    (·.reg 10) = some 0x0000000F#32 := by decide
theorem test_clo_all : after (start 0x71094821 [(8, 0xFFFFFFFF#32)])
    (·.reg 9) = some 0x00000020#32 := by decide
theorem test_clo : after (start 0x71094821 [(8, 0xFFFF7FFF#32)])
    (·.reg 9) = some 0x00000010#32 := by decide

/-! One step: shift (V43). -/

theorem test_sll : after (start 0x00084900 [(8, 0xF000000F#32)])
    (·.reg 9) = some 0x000000F0#32 := by decide
theorem test_srl : after (start 0x00084902 [(8, 0xF000000F#32)])
    (·.reg 9) = some 0x0F000000#32 := by decide
theorem test_srl_zero : after (start 0x00084802 [(8, 0xF000000F#32)])
    (·.reg 9) = some 0xF000000F#32 := by decide
theorem test_sra : after (start 0x00084FC3 [(8, 0xF000000F#32)])
    (·.reg 9) = some 0xFFFFFFFF#32 := by decide
theorem test_sllv : after (start 0x01285004 [(8, 0x00000001#32), (9, 0x00000021#32)])
    (·.reg 10) = some 0x00000002#32 := by decide
theorem test_sllv_all : after (start 0x01285004 [(8, 0x00000001#32), (9, 0xFFFFFFFF#32)])
    (·.reg 10) = some 0x80000000#32 := by decide
theorem test_srlv : after (start 0x01285006 [(8, 0x80000000#32), (9, 0x00000024#32)])
    (·.reg 10) = some 0x08000000#32 := by decide
theorem test_srav : after (start 0x01285007 [(8, 0x80000000#32), (9, 0x00000024#32)])
    (·.reg 10) = some 0xF8000000#32 := by decide

/-! One step: branch (V44). -/

theorem test_beq : after (start 0x11090003 [(8, 0x00000005#32), (9, 0x00000005#32)])
    (fun t => (t.pc, t.nextPc)) = some (0x1004#32, 0x00001010#32) := by decide
theorem test_beq_backward : after (start 0x10008000 [])
    (fun t => (t.pc, t.nextPc)) = some (0x1004#32, 0xFFFE1004#32) := by decide
theorem test_bne : after (start 0x1509FFFE [(8, 0x00000005#32), (9, 0x00000006#32)])
    (fun t => (t.pc, t.nextPc)) = some (0x1004#32, 0x00000FFC#32) := by decide
theorem test_bne_not_taken : after (start 0x1509FFFE [(8, 0x00000005#32), (9, 0x00000005#32)])
    (fun t => (t.pc, t.nextPc)) = some (0x1004#32, 0x00001008#32) := by decide
theorem test_blez : after (start 0x19000004 [(8, 0x00000000#32)])
    (fun t => (t.pc, t.nextPc)) = some (0x1004#32, 0x00001014#32) := by decide
theorem test_blez_not_taken : after (start 0x19000004 [(8, 0x00000001#32)])
    (fun t => (t.pc, t.nextPc)) = some (0x1004#32, 0x00001008#32) := by decide
theorem test_bgtz : after (start 0x1D000004 [(8, 0x00000001#32)])
    (fun t => (t.pc, t.nextPc)) = some (0x1004#32, 0x00001014#32) := by decide
theorem test_bgtz_not_taken : after (start 0x1D000004 [(8, 0xFFFFFFFF#32)])
    (fun t => (t.pc, t.nextPc)) = some (0x1004#32, 0x00001008#32) := by decide
theorem test_bltz : after (start 0x05000004 [(8, 0xFFFFFFFF#32)])
    (fun t => (t.pc, t.nextPc)) = some (0x1004#32, 0x00001014#32) := by decide
theorem test_bltz_not_taken : after (start 0x05000004 [(8, 0x00000000#32)])
    (fun t => (t.pc, t.nextPc)) = some (0x1004#32, 0x00001008#32) := by decide
theorem test_bgez : after (start 0x05010004 [(8, 0x00000000#32)])
    (fun t => (t.pc, t.nextPc)) = some (0x1004#32, 0x00001014#32) := by decide
theorem test_bgez_not_taken : after (start 0x05010004 [(8, 0x80000000#32)])
    (fun t => (t.pc, t.nextPc)) = some (0x1004#32, 0x00001008#32) := by decide
theorem test_bltzal_old_rs : after (start 0x07F00004 [(31, 0x80000000#32)])
    (fun t => (t.pc, t.nextPc, t.reg 31)) = some (0x1004#32, 0x00001014#32, 0x00001008#32) := by decide
theorem test_bltzal_not_taken : after (start 0x05100004 [(8, 0x00000001#32)])
    (fun t => (t.pc, t.nextPc, t.reg 31)) = some (0x1004#32, 0x00001008#32, 0x00001008#32) := by decide
theorem test_bgezal : after (start 0x05110004 [(8, 0x00000001#32)])
    (fun t => (t.pc, t.nextPc, t.reg 31)) = some (0x1004#32, 0x00001014#32, 0x00001008#32) := by decide
theorem test_bgezal_old_rs : after (start 0x07F10004 [(31, 0x80000000#32)])
    (fun t => (t.pc, t.nextPc, t.reg 31)) = some (0x1004#32, 0x00001008#32, 0x00001008#32) := by decide
theorem test_branch_in_delay_slot : after ((at' State.reset 0x1004#32 0x1800#32).withFetchWord 32
    0x10000003) (fun t => (t.pc, t.nextPc)) = some (0x1800#32, 0x1014#32) := by decide

/-! One step: jump (V45). -/

theorem test_j : after (start 0x08000600 [])
    (fun t => (t.pc, t.nextPc)) = some (0x1004#32, 0x00001800#32) := by decide
theorem test_j_segment : after ((at' State.reset 0x0FFFFFFC#32 0x10000000#32).withFetchWord 32
    0x08000010) (fun t => (t.pc, t.nextPc)) = some (0x10000000#32, 0x10000040#32) := by decide
theorem test_jal : after (start 0x0C000600 [])
    (fun t => (t.pc, t.nextPc, t.reg 31)) = some (0x1004#32, 0x00001800#32, 0x00001008#32) := by decide
theorem test_jr : after (start 0x01000008 [(8, 0x00001802#32)])
    (fun t => (t.pc, t.nextPc)) = some (0x1004#32, 0x00001802#32) := by decide
theorem test_jalr_same : after (start 0x01004009 [(8, 0x00001800#32)])
    (fun t => (t.pc, t.nextPc, t.reg 8)) = some (0x1004#32, 0x00001800#32, 0x00001008#32) := by decide
theorem test_jalr_zero : after (start 0x01000009 [(8, 0x00001800#32)])
    (fun t => (t.pc, t.nextPc, t.reg 0)) = some (0x1004#32, 0x00001800#32, 0x00000000#32) := by decide

/-! One step: load (V46). -/

theorem test_lb : after (startData 0x82090003 0x00010000#32)
    (·.reg 9) = some 0xFFFFFFBB#32 := by decide
theorem test_lbu : after (startData 0x92090000 0x00010000#32)
    (·.reg 9) = some 0x00000088#32 := by decide
theorem test_lh : after (startData 0x86090001 0x00010000#32)
    (·.reg 9) = some 0xFFFF99AA#32 := by decide
theorem test_lh_strict : after (strict (startData 0x86090001 0x00010000#32))
    (·.faultRecord) = some (some (.addressError 0x1000#32 0x10001#32 .read)) := by decide
theorem test_lhu : after (startData 0x96090002 0x00010000#32)
    (·.reg 9) = some 0x0000AABB#32 := by decide
theorem test_lw : after (startData 0x8E09FFFC 0x00010004#32)
    (·.reg 9) = some 0x8899AABB#32 := by decide
theorem test_lw_straddles : after (startData 0x8E090000 0x00010FFE#32)
    (·.faultRecord) = some (some (.unmappedAccess 0x1000#32 0x10FFE#32 .read)) := by decide
theorem test_lwl : after (strict (startData 0x8A090001 0x00010000#32))
    (·.reg 9) = some 0x99AABB44#32 := by decide
theorem test_lwl_last : after (startData 0x8A090003 0x00010000#32)
    (·.reg 9) = some 0xBB223344#32 := by decide
theorem test_lwr : after (startData 0x9A090001 0x00010000#32)
    (·.reg 9) = some 0x11228899#32 := by decide
theorem test_lwr_unmapped : after (startData 0x9A090001 0x00011000#32)
    (·.faultRecord) = some (some (.unmappedAccess 0x1000#32 0x11001#32 .read)) := by decide
theorem test_ll : after (startData 0xC2090000 0x00010000#32)
    (·.reg 9) = some 0x8899AABB#32 := by decide
theorem test_load_to_zero_faults : after (startData 0x8E000000 0x00020000#32)
    (·.faultRecord) = some (some (.unmappedAccess 0x1000#32 0x20000#32 .read)) := by decide

/-! One step: store (V47). -/

theorem test_sb : after (startData 0xA2090000 0x00010000#32)
    (fun t => (wordAt t 0x10000#32, wordAt t 0x10004#32)) = some (some 0x4499AABB#32, some 0xCCDDEEFF#32) := by decide
theorem test_sh : after (startData 0xA6090003 0x00010000#32)
    (fun t => (wordAt t 0x10000#32, wordAt t 0x10004#32)) = some (some 0x8899AA33#32, some 0x44DDEEFF#32) := by decide
theorem test_sh_strict : after (strict (startData 0xA6090003 0x00010000#32))
    (·.faultRecord) = some (some (.addressError 0x1000#32 0x10003#32 .write)) := by decide
theorem test_sw : after (startData 0xAE090001 0x00010000#32)
    (fun t => (wordAt t 0x10000#32, wordAt t 0x10004#32)) = some (some 0x88112233#32, some 0x44DDEEFF#32) := by decide
theorem test_sw_straddles : after (startData 0xAE090000 0x00010FFE#32)
    (·.faultRecord) = some (some (.unmappedAccess 0x1000#32 0x10FFE#32 .write)) := by decide
theorem test_sc : after (startData 0xE2090000 0x00010000#32)
    (fun t => (wordAt t 0x10000#32, t.reg 9)) = some (some 0x11223344#32, 0x00000001#32) := by decide
theorem test_sc_unmapped : after (startData 0xE2090000 0x00020000#32)
    (·.faultRecord) = some (some (.unmappedAccess 0x1000#32 0x20000#32 .write)) := by decide
theorem test_swl : after (startData 0xAA090001 0x00010000#32)
    (fun t => (wordAt t 0x10000#32, wordAt t 0x10004#32)) = some (some 0x88112233#32, some 0xCCDDEEFF#32) := by decide
theorem test_swl_last : after (startData 0xAA090003 0x00010000#32)
    (fun t => (wordAt t 0x10000#32, wordAt t 0x10004#32)) = some (some 0x8899AA11#32, some 0xCCDDEEFF#32) := by decide
theorem test_swr : after (startData 0xBA090002 0x00010000#32)
    (fun t => (wordAt t 0x10000#32, wordAt t 0x10004#32)) = some (some 0x223344BB#32, some 0xCCDDEEFF#32) := by decide
theorem test_swr_first : after (startData 0xBA090000 0x00010000#32)
    (fun t => (wordAt t 0x10000#32, wordAt t 0x10004#32)) = some (some 0x4499AABB#32, some 0xCCDDEEFF#32) := by decide

/-! One step: multiply and divide (V48). A division by zero has no expected value (DIV0). -/

theorem test_mult : after (start 0x01090018 [(8, 0xFFFFFFF9#32), (9, 0x00000002#32)])
    (fun t => (t.hi, t.lo)) = some (0xFFFFFFFF#32, 0xFFFFFFF2#32) := by decide
theorem test_mult_corner : after (start 0x01090018 [(8, 0x80000000#32), (9, 0x80000000#32)])
    (fun t => (t.hi, t.lo)) = some (0x40000000#32, 0x00000000#32) := by decide
theorem test_multu : after (start 0x01090019 [(8, 0xFFFFFFFF#32), (9, 0xFFFFFFFF#32)])
    (fun t => (t.hi, t.lo)) = some (0xFFFFFFFE#32, 0x00000001#32) := by decide
theorem test_div : after (start 0x0109001A [(8, 0xFFFFFFF9#32), (9, 0x00000002#32)])
    (fun t => (t.hi, t.lo)) = some (0xFFFFFFFF#32, 0xFFFFFFFD#32) := by decide
theorem test_div_corner : after (start 0x0109001A [(8, 0x80000000#32), (9, 0xFFFFFFFF#32)])
    (fun t => (t.hi, t.lo)) = some (0x00000000#32, 0x80000000#32) := by decide
theorem test_divu : after (start 0x0109001B [(8, 0xFFFFFFF9#32), (9, 0x00000002#32)])
    (fun t => (t.hi, t.lo)) = some (0x00000001#32, 0x7FFFFFFC#32) := by decide
theorem test_mthi : after ((start 0x01000011 [(8, 0xDEADBEEF#32)]).setHiLo 0x00000001#32 0x00000002#32)
    (fun t => (t.hi, t.lo)) = some (0xDEADBEEF#32, 0x00000002#32) := by decide
theorem test_mtlo : after ((start 0x01000013 [(8, 0xDEADBEEF#32)]).setHiLo 0x00000001#32 0x00000002#32)
    (fun t => (t.hi, t.lo)) = some (0x00000001#32, 0xDEADBEEF#32) := by decide
theorem test_mfhi : after ((start 0x00005010 []).setHiLo 0xAAAA5555#32 0x12345678#32)
    (·.reg 10) = some 0xAAAA5555#32 := by decide
theorem test_mflo : after ((start 0x00005012 []).setHiLo 0xAAAA5555#32 0x12345678#32)
    (·.reg 10) = some 0x12345678#32 := by decide
theorem test_mul : after ((start 0x71095002 [(8, 0xFFFFFFF9#32), (9, 2#32)]).setHiLo 0x11#32 0x22#32)
    (fun t => (t.reg 10, t.hi, t.lo)) = some (0xFFFFFFF2#32, 0x11#32, 0x22#32) := by decide
theorem test_madd : after ((start 0x71090000 [(8, 0xFFFFFFF9#32), (9, 0x00000002#32)]).setHiLo 0x00000000#32 0x0000000A#32)
    (fun t => (t.hi, t.lo)) = some (0xFFFFFFFF#32, 0xFFFFFFFC#32) := by decide
theorem test_maddu_wraps : after ((start 0x71090001 [(8, 0xFFFFFFFF#32), (9, 0xFFFFFFFF#32)]).setHiLo 0xFFFFFFFF#32 0xFFFFFFFF#32)
    (fun t => (t.hi, t.lo)) = some (0xFFFFFFFE#32, 0x00000000#32) := by decide
theorem test_msub : after ((start 0x71090004 [(8, 0x00000006#32), (9, 0x00000002#32)]).setHiLo 0x00000000#32 0x0000000A#32)
    (fun t => (t.hi, t.lo)) = some (0xFFFFFFFF#32, 0xFFFFFFFE#32) := by decide
theorem test_msubu : after (start 0x71090005 [(8, 0xFFFFFFFF#32), (9, 0x00000002#32)])
    (fun t => (t.hi, t.lo)) = some (0xFFFFFFFE#32, 0x00000002#32) := by decide
theorem test_div_by_zero_completes : after (start 0x0109001A [(8, 7#32)])
    (fun t => (t.status, t.pc)) = some (.running, 0x1004#32) := by decide

/-! One step: no-op, illegal words, fetch (V49). -/

theorem test_sync : after (start 0x0000040F []) (fun t => (t.pc, t.nextPc, t.stepIndex, t.status)) =
    some (0x1004#32, 0x1008#32, 1, .running) := by decide
theorem test_break_is_illegal : after (start 0x0000000D []) (fun t => (t.faultRecord, t.stepIndex)) =
    some (some (.illegalInstruction 0x1000#32 0x0000000D#32 .invalid), 0) := by decide
theorem test_sync_reserved : after (start 0x0020000F []) (·.faultRecord) =
    some (some (.illegalInstruction 0x1000#32 0x0020000F#32 .reserved)) := by decide
theorem test_fetch_unmapped : after (at' State.reset 0x3000#32 0x3004#32) (·.faultRecord) =
    some (some (.unmappedAccess 0x3000#32 0x3000#32 .fetch)) := by decide
theorem test_fetch_straddles : after (at' State.reset 0x1FFE#32 0x2002#32) (·.faultRecord) =
    some (some (.unmappedAccess 0x1FFE#32 0x1FFE#32 .fetch)) := by decide
theorem test_fetch_misaligned : after (at' State.reset 0x1002#32 0x1004#32) (·.pc) =
    some 0x1004#32 := by decide
theorem test_fetch_strict : after (strict (at' State.reset 0x1002#32 0x1004#32)) (·.faultRecord) =
    some (some (.addressError 0x1002#32 0x1002#32 .fetch)) := by decide
theorem test_halts : after (at' State.reset 0x1000#32 0x5EAD0000#32)
    (fun t => (t.status, t.pc, t.nextPc)) = some (.halted, 0x5EAD0000#32, 0x5EAD0004#32) := by decide
theorem test_pc_wraps : after ((at' State.reset 0xFFFFFFFC#32 0#32).withFetchWord 32 0)
    (fun t => (t.pc, t.nextPc)) = some (0#32, 4#32) := by decide
theorem test_first_step : after State.reset (fun t => (t.pc, t.stepIndex)) = some (0x1004#32, 1) := by
  decide

/-! The trap port (P5 and S8 of `95_test_vectors.md`). -/

/-- The state of P5 before its second step. -/
def beforeTrap : State := at' (start 0x0000000C [(2, 0x2A#32)]) 0x1004#32 0x1008#32

theorem test_trap_request : (beforeTrap.advance.trapRequest 0x1004#32 0x0000000C#32).epc = 0x1004#32 ∧
    (beforeTrap.advance.trapRequest 0x1004#32 0x0000000C#32).pc = 0x1008#32 ∧
    (beforeTrap.advance.trapRequest 0x1004#32 0x0000000C#32).nextPc = 0x100C#32 ∧
    (beforeTrap.advance.trapRequest 0x1004#32 0x0000000C#32).regs[2] = 0x2A#32 := by decide
theorem test_exit_by_resume :
    (fun t : State => (t.status, t.pc, t.nextPc, t.stepIndex)) (applyResponse beforeTrap
      beforeTrap.advance (.resume ⟨[], [], [], some 0x5EAD0000#32⟩)).bookkeep =
    (.halted, 0x5EAD0000#32, 0x5EAD0004#32, 1) := by decide
theorem test_exit_by_fault :
    (applyResponse beforeTrap beforeTrap.advance (.fault .prematureExit 42)).bookkeep =
    { beforeTrap with
      status := .faulted, faultRecord := some (.shimFault 0x1004#32 .prematureExit 42) } := by decide
theorem test_resume_register :
    (fun t : State => (t.reg 2, t.pc, t.nextPc, t.status)) (applyResponse beforeTrap beforeTrap.advance
      (.resume ⟨[(2, 0)], [], [], none⟩)).bookkeep = (0#32, 0x1008#32, 0x100C#32, .running) := by decide
/-- Two allocations from H = 0x20000: 4096 bytes, then 8192. -/
theorem test_heap_growth :
    (fun t : State => (t.reg 2, t.mem.read 0x22FFF, t.mem.read 0x23000))
      ((beforeTrap.applyResume ⟨[(2, 0x20000#32)], [], [⟨0x20000, 0x21000⟩], none⟩).applyResume
        ⟨[(2, 0x21000#32)], [], [⟨0x21000, 0x23000⟩], none⟩) =
    (0x21000#32, some 0, none) := by decide
/-- A blob of 5 bytes at the response port (S5). -/
theorem test_oracle_port :
    wordAt (beforeTrap.applyResume ⟨[], [(0x10000#32, 0), (0x10001#32, 0), (0x10002#32, 0),
      (0x10003#32, 5), (0x10004#32, 0x68)], [], none⟩) 0x10000#32 = some 0x00000005#32 := by decide
theorem test_trace : emitTrace (start 0x2402002A []) =
    some ⟨0, 0x1000#32, [0x24#8, 0x02#8, 0x00#8, 0x2A#8]⟩ ∧ emitTrace (start 0x0000000D []) = none := by
  decide
theorem test_in_delay_slot : (at' State.reset 0x1004#32 0x1008#32).inDelaySlot = false ∧
    (at' State.reset 0x1004#32 0x1800#32).inDelaySlot = true := by decide

/-! ### Well-formedness: one ill-formed term for each check -/

/-- The parameters of `State.reset`. -/
abbrev good : ResetParams := Config.exampleParams

theorem test_params_ok : good.wellFormed = true ∧
    ({ good with initRegs := [(4, 7#32), (31, 9#32)] } : ResetParams).wellFormed = true := by decide
theorem test_entry_aligned : ({ good with entryPc := 0x1002#32 } : ResetParams).wellFormed = false := by
  decide
theorem test_entry_not_sentinel :
    ({ good with run := ⟨.permissive, 0x1000#32⟩ } : ResetParams).wellFormed = false := by decide
theorem test_entry_mapped : ({ good with entryPc := 0x3000#32 } : ResetParams).wellFormed = false := by
  decide
theorem test_mem0_canonical :
    ({ good with mem0 := ⟨good.mem0.map, [(0x1004, 0)]⟩ } : ResetParams).wellFormed = false ∧
    ({ good with mem0 := ⟨good.mem0.map, [(0x3000, 1)]⟩ } : ResetParams).wellFormed = false ∧
    ({ good with mem0 := ⟨good.mem0.map, [(0x1004, 1), (0x1000, 1)]⟩ } : ResetParams).wellFormed =
      false ∧
    ({ good with mem0 := ⟨[⟨0x1000, 0x1800⟩, ⟨0x1800, 0x2000⟩], []⟩ } : ResetParams).wellFormed =
      false := by decide
theorem test_init_regs_zero :
    ({ good with initRegs := [(0, 7#32)] } : ResetParams).wellFormed = false := by decide
theorem test_init_regs_sp :
    ({ good with initRegs := [(29, 7#32)] } : ResetParams).wellFormed = false := by decide
theorem test_init_regs_once :
    ({ good with initRegs := [(4, 7#32), (4, 8#32)] } : ResetParams).wellFormed = false := by decide
theorem test_resume_zero : (⟨[(0, 1#32)], [], [], none⟩ : Resume).admissible good.mem0 = false := by
  decide
theorem test_resume_register_once :
    (⟨[(2, 1#32), (2, 2#32)], [], [], none⟩ : Resume).admissible good.mem0 = false := by decide
theorem test_resume_byte_once :
    (⟨[], [(0x1000#32, 1), (0x1000#32, 2)], [], none⟩ : Resume).admissible good.mem0 = false := by
  decide
theorem test_resume_byte_mapped :
    (⟨[], [(0x3000#32, 1)], [], none⟩ : Resume).admissible good.mem0 = false := by decide
theorem test_resume_region_inside :
    (⟨[], [], [⟨0, 4294967297⟩], none⟩ : Resume).admissible good.mem0 = false := by decide
theorem test_resume_ok : (⟨[(2, 1#32)], [(0x1000#32, 1), (0x20000#32, 2)], [⟨0x20000, 0x21000⟩],
    some 0x1800#32⟩ : Resume).admissible good.mem0 = true := by decide
/-- Operands outside their field cannot be written: an index of 5 bits never reaches 32. -/
theorem test_instr_wellFormed : (Instr.add 31 31 31).WellFormed ∧ (32#5 : Reg) = 0 := by decide


/-! ### Witnesses: for each statement with hypotheses, states and operands that meet them -/

/-- A step that answers a next state with a property. -/
theorem step_next {s : State} (p : State → Bool) (h : onNext p (step s) = some true) :
    ∃ t, step s = .next t ∧ p t = true := next_of_onNext h

/-- DecodeOfEncode and EncodeOfDecode. -/
theorem witness_wellFormed_instr : (Instr.lw 31 0x0004 29).WellFormed ∧
    decode 0x8FBF0004#32 = .instr (.lw 31 0x0004 29) := by decide

/-- DecodeFollowsOpcodeTable: a word of a row, a word of the row's selector outside its mask, a word
of no row. -/
theorem witness_table : (⟨.add, 0xFC0007FF#32, 0x00000020#32⟩ : OpcodeRow) ∈ opcodeTable ∧
    selector 0x00000020#32 = selector 0x01095020#32 ∧
    0x01095020#32 &&& 0xFC0007FF#32 = 0x00000020#32 ∧
    selector 0x00000020#32 = selector 0x01095060#32 ∧
    0x01095060#32 &&& 0xFC0007FF#32 ≠ 0x00000020#32 ∧
    ∀ row ∈ opcodeTable, selector row.value ≠ selector 0x0000000D#32 := by decide

/-- The bytes of a word stand at `pc`. -/
abbrev bytesAtPc (s : State) (w : Word) : Prop :=
  ∀ k, k < 4 → s.mem.read (accessAddr s.pc k) = some (wordByte w k)

/-- FetchReadsFourBytesBigEndian, StepRunsTheDecodedInstruction: an instruction that completes, and one
that faults; also under the strict policy, and at the last word of a region. -/
theorem witness_step_completes :
    let s := start 0x01095021 [(8, 1#32)]
    s.status = .running ∧ AlignedFor s s.pc 4 ∧ bytesAtPc s 0x01095021#32 ∧
    decode 0x01095021#32 = .instr (.addu 10 8 9) ∧
    onNext (fun t => decide (t.status ≠ .faulted)) (exec (.addu 10 8 9) s) = some true := by
  unfold AlignedFor; decide
theorem witness_step_faults :
    let s := strict ((at' (start 0 [(8, 0x7FFFFFFF#32), (9, 1#32)]) 0x1FFC#32 0x1000#32).withFetchWord 32
      0x01095020)
    s.status = .running ∧ AlignedFor s s.pc 4 ∧ bytesAtPc s 0x01095020#32 ∧
    decode 0x01095020#32 = .instr (.add 10 8 9) ∧
    onNext (fun t => decide (t.status = .faulted)) (exec (.add 10 8 9) s) = some true := by
  unfold AlignedFor; decide

/-- Whether the fetch reads a word. -/
def fetches (s : State) (w : Word) : Bool :=
  match s.fetch with
  | .ok v => decide (v = w)
  | .error _ => false

theorem fetch_of_fetches {s : State} {w : Word} (h : fetches s w = true) : s.fetch = .ok w := by
  unfold fetches at h
  split at h <;> simp_all

/-- IllegalWordsFault. -/
theorem witness_reserved : (start 0x0020000F []).status = .running ∧
    (start 0x0020000F []).fetch = .ok 0x0020000F#32 ∧ decode 0x0020000F#32 = .reserved 0x0020000F#32 :=
  ⟨by decide, fetch_of_fetches (by decide), by decide⟩
theorem witness_invalid : (start 0x0000000D []).status = .running ∧
    (start 0x0000000D []).fetch = .ok 0x0000000D#32 ∧ decode 0x0000000D#32 = .invalid 0x0000000D#32 :=
  ⟨by decide, fetch_of_fetches (by decide), by decide⟩

/-- FaultingStepCommitsNothing, TraceRecordOfAStep, StepIndexInfluencesNothing, ParametersNeverChange. -/
theorem witness_faulting_step :
    ∃ t, step (start 0x0000000D []) = .next t ∧ decide (t.status = .faulted) = true :=
  step_next _ (by decide)
/-- CompletedStepChecksSentinel, TraceRecordOfAStep, StepIndexInfluencesNothing. -/
theorem witness_completed_step :
    ∃ t, step State.reset = .next t ∧ decide (t.status = .running) = true := step_next _ (by decide)
theorem witness_halting_step :
    ∃ t, step (at' State.reset 0x1000#32 0x5EAD0000#32) = .next t ∧
      decide (t.status = .halted) = true := step_next _ (by decide)

/-- StepEnabledExactlyWhenRunning. -/
theorem witness_statuses : State.reset.status = .running ∧
    ({ State.reset with status := .halted } : State).status = .halted ∧
    (State.reset.takeFault (.integerOverflow 0 0)).status = .faulted := by decide

/-- DelaySlotAlwaysExecutes: a plain instruction and a branch. -/
theorem witness_delay_slot_plain :
    (∃ t, exec (.addu 10 8 9) State.reset = .next t ∧ decide (t.status ≠ .faulted) = true) ∧
    (Instr.addu 10 8 9).opClass ≠ .trap ∧ (Instr.addu 10 8 9).opClass ≠ .branch ∧
    (Instr.addu 10 8 9).opClass ≠ .jump := ⟨next_of_onNext (by decide), by decide⟩
theorem witness_delay_slot_branch :
    (∃ t, exec (.beq 0 0 3) State.reset = .next t ∧ decide (t.status ≠ .faulted) = true) ∧
    (Instr.beq 0 0 3).opClass ≠ .trap := ⟨next_of_onNext (by decide), by decide⟩

/-- FetchFaultsComeFirst: each clause. -/
theorem witness_fetch_misaligned :
    (strict (at' State.reset 0x1002#32 0x1006#32)).status = .running ∧
    ¬ AlignedFor (strict (at' State.reset 0x1002#32 0x1006#32)) 0x1002#32 4 := by
  unfold AlignedFor; decide
theorem witness_fetch_unmapped :
    (strict (at' State.reset 0x2000#32 0x2004#32)).status = .running ∧
    AlignedFor (strict (at' State.reset 0x2000#32 0x2004#32)) 0x2000#32 4 ∧
    ¬ MappedFor (strict (at' State.reset 0x2000#32 0x2004#32)) 0x2000#32 4 := by
  unfold AlignedFor MappedFor; decide
theorem witness_fetch_fine : State.reset.status = .running ∧ AlignedFor State.reset 0x1FFC#32 4 ∧
    MappedFor State.reset 0x1FFC#32 4 := by
  unfold AlignedFor MappedFor; decide

/-- StepKeepsInvariant: the invariant holds of a state that steps, of a faulted one and of a halted
one. -/
theorem witness_inv : State.Inv (start 0xAE090001 [(16, 0x10000#32), (9, 0x11223344#32)]) ∧
    ∃ t, step (start 0xAE090001 [(16, 0x10000#32), (9, 0x11223344#32)]) = .next t ∧
      decide (t.status = .running) = true :=
  ⟨⟨by decide, by decide, by decide, by decide⟩, step_next _ (by decide)⟩
theorem witness_inv_faulted : State.Inv (State.reset.takeFault (.integerOverflow 0 0)) :=
  ⟨by decide, by decide, by decide, by decide⟩
theorem witness_inv_halted :
    State.Inv { State.reset with status := .halted, pc := 0x5EAD0000#32 } :=
  ⟨by decide, by decide, by decide, by decide⟩

/-- MapOnlyGrows: a mapped address, and a step. -/
theorem witness_map : State.reset.mem.mapped 0x1000 = true ∧
    (∃ t, step State.reset = .next t ∧ decide (t.status = .running) = true) ∧
    ∃ t, exec (.sw 9 0 16) (startData 0xAE090000 0x10000#32) = .next t ∧
      decide (t.status = .running) = true :=
  ⟨by decide, step_next _ (by decide), next_of_onNext (by decide)⟩

/-- ZeroRegisterReadsZero. -/
theorem witness_registers : (1 : Reg) ≠ 0 ∧ (31 : Reg) ≠ 1 := by decide

/-- HiLoWrittenOnlyByMultiplyDivide, OnlyStoresAndTrapsChangeMemory. -/
theorem witness_mfhi : (∃ t, exec (.mfhi 10) State.reset = .next t ∧ decide (t.hi = 0) = true) ∧
    (Instr.mfhi 10).mnemonic ∉ [Mnemonic.mult, .multu, .div, .divu, .madd, .maddu, .msub, .msubu,
      .mthi, .mtlo] ∧
    (Instr.mfhi 10).opClass ≠ .store ∧ (Instr.mfhi 10).opClass ≠ .trap :=
  ⟨next_of_onNext (by decide), by decide⟩

/-- StoresWriteNoRegisterButSc: SW leaves every register, SC writes 1. -/
theorem witness_store : (Instr.sw 9 0 16).opClass = .store ∧ (Instr.sc 9 0 16).opClass = .store ∧
    (∃ t, exec (.sw 9 0 16) (startData 0 0x10000#32) = .next t ∧
      decide (t.reg 9 = 0x11223344#32) = true) ∧
    ∃ t, exec (.sc 9 0 16) (startData 0 0x10000#32) = .next t ∧ decide (t.reg 9 = 1) = true :=
  ⟨by decide, by decide, next_of_onNext (by decide), next_of_onNext (by decide)⟩

/-- ResetMeetsInvariant, ResetPutsEveryPieceOfState: with INIT_REGS and memory that is not zero. -/
theorem witness_params :
    ({ good with initRegs := [(4, 7#32), (31, 9#32)],
                 mem0 := ⟨good.mem0.map, [(0x1000, 0x24), (0x1003, 0x2A)]⟩ } : ResetParams).wellFormed
      = true := by decide
theorem witness_init_regs : (∀ e ∈ [((4 : Reg), 7#32), (31, 9#32)], e.1 ≠ 0 ∧ e.1 ≠ 29) ∧
    ([((4 : Reg), 7#32), (31, 9#32)].map Prod.fst).Nodup := by simp

/-- MemReadChecksThenReads, MemWriteChecksThenWrites: each length that a policy constrains, at a
misaligned, an unmapped and a last mapped address. -/
theorem witness_access_misaligned :
    ¬ AlignedFor (strict State.reset) 0x10001#32 2 ∧ ¬ AlignedFor (strict State.reset) 0x10002#32 4 := by
  unfold AlignedFor; decide
theorem witness_access_unmapped :
    (∀ n, 1 ≤ n → n ≤ 4 → AlignedFor State.reset 0x10FFF#32 n) ∧
    AlignedFor (strict State.reset) 0x11000#32 4 ∧ ¬ MappedFor (strict State.reset) 0x11000#32 4 ∧
    ¬ MappedFor State.reset 0x10FFF#32 2 ∧ ¬ MappedFor State.reset 0x10FFE#32 3 := by
  unfold AlignedFor MappedFor
  refine ⟨fun n _ _ h => absurd h (by decide), ?_⟩; decide
theorem witness_access_mapped :
    MappedFor State.reset 0x10FFF#32 1 ∧ MappedFor State.reset 0x10FFE#32 2 ∧
    MappedFor State.reset 0x10FFD#32 3 ∧ MappedFor State.reset 0x10FFC#32 4 ∧
    ∀ k (h : k < [0x88#8, 0x99#8, 0xAA#8].length), (startData 0 0#32).mem.read (accessAddr 0x10000#32 k)
      = some [0x88#8, 0x99#8, 0xAA#8][k] := by
  unfold MappedFor; decide

/-- ReadAfterWrite: a write that is made, at two alignments. -/
theorem witness_write :
    (∃ m, State.reset.memWrite 0x10001#32 0x10001#32 4 0x11223344#32 = .ok m) ∧
    ∃ m, (strict State.reset).memWrite 0x10002#32 0x10002#32 2 0x11223344#32 = .ok m :=
  ⟨⟨_, rfl⟩, ⟨_, rfl⟩⟩

/-- StoreIsSeenByTheNextFetch (the last vector of V47). -/
theorem witness_store_code : (startData 0 0x1004#32).reg 16 + (0 : BitVec 16).signExtend 32 =
      (startData 0 0x1004#32).nextPc ∧
    ∃ t, exec (.sw 9 0 16) (startData 0 0x1004#32) = .next t ∧
      decide (t.status ≠ .faulted) = true := ⟨by decide, next_of_onNext (by decide)⟩

/-- DataAccessFaults: each clause. -/
theorem witness_access_forbidden :
    dataAccess (strict (startData 0 0x10001#32)) (.lw 9 0 16) =
      some (0x10001#32, 0x10001#32, 4, .read) ∧
    ¬ AlignedFor (strict (startData 0 0x10001#32)) 0x10001#32 4 := by
  unfold AlignedFor; decide
theorem witness_access_not_mapped :
    dataAccess (startData 0 0x10FFE#32) (.sw 9 0 16) = some (0x10FFE#32, 0x10FFE#32, 4, .write) ∧
    AlignedFor (startData 0 0x10FFE#32) 0x10FFE#32 4 ∧
    ¬ MappedFor (startData 0 0x10FFE#32) 0x10FFE#32 4 := by
  unfold AlignedFor MappedFor; decide
theorem witness_access_made :
    dataAccess (strict (startData 0 0x10001#32)) (.lwr 9 0 16) =
      some (0x10001#32, 0x10000#32, 2, .read) ∧
    AlignedFor (strict (startData 0 0x10001#32)) 0x10000#32 2 ∧
    MappedFor (strict (startData 0 0x10001#32)) 0x10000#32 2 := by
  unfold AlignedFor MappedFor; decide

/-- Every DecodesTo, first clause: the row's own value is a word of the row. -/
theorem witness_rows : ∀ row ∈ opcodeTable, ∃ w : Word, w &&& row.mask = row.value :=
  fun row h => ⟨row.value, test_table_rows.2.2 row h⟩
/-- Every DecodesTo, second clause, for ADD, SLL, BLEZ, LUI and SYNC. For a row whose mask is the opcode
alone or the opcode and funct alone, no word meets the clause's premises, as the spec has it. -/
theorem witness_reserved_rows :
    (selector 0x01095060#32 = selector 0x00000020#32 ∧ 0x01095060#32 &&& 0xFC0007FF#32 ≠ 0x00000020#32) ∧
    (selector 0x00200000#32 = selector 0x00000000#32 ∧ 0x00200000#32 &&& 0xFFE0003F#32 ≠ 0x00000000#32) ∧
    (selector 0x18010000#32 = selector 0x18000000#32 ∧ 0x18010000#32 &&& 0xFC1F0000#32 ≠ 0x18000000#32) ∧
    (selector 0x3C200000#32 = selector 0x3C000000#32 ∧ 0x3C200000#32 &&& 0xFFE00000#32 ≠ 0x3C000000#32) ∧
    selector 0x0000080F#32 = selector 0x0000000F#32 ∧ 0x0000080F#32 &&& 0xFFFFF83F#32 ≠ 0x0000000F#32 := by
  decide

/-- ResumeIsApplied: an answer with every part. -/
theorem witness_resume : (⟨[(2, 1#32), (31, 3#32)], [(0x1000#32, 1), (0x20FFF#32, 2)],
      [⟨0x20000, 0x21000⟩, ⟨0x1000, 0x1001⟩, ⟨0xFFFFF000, 0x100000000⟩], some 0x1800#32⟩ :
      Resume).admissible State.reset.mem = true ∧
    (⟨[], [], [], none⟩ : Resume).admissible State.reset.mem = true := by decide

/-- TrappingAddAndSubtract: each clause at the ends of the range. -/
theorem witness_ranges :
    let s := start 0 [(8, 0x7FFFFFFF#32), (9, 0x80000000#32), (10, 1#32)]
    (s.reg 8).toInt + (s.reg 0).toInt = 2147483647 ∧ (s.reg 8).toInt + (s.reg 10).toInt = 2147483648 ∧
    (s.reg 9).toInt - (s.reg 0).toInt = -2147483648 ∧ (s.reg 9).toInt - (s.reg 10).toInt = -2147483649 ∧
    (s.reg 8).toInt + (0x7FFF#16).toInt = 2147516414 ∧ (s.reg 9).toInt + (0#16).toInt = -2147483648 := by
  decide

/-- ConditionalMoves. -/
theorem witness_move : (start 0 [(9, 1#32)]).reg 9 ≠ 0 ∧ State.reset.reg 9 = 0 := by decide

/-- ByteAndHalfwordLoads, WordLoad, LoadLinkedRecordsNothing: bytes that can be read, under both policies. -/
theorem witness_loads :
    (startData 0 0x10000#32).reg 16 + (0xFFFF : BitVec 16).signExtend 32 = 0xFFFF#32 ∧
    (startData 0 0x10000#32).mem.read (accessAddr 0x10003#32 0) = some 0xBB#8 ∧
    AlignedFor (strict (startData 0 0x10000#32)) 0x10002#32 2 ∧
    (strict (startData 0 0x10000#32)).mem.read (accessAddr 0x10002#32 1) = some 0xBB#8 ∧
    AlignedFor (startData 0 0x10000#32) 0x10001#32 4 ∧
    (startData 0 0x10000#32).mem.read (accessAddr 0x10001#32 3) = some 0xCC#8 := by
  unfold AlignedFor; decide

/-- The fault clauses of the load and store statements: each length at an access that is not mapped, or
not wholly, and at one the strict policy forbids. -/
theorem witness_load_store_faults :
    (startData 0 0x11000#32).reg 16 + (0 : BitVec 16).signExtend 32 = 0x11000#32 ∧
    ¬ MappedFor (startData 0 0x11000#32) 0x11000#32 1 ∧
    ¬ MappedFor (strict (startData 0 0x11000#32)) 0x11000#32 2 ∧
    AlignedFor (strict (startData 0 0x11000#32)) 0x11000#32 2 ∧
    ¬ MappedFor (startData 0 0x11000#32) 0x11001#32 (4 - 0x11001 % 4) ∧
    ¬ MappedFor (startData 0 0x11000#32) (0x11002#32 - BitVec.ofNat 32 (0x11002 % 4)) (0x11002 % 4 + 1) ∧
    ¬ AlignedFor (strict (startData 0 0x10001#32)) 0x10001#32 2 ∧
    ¬ AlignedFor (strict (startData 0 0x10001#32)) 0x10002#32 4 := by
  unfold AlignedFor MappedFor; decide

/-- LeftAndRightLoads, LeftAndRightStores: every place of EA in its word. -/
theorem witness_left_right :
    MappedFor State.reset 0x10000#32 (4 - 0x10000 % 4) ∧ MappedFor State.reset 0x10001#32 (4 - 0x10001 % 4) ∧
    MappedFor State.reset 0x10FFF#32 (4 - 0x10FFF % 4) ∧ MappedFor State.reset 0x10000#32 (0x10000 % 4 + 1) ∧
    MappedFor State.reset (0x10003#32 - BitVec.ofNat 32 (0x10003 % 4)) (0x10003 % 4 + 1) := by
  unfold MappedFor; decide

/-- ByteHalfwordWordStores, StoreConditionalAlwaysSucceeds. -/
theorem witness_stores : (startData 0 0x10000#32).reg 16 + (4 : BitVec 16).signExtend 32 = 0x10004#32 ∧
    MappedFor (startData 0 0x10000#32) 0x10FFF#32 1 ∧
    AlignedFor (strict (startData 0 0x10000#32)) 0x10002#32 2 ∧
    MappedFor (strict (startData 0 0x10000#32)) 0x10002#32 2 ∧
    AlignedFor (strict (startData 0 0x10000#32)) 0x10004#32 4 ∧
    MappedFor (strict (startData 0 0x10000#32)) 0x10004#32 4 := by
  unfold AlignedFor MappedFor; decide

/-- Divisions: each clause, and MultiplyAccumulate's accumulator. -/
theorem witness_divisions :
    let s := (start 0 [(8, 0x80000000#32), (9, 0xFFFFFFFF#32), (10, 7#32)]).setHiLo 1#32 2#32
    (s.reg 0).toInt = 0 ∧ (s.reg 8).toInt = -2147483648 ∧ (s.reg 9).toInt = -1 ∧ (s.reg 10).toInt = 7 ∧
    s.hi.toNat * 2 ^ 32 + s.lo.toNat = 4294967298 := by decide

end Sys2Proof.Tests
end

/-! PROOFS. `MemWrite` of `20_memory.md` R36: one rule for each answer it can give, from which the
obligation follows. -/
namespace Sys2Proof.Proofs
open Sys2Proof.Machine Sys2Proof.Laws

section
variable {s : State} {addr : Word} {n : Nat} (ea v : Word)

/-- The first check of R36. -/
theorem memWrite_of_not_alignedFor (ha : ¬ AlignedFor s addr n) :
    s.memWrite ea addr n v = .error (.addressError s.pc ea .write) :=
  if_pos ((alignFault_eq_true _ _ _).2 ha)

/-- The second check of R36, made only after the first has passed. -/
theorem memWrite_of_not_mappedFor (ha : AlignedFor s addr n) (hm : ¬ MappedFor s addr n) :
    s.memWrite ea addr n v = .error (.unmappedAccess s.pc ea .write) := by
  rw [← allMapped_eq_mappedFor] at hm
  simp [State.memWrite, (alignFault_eq_false _ _ _).2 ha, hm]

/-- The bytes are written once both checks of R36 have passed. -/
theorem memWrite_of_mappedFor (ha : AlignedFor s addr n) (hm : MappedFor s addr n) :
    s.memWrite ea addr n v = .ok (s.mem.writeBE addr n v) := by
  rw [← allMapped_eq_mappedFor] at hm
  simp [State.memWrite, (alignFault_eq_false _ _ _).2 ha, hm]

end

/-- Settles O24: the three rules of `MemWrite`, with what `writeBE` stores and keeps. -/
theorem memWriteChecksThenWrites : Obligations.MemWriteChecksThenWrites := by
  intro s ea addr v n _ hn
  refine ⟨memWrite_of_not_alignedFor ea v, memWrite_of_not_mappedFor ea v, fun ha hm => ?_⟩
  have hmapped : s.mem.allMapped addr n = true := (allMapped_eq_mappedFor _ _ _).2 hm
  exact ⟨_, memWrite_of_mappedFor ea v ha hm, map_writeBE _ _ _ _,
    storedBytes_writeBE _ _ _ _ _ hn hmapped rfl⟩

end Sys2Proof.Proofs

/-! PROOFS. The fetch of `30_encoding.md` R53: `MemRead` (`20_memory.md` R35) puts together again the
four bytes of a word. -/
namespace Sys2Proof.Proofs
open Sys2Proof.Machine Sys2Proof.Laws

/-- Joining the next byte of a word to the bytes above it. -/
theorem joinByte_ushiftRight (w : Word) (n : Nat) :
    joinByte (w >>> (n + 8)) ((w >>> n).setWidth 8) = w >>> n := by
  ext i hi
  by_cases h8 : i < 8
  · simp [joinByte, h8, hi]
  · have hsum : n + 8 + (i - 8) = n + i := by omega
    simp [joinByte, h8, hi, hsum]

/-- The four bytes of a word, the most significant first, join to the word. -/
theorem foldl_joinByte_wordByte (w : Word) :
    ((List.range 4).map (wordByte w)).foldl joinByte 0 = w := by
  have hnone : w >>> 32 = 0 := BitVec.ushiftRight_eq_zero (Nat.le_refl 32)
  calc ((List.range 4).map (wordByte w)).foldl joinByte 0
      = joinByte (joinByte (joinByte (joinByte (w >>> 32)
          ((w >>> 24).setWidth 8)) ((w >>> 16).setWidth 8)) ((w >>> 8).setWidth 8))
          ((w >>> 0).setWidth 8) := by rw [hnone]; rfl
    _ = w >>> 0 := by
      rw [joinByte_ushiftRight w 24, joinByte_ushiftRight w 16, joinByte_ushiftRight w 8,
        joinByte_ushiftRight w 0]
    _ = w := BitVec.ushiftRight_zero w

/-- The value read is the word whose four bytes stand at the address. -/
theorem readBE_of_wordBytes {m : Memory} {addr w : Word}
    (h : ∀ k, k < 4 → m.read (accessAddr addr k) = some (wordByte w k)) :
    m.readBE addr 4 0 = some w := by
  have hread := readBE_of_bytes m ((List.range 4).map (wordByte w)) addr 0
    fun k hk => by simpa using h k (by simpa using hk)
  rwa [foldl_joinByte_wordByte] at hread

/-- The answer of R35 once its check of the alignment has passed and the bytes could be read. -/
theorem memRead_of_readBE {s : State} {addr v : Word} {n : Nat} (ea : Word) (kind : AccessKind)
    (ha : AlignedFor s addr n) (hv : s.mem.readBE addr n 0 = some v) :
    s.memRead ea addr n kind = .ok v := by
  rw [State.memRead, (alignFault_eq_false _ _ _).2 ha, hv]; rfl

/-- Settles O5: the fetch is a `MemRead` of the four bytes at `pc`. -/
theorem fetchReadsFourBytesBigEndian : Obligations.FetchReadsFourBytesBigEndian := by
  intro s w ha hbytes
  exact memRead_of_readBE s.pc .fetch ha (readBE_of_wordBytes hbytes)

end Sys2Proof.Proofs

/-! PROOFS. Step 6 of `40_step_cycle.md` R70 with the halting check of R76: what the bookkeeping makes
of a state that has committed an instruction. -/
namespace Sys2Proof.Proofs
open Sys2Proof.Machine Sys2Proof.Laws

@[simp] theorem pc_bookkeep (u : State) : u.bookkeep.pc = u.pc := by
  unfold State.bookkeep; split <;> rfl

theorem status_bookkeep_of_running {u : State} (hu : u.status = .running) :
    u.bookkeep.status = if u.pc = u.params.terminalSentinel then .halted else .running := by
  simp [State.bookkeep, hu]

theorem stepIndex_bookkeep_of_running {u : State} (hu : u.status = .running) :
    u.bookkeep.stepIndex = u.stepIndex + 1 := by
  simp [State.bookkeep, hu]

/-- A step that does not fault is the bookkeeping of a running state, in which the instruction has
touched neither the count of steps nor the fault record. -/
theorem exists_committed_of_step {s t : State} (h : step s = .next t) (ht : t.Safe) :
    ∃ u : State, t = u.bookkeep ∧ u.status = .running ∧ u.stepIndex = s.stepIndex ∧
      u.faultRecord = s.faultRecord := by
  obtain ⟨hs, ⟨r, rfl, -⟩ | ⟨_, _, u, -, -, -, rfl, hu⟩⟩ := step_cases h
  · exact absurd rfl ht
  · refine ⟨u, rfl, ?_⟩
    obtain hplain | ⟨_, r, n, -, rfl⟩ := hu
    · exact ⟨hplain.status.trans hs, hplain.stepIndex, hplain.faultRecord⟩
    · simp [hs]

/-- No step is made in a halted state. -/
theorem step_ne_next_of_halted {t : State} (ht : t.status = .halted) (u : State) :
    step t ≠ .next u := by
  intro h
  have hrunning : t.status = .running := (step_cases h).1
  simp [ht] at hrunning

/-- Settles O9: the bookkeeping alone decides the status of a step that completes. -/
theorem completedStepChecksSentinel : Obligations.CompletedStepChecksSentinel := by
  intro s t h ht
  obtain ⟨u, rfl, hu, hindex, hrecord⟩ := exists_committed_of_step h ht
  have hstatus := status_bookkeep_of_running hu
  refine ⟨?_, ?_, step_ne_next_of_halted, ?_, ?_⟩
  · by_cases hpc : u.pc = u.params.terminalSentinel <;> simp [hstatus, hpc]
  · by_cases hpc : u.pc = u.params.terminalSentinel <;> simp [hstatus, hpc]
  · rw [stepIndex_bookkeep_of_running hu, hindex]
  · rw [faultRecord_bookkeep, hrecord]

end Sys2Proof.Proofs

/-! PROOFS. How rows of `30_encoding.md` R57 and R58 decode: from one arm of the decoder to `DecodesTo`
the row's mask and value. -/
namespace Sys2Proof.Proofs
open Sys2Proof.Machine Sys2Proof.Laws

theorem decode_of_opcode_special {w : Word} (h : fieldOpcode w = 0x00#6) :
    decode w = decodeSpecial w := by
  unfold decode; rw [h]; rfl

/-- The mask of a `SPECIAL` row with three register operands keeps opcode, `shamt` and function code. -/
theorem masked_special_iff (w : Word) (fn : BitVec 6) :
    w &&& 0xFC0007FF#32 = encodeR 0x00#6 0#5 0#5 0#5 0#5 fn ↔
      (fieldOpcode w = 0x00#6 ∧ fieldFunct w = fn) ∧ fieldShamt w = 0#5 := by
  have hmask : 0xFC0007FF#32 = encodeR (.allOnes 6) 0#5 0#5 0#5 (.allOnes 5) (.allOnes 6) := rfl
  rw [masked_iff_fields, hmask]
  simp only [fieldOpcode_encodeR, fieldRs_encodeR, fieldRt_encodeR, fieldRd_encodeR,
    fieldShamt_encodeR, fieldFunct_encodeR, BitVec.and_allOnes, BitVec.and_zero]
  tauto

/-- The mask of an immediate row keeps the opcode alone. -/
theorem masked_primary_iff (w : Word) (op : BitVec 6) :
    w &&& 0xFC000000#32 = encodeR op 0#5 0#5 0#5 0#5 0#6 ↔ fieldOpcode w = op := by
  have hmask : 0xFC000000#32 = encodeR (.allOnes 6) 0#5 0#5 0#5 0#5 0#6 := rfl
  rw [masked_iff_fields, hmask]
  simp only [fieldOpcode_encodeR, fieldRs_encodeR, fieldRt_encodeR, fieldRd_encodeR,
    fieldShamt_encodeR, fieldFunct_encodeR, BitVec.and_allOnes, BitVec.and_zero, and_true]

/-- A `SPECIAL` row of function code `fn`, whose one field that must be zero is `shamt` (R58, R61). -/
theorem decodesTo_special {value : Word} {f : Word → Instr} (fn : BitVec 6)
    (hvalue : value = encodeR 0x00#6 0#5 0#5 0#5 0#5 fn)
    (harm : ∀ w, fieldFunct w = fn →
      decodeSpecial w = .checked (decide (fieldShamt w = 0#5)) w (f w)) :
    DecodesTo 0xFC0007FF#32 value f := by
  subst hvalue
  have hsel (w : Word) : selector w = selector (encodeR 0x00#6 0#5 0#5 0#5 0#5 fn) ↔
      fieldOpcode w = 0x00#6 ∧ fieldFunct w = fn := by
    rw [selector_special.2 ⟨fieldOpcode_encodeR .., fieldFunct_encodeR ..⟩, selector_special]
  refine decodesTo_of (fun w => decide (fieldShamt w = 0#5))
    (fun w hw => (hsel w).2 ((masked_special_iff w fn).1 hw).1) fun w hw => ?_
  obtain ⟨hop, hfn⟩ := (hsel w).1 hw
  exact ⟨by rw [decode_of_opcode_special hop, harm w hfn], by simp [masked_special_iff, hop, hfn]⟩

/-- A row of the primary map, of opcode `op`, none of whose fields must be zero (R57). -/
theorem decodesTo_primary {value : Word} {f : Word → Instr} (op : BitVec 6)
    (hvalue : value = encodeR op 0#5 0#5 0#5 0#5 0#6)
    (hop : op ≠ 0x00#6 ∧ op ≠ 0x1C#6 ∧ op ≠ 0x01#6)
    (harm : ∀ w, fieldOpcode w = op → decode w = .instr (f w)) :
    DecodesTo 0xFC000000#32 value f := by
  subst hvalue
  have hsel (w : Word) : selector w = selector (encodeR op 0#5 0#5 0#5 0#5 0#6) ↔
      fieldOpcode w = op := by
    rw [selector_primary.2 ⟨fieldOpcode_encodeR .., hop⟩, selector_primary, and_iff_left hop]
  refine decodesTo_of (fun _ => true)
    (fun w hw => (hsel w).2 ((masked_primary_iff w op).1 hw)) fun w hw => ?_
  have hw' : fieldOpcode w = op := (hsel w).1 hw
  exact ⟨harm w hw', by simp [masked_primary_iff, hw']⟩

end Sys2Proof.Proofs

/-! PROOFS. Arithmetic (`41_arithmetic.md`): the values written, and the instructions that write them
through `writeReg`. -/
namespace Sys2Proof.Proofs
open Sys2Proof.Machine Sys2Proof.Laws

/-! ### Values -/

theorem toInt_sext16 (imm : BitVec 16) : (sext16 imm).toInt = imm.toInt :=
  BitVec.toInt_signExtend_of_le (by decide)

theorem toNat_sub_eq_emod (a b : Word) :
    ((a - b).toNat : Int) = (a.toNat - b.toNat : Int) % 2 ^ 32 := by
  bv_omega

/-- The signed value of the immediate and the unsigned value of its extension differ by 0 or 2^32. -/
theorem toNat_add_sext16 (a : Word) (imm : BitVec 16) :
    ((a + sext16 imm).toNat : Int) = (a.toNat + imm.toInt : Int) % 2 ^ 32 := by
  rw [← toInt_sext16, BitVec.toInt_eq_toNat_cond]
  split <;> bv_omega

theorem compareResult_signedLess (a b : Word) :
    compareResult (signedLess a b) = if a.toInt < b.toInt then 1 else 0 := by
  simp [compareResult, signedLess]

theorem compareResult_unsignedLess (a b : Word) :
    compareResult (unsignedLess a b) = if a.toNat < b.toNat then 1 else 0 := by
  simp [compareResult, unsignedLess]

/-! ### Instructions -/

/-- An instruction whose meaning is `writeReg` writes the value, of which any property may be told. -/
theorem exists_writesReg {i : Instr} {s : State} {rd : Reg} {v : Word} {P : Word → Prop}
    (hexec : exec i s = writeReg rd v s) (hv : P v) :
    ∃ t u, exec i s = .next t ∧ WritesReg s t rd u ∧ P u := by
  obtain ⟨t, ht, hwrites⟩ := writeReg_spec s rd v
  exact ⟨t, v, hexec.trans ht, hwrites, hv⟩

/-- A conditional move writes the register, or only advances. -/
theorem writeReg_or_advance_spec (s : State) (rd : Reg) (v : Word) (c : Prop) [Decidable c] :
    ∃ t, (if c then writeReg rd v s else .next s.advance) = .next t ∧
      (c → WritesReg s t rd v) ∧ (¬ c → OnlyAdvances s t) := by
  by_cases hc : c
  · obtain ⟨t, ht, hwrites⟩ := writeReg_spec s rd v
    exact ⟨t, (if_pos hc).trans ht, fun _ => hwrites, absurd hc⟩
  · exact ⟨s.advance, if_neg hc, fun h => absurd h hc, fun _ => advance_spec s⟩

/-- Settles O33: each instruction is a `writeReg` of a sum or difference of words. -/
theorem wrappingAddAndSubtract : Obligations.WrappingAddAndSubtract := by
  refine ⟨decodesTo_special 0x21#6 rfl fun w h => by rw [decodeSpecial, h]; rfl,
    decodesTo_special 0x23#6 rfl fun w h => by rw [decodeSpecial, h]; rfl,
    decodesTo_primary 0x09#6 rfl (by decide) fun w h => by rw [decode, h]; rfl, ?_, ?_, ?_⟩
  · intro s rd rs rt
    exact exists_writesReg (v := s.reg rs + s.reg rt) rfl (BitVec.toNat_add ..)
  · intro s rd rs rt
    exact exists_writesReg (v := s.reg rs - s.reg rt) rfl (toNat_sub_eq_emod ..)
  · intro s rt rs imm
    exact exists_writesReg (v := s.reg rs + sext16 imm) rfl (toNat_add_sext16 ..)

/-- Settles O35: each instruction is a `writeReg` of a comparison's result. -/
theorem setOnLessThan : Obligations.SetOnLessThan := by
  refine ⟨decodesTo_special 0x2A#6 rfl fun w h => by rw [decodeSpecial, h]; rfl,
    decodesTo_special 0x2B#6 rfl fun w h => by rw [decodeSpecial, h]; rfl,
    decodesTo_primary 0x0A#6 rfl (by decide) fun w h => by rw [decode, h]; rfl,
    decodesTo_primary 0x0B#6 rfl (by decide) fun w h => by rw [decode, h]; rfl, ?_, ?_, ?_, ?_⟩
  · intro s rd rs rt
    rw [← compareResult_signedLess]
    exact writeReg_spec s rd _
  · intro s rd rs rt
    rw [← compareResult_unsignedLess]
    exact writeReg_spec s rd _
  · intro s rt rs imm
    rw [← toInt_sext16, ← compareResult_signedLess]
    exact writeReg_spec s rt _
  · intro s rt rs imm
    rw [← compareResult_unsignedLess]
    exact writeReg_spec s rt _

/-- Settles O36: MOVZ and MOVN are the same conditional move, on opposite conditions. -/
theorem conditionalMoves : Obligations.ConditionalMoves := by
  refine ⟨decodesTo_special 0x0A#6 rfl fun w h => by rw [decodeSpecial, h]; rfl,
    decodesTo_special 0x0B#6 rfl fun w h => by rw [decodeSpecial, h]; rfl, ?_, ?_⟩
  · intro s rd rs rt
    exact writeReg_or_advance_spec s rd (s.reg rs) (s.reg rt = 0)
  · intro s rd rs rt
    obtain ⟨t, ht, hmove, hkeep⟩ := writeReg_or_advance_spec s rd (s.reg rs) (s.reg rt ≠ 0)
    exact ⟨t, ht, hmove, fun h => hkeep (not_not_intro h)⟩

end Sys2Proof.Proofs

/-! PROOFS. How a row of `30_encoding.md` R57 decodes when a field of it must be zero (R61): from its arm
of the decoder and what its mask says of the fields to `DecodesTo`. -/
namespace Sys2Proof.Proofs
open Sys2Proof.Machine Sys2Proof.Laws

/-- A row of the primary map, of opcode `op`, that asks the check `z` of its words. -/
theorem decodesTo_primary_checked {mask value : Word} {f : Word → Instr} (op : BitVec 6)
    (z : Word → Bool) (hvalue : value = encodeR op 0#5 0#5 0#5 0#5 0#6)
    (hop : op ≠ 0x00#6 ∧ op ≠ 0x1C#6 ∧ op ≠ 0x01#6)
    (hrow : ∀ w, w &&& mask = value ↔ fieldOpcode w = op ∧ z w = true)
    (harm : ∀ w, fieldOpcode w = op → decode w = .checked (z w) w (f w)) :
    DecodesTo mask value f := by
  have hsel (w : Word) : selector w = selector value ↔ fieldOpcode w = op := by
    rw [hvalue, selector_primary.2 ⟨fieldOpcode_encodeR .., hop⟩, selector_primary,
      and_iff_left hop]
  refine decodesTo_of z (fun w hw => (hsel w).2 ((hrow w).1 hw).1) fun w hw => ?_
  have hw' : fieldOpcode w = op := (hsel w).1 hw
  exact ⟨harm w hw', by rw [hrow, and_iff_right hw']⟩

/-- The mask of an immediate row whose `rs` field must be zero keeps the opcode and that field. -/
theorem masked_primary_rs_iff (w : Word) (op : BitVec 6) :
    w &&& 0xFFE00000#32 = encodeR op 0#5 0#5 0#5 0#5 0#6 ↔
      fieldOpcode w = op ∧ fieldRs w = 0#5 := by
  have hmask : 0xFFE00000#32 = encodeR (.allOnes 6) (.allOnes 5) 0#5 0#5 0#5 0#6 := rfl
  rw [masked_iff_fields, hmask]
  simp only [fieldOpcode_encodeR, fieldRs_encodeR, fieldRt_encodeR, fieldRd_encodeR,
    fieldShamt_encodeR, fieldFunct_encodeR, BitVec.and_allOnes, BitVec.and_zero, and_true]

end Sys2Proof.Proofs

/-! PROOFS. Logical (`42_logical.md`): the bits of the values written, and the instructions that write
them through `writeReg`. -/
namespace Sys2Proof.Proofs
open Sys2Proof.Machine Sys2Proof.Laws

/-! ### Values -/

/-- The extension adds zeros: above bit 15 both sides are false. -/
theorem getLsbD_zext16 (imm : BitVec 16) (k : Nat) : (zext16 imm).getLsbD k = imm.getLsbD k := by
  rw [zext16, ← BitVec.setWidth'_eq (by decide), BitVec.getLsbD_setWidth']

theorem toNat_upperImm (imm : BitVec 16) : (upperImm imm).toNat = imm.toNat * 65536 :=
  calc (upperImm imm).toNat = imm.toNat <<< 16 ||| (0#16).toNat := BitVec.toNat_append imm 0#16
    _ = imm.toNat * 65536 := by rw [BitVec.toNat_zero, Nat.or_zero, Nat.shiftLeft_eq]

theorem getLsbD_nor (a b : Word) {k : Nat} (hk : k < 32) :
    (~~~(a ||| b)).getLsbD k = !(a.getLsbD k || b.getLsbD k) := by
  rw [BitVec.getLsbD_not, BitVec.getLsbD_or, decide_eq_true hk, Bool.true_and]

/-! ### Instructions -/

/-- Settles O37: each instruction is a `writeReg` of a bitwise operation of two registers. -/
theorem bitwiseRegisterOperations : Obligations.BitwiseRegisterOperations := by
  refine ⟨decodesTo_special 0x24#6 rfl fun w h => by rw [decodeSpecial, h]; rfl,
    decodesTo_special 0x25#6 rfl fun w h => by rw [decodeSpecial, h]; rfl,
    decodesTo_special 0x26#6 rfl fun w h => by rw [decodeSpecial, h]; rfl,
    decodesTo_special 0x27#6 rfl fun w h => by rw [decodeSpecial, h]; rfl, ?_, ?_, ?_, ?_⟩
  · intro s rd rs rt
    exact exists_writesReg (v := s.reg rs &&& s.reg rt) rfl fun _ => BitVec.getLsbD_and
  · intro s rd rs rt
    exact exists_writesReg (v := s.reg rs ||| s.reg rt) rfl fun _ => BitVec.getLsbD_or
  · intro s rd rs rt
    exact exists_writesReg (v := s.reg rs ^^^ s.reg rt) rfl fun _ => BitVec.getLsbD_xor
  · intro s rd rs rt
    exact exists_writesReg (v := ~~~(s.reg rs ||| s.reg rt)) rfl fun _ => getLsbD_nor _ _

/-- Settles O38: each instruction is a `writeReg` of a bitwise operation with the zero-extended
immediate, or of the immediate in the upper half. -/
theorem bitwiseImmediateOperations : Obligations.BitwiseImmediateOperations := by
  refine ⟨decodesTo_primary 0x0C#6 rfl (by decide) fun w h => by rw [decode, h]; rfl,
    decodesTo_primary 0x0D#6 rfl (by decide) fun w h => by rw [decode, h]; rfl,
    decodesTo_primary 0x0E#6 rfl (by decide) fun w h => by rw [decode, h]; rfl,
    decodesTo_primary_checked 0x0F#6 (fun w => decide (fieldRs w = 0#5)) rfl (by decide)
      (fun w => by rw [decide_eq_true_iff]; exact masked_primary_rs_iff w 0x0F#6)
      fun w h => by rw [decode, h]; rfl, ?_, ?_, ?_, ?_⟩
  · intro s rt rs imm
    exact exists_writesReg (v := s.reg rs &&& zext16 imm) rfl fun k => by
      rw [BitVec.getLsbD_and, getLsbD_zext16]
  · intro s rt rs imm
    exact exists_writesReg (v := s.reg rs ||| zext16 imm) rfl fun k => by
      rw [BitVec.getLsbD_or, getLsbD_zext16]
  · intro s rt rs imm
    exact exists_writesReg (v := s.reg rs ^^^ zext16 imm) rfl fun k => by
      rw [BitVec.getLsbD_xor, getLsbD_zext16]
  · intro s rt imm
    exact exists_writesReg (v := upperImm imm) rfl (toNat_upperImm imm)

end Sys2Proof.Proofs

/-! PROOFS. How a row of `30_encoding.md` R58 decodes when its fields that must be zero are others than
`shamt` (R61): from its arm of the decoder and what its mask says of the fields to `DecodesTo`. -/
namespace Sys2Proof.Proofs
open Sys2Proof.Machine Sys2Proof.Laws

/-- A row of the `SPECIAL` map, of function code `fn`, that asks the check `z` of its words. -/
theorem decodesTo_special_checked {mask value : Word} {f : Word → Instr} (fn : BitVec 6)
    (z : Word → Bool) (hvalue : value = encodeR 0x00#6 0#5 0#5 0#5 0#5 fn)
    (hrow : ∀ w, w &&& mask = value ↔ (fieldOpcode w = 0x00#6 ∧ fieldFunct w = fn) ∧ z w = true)
    (harm : ∀ w, fieldFunct w = fn → decodeSpecial w = .checked (z w) w (f w)) :
    DecodesTo mask value f := by
  have hsel (w : Word) : selector w = selector value ↔
      fieldOpcode w = 0x00#6 ∧ fieldFunct w = fn := by
    rw [hvalue, selector_special.2 ⟨fieldOpcode_encodeR .., fieldFunct_encodeR ..⟩,
      selector_special]
  refine decodesTo_of z (fun w hw => (hsel w).2 ((hrow w).1 hw).1) fun w hw => ?_
  have hw' := (hsel w).1 hw
  exact ⟨by rw [decode_of_opcode_special hw'.1, harm w hw'.2], by rw [hrow, and_iff_right hw']⟩

/-- The mask of a shift by an immediate keeps opcode, `rs` and function code. -/
theorem masked_special_rs_iff (w : Word) (fn : BitVec 6) :
    w &&& 0xFFE0003F#32 = encodeR 0x00#6 0#5 0#5 0#5 0#5 fn ↔
      (fieldOpcode w = 0x00#6 ∧ fieldFunct w = fn) ∧ fieldRs w = 0#5 := by
  have hmask : 0xFFE0003F#32 = encodeR (.allOnes 6) (.allOnes 5) 0#5 0#5 0#5 (.allOnes 6) := rfl
  rw [masked_iff_fields, hmask]
  simp only [fieldOpcode_encodeR, fieldRs_encodeR, fieldRt_encodeR, fieldRd_encodeR,
    fieldShamt_encodeR, fieldFunct_encodeR, BitVec.and_allOnes, BitVec.and_zero]
  tauto

/-- A `SPECIAL` row of function code `fn`, whose one field that must be zero is `rs`. -/
theorem decodesTo_special_rs {value : Word} {f : Word → Instr} (fn : BitVec 6)
    (hvalue : value = encodeR 0x00#6 0#5 0#5 0#5 0#5 fn)
    (harm : ∀ w, fieldFunct w = fn →
      decodeSpecial w = .checked (decide (fieldRs w = 0#5)) w (f w)) :
    DecodesTo 0xFFE0003F#32 value f :=
  decodesTo_special_checked fn (fun w => decide (fieldRs w = 0#5)) hvalue
    (fun w => by rw [hvalue, decide_eq_true_iff]; exact masked_special_rs_iff w fn) harm

end Sys2Proof.Proofs

/-! PROOFS. Shifts (`43_shift.md`): a shift by `n` places as multiplication or division by `2^n`, and
the instructions that write its value through `writeReg`. -/
namespace Sys2Proof.Proofs
open Sys2Proof.Machine Sys2Proof.Laws

/-! ### Values -/

theorem toNat_shiftLeft_eq_mul_pow (v : Word) (n : Nat) :
    (v <<< n).toNat = v.toNat * 2 ^ n % 2 ^ 32 := by
  rw [BitVec.toNat_shiftLeft, Nat.shiftLeft_eq]

theorem toNat_ushiftRight_eq_div_pow (v : Word) (n : Nat) :
    (v >>> n).toNat = v.toNat / 2 ^ n := by
  rw [BitVec.toNat_ushiftRight, Nat.shiftRight_eq_div_pow]

/-- Integer division by a positive number rounds toward minus infinity, as R107 asks. -/
theorem toInt_sshiftRight_eq_div_pow (v : Word) (n : Nat) :
    (v.sshiftRight n).toInt = v.toInt / 2 ^ n := by
  rw [BitVec.toInt_sshiftRight, Int.shiftRight_eq_div_pow]
  norm_cast

/-- The low five bits are the remainder by 32 (R104). -/
theorem shiftAmount_eq_mod (v : Word) : shiftAmount v = v.toNat % 32 :=
  BitVec.extractLsb'_toNat 0 5 v

/-! ### Instructions -/

/-- Settles O40: each instruction is a `writeReg` of `x[rt]` shifted by the `shamt` field. -/
theorem shiftsByImmediate : Obligations.ShiftsByImmediate := by
  refine ⟨decodesTo_special_rs 0x00#6 rfl fun w h => by rw [decodeSpecial, h]; rfl,
    decodesTo_special_rs 0x02#6 rfl fun w h => by rw [decodeSpecial, h]; rfl,
    decodesTo_special_rs 0x03#6 rfl fun w h => by rw [decodeSpecial, h]; rfl, ?_, ?_, ?_⟩
  · intro s rd rt sa
    exact exists_writesReg (v := s.reg rt <<< sa.toNat) rfl (toNat_shiftLeft_eq_mul_pow ..)
  · intro s rd rt sa
    exact exists_writesReg (v := s.reg rt >>> sa.toNat) rfl (toNat_ushiftRight_eq_div_pow ..)
  · intro s rd rt sa
    exact exists_writesReg (v := (s.reg rt).sshiftRight sa.toNat) rfl
      (toInt_sshiftRight_eq_div_pow ..)

/-- Settles O41: each instruction is a `writeReg` of `x[rt]` shifted by `shiftAmount` of `x[rs]`. -/
theorem shiftsByRegister : Obligations.ShiftsByRegister := by
  refine ⟨decodesTo_special 0x04#6 rfl fun w h => by rw [decodeSpecial, h]; rfl,
    decodesTo_special 0x06#6 rfl fun w h => by rw [decodeSpecial, h]; rfl,
    decodesTo_special 0x07#6 rfl fun w h => by rw [decodeSpecial, h]; rfl, ?_, ?_, ?_⟩ <;>
    intro s rd rt rs <;> rw [← shiftAmount_eq_mod]
  · exact exists_writesReg (v := s.reg rt <<< shiftAmount (s.reg rs)) rfl
      (toNat_shiftLeft_eq_mul_pow ..)
  · exact exists_writesReg (v := s.reg rt >>> shiftAmount (s.reg rs)) rfl
      (toNat_ushiftRight_eq_div_pow ..)
  · exact exists_writesReg (v := (s.reg rt).sshiftRight (shiftAmount (s.reg rs))) rfl
      (toInt_sshiftRight_eq_div_pow ..)

end Sys2Proof.Proofs

/-! PROOFS. How a row whose mask keeps opcode and `rt` decodes: BLEZ and BGTZ of `30_encoding.md` R57,
whose `rt` field must be zero (R61), and the rows of the `REGIMM` map (R59), which it selects. -/
namespace Sys2Proof.Proofs
open Sys2Proof.Machine Sys2Proof.Laws

/-- The mask of a branch that compares with zero keeps opcode and `rt`. -/
theorem masked_primary_rt_iff (w : Word) (op : BitVec 6) (rt : Reg) :
    w &&& 0xFC1F0000#32 = encodeR op 0#5 rt 0#5 0#5 0#6 ↔ fieldOpcode w = op ∧ fieldRt w = rt := by
  have hmask : 0xFC1F0000#32 = encodeR (.allOnes 6) 0#5 (.allOnes 5) 0#5 0#5 0#6 := rfl
  rw [masked_iff_fields, hmask]
  simp only [fieldOpcode_encodeR, fieldRs_encodeR, fieldRt_encodeR, fieldRd_encodeR,
    fieldShamt_encodeR, fieldFunct_encodeR, BitVec.and_allOnes, BitVec.and_zero, and_true, true_and]

/-- A row of the primary map, of opcode `op`, whose one field that must be zero is `rt`. -/
theorem decodesTo_primary_rt {value : Word} {f : Word → Instr} (op : BitVec 6)
    (hvalue : value = encodeR op 0#5 0#5 0#5 0#5 0#6)
    (hop : op ≠ 0x00#6 ∧ op ≠ 0x1C#6 ∧ op ≠ 0x01#6)
    (harm : ∀ w, fieldOpcode w = op → decode w = .checked (decide (fieldRt w = 0#5)) w (f w)) :
    DecodesTo 0xFC1F0000#32 value f :=
  decodesTo_primary_checked op (fun w => decide (fieldRt w = 0#5)) hvalue hop
    (fun w => by rw [hvalue, decide_eq_true_iff]; exact masked_primary_rt_iff w op 0#5) harm

theorem decode_of_opcode_regimm {w : Word} (h : fieldOpcode w = 0x01#6) :
    decode w = decodeRegimm w := by
  unfold decode; rw [h]; rfl

/-- A row of the `REGIMM` map, selected by its `rt` field; no field of it must be zero. -/
theorem decodesTo_regimm {value : Word} {f : Word → Instr} (rt : Reg)
    (hvalue : value = encodeR 0x01#6 0#5 rt 0#5 0#5 0#6)
    (harm : ∀ w, fieldRt w = rt → decodeRegimm w = .instr (f w)) :
    DecodesTo 0xFC1F0000#32 value f := by
  subst hvalue
  have hrow (w : Word) : selector w = selector (encodeR 0x01#6 0#5 rt 0#5 0#5 0#6) ↔
      w &&& 0xFC1F0000#32 = encodeR 0x01#6 0#5 rt 0#5 0#5 0#6 := by
    rw [selector_regimm.2 ⟨fieldOpcode_encodeR .., fieldRt_encodeR ..⟩, selector_regimm,
      masked_primary_rt_iff]
  refine decodesTo_of (fun _ => true) (fun w => (hrow w).2) fun w hw => ?_
  obtain ⟨hop, hrt⟩ := (masked_primary_rt_iff w 0x01#6 rt).1 ((hrow w).1 hw)
  exact ⟨(decode_of_opcode_regimm hop).trans (harm w hrt), iff_of_true rfl ((hrow w).1 hw)⟩

end Sys2Proof.Proofs

/-! PROOFS. Branches (`44_branch.md`): the signed comparisons with zero by sign bit and zero, and the
instructions that branch through `branchWhen`. -/
namespace Sys2Proof.Proofs
open Sys2Proof.Machine Sys2Proof.Laws

/-! ### Conditions (R111 (d)) -/

theorem toInt_lt_zero_iff_msb (v : Word) : v.toInt < 0 ↔ v.msb = true := by
  rw [BitVec.msb_eq_toInt, decide_eq_true_iff]

theorem zero_le_toInt_iff_msb (v : Word) : 0 ≤ v.toInt ↔ v.msb = false := by
  rw [← not_lt, toInt_lt_zero_iff_msb, Bool.not_eq_true]

theorem toInt_le_zero_iff_msb (v : Word) : v.toInt ≤ 0 ↔ v.msb = true ∨ v = 0 := by
  rw [le_iff_lt_or_eq, toInt_lt_zero_iff_msb, ← BitVec.toInt_zero, BitVec.toInt_inj]; rfl

theorem zero_lt_toInt_iff_msb (v : Word) : 0 < v.toInt ↔ v.msb = false ∧ v ≠ 0 := by
  rw [← not_le, toInt_le_zero_iff_msb, not_or, Bool.not_eq_true]

/-! ### Instructions -/

/-- An instruction whose meaning is `branchWhen` takes its branch under any condition that says the
same as the one it decides. -/
theorem exists_transfers_nextIf {i : Instr} {s : State} {c p : Prop} [Decidable c] [Decidable p]
    {o : BitVec 16} (hexec : exec i s = branchWhen (decide c) o s) (hc : c ↔ p) :
    ∃ t, exec i s = .next t ∧ Transfers s t (nextIf s p (s.pc + 4 + (o.signExtend 32 <<< 2))) := by
  obtain ⟨t, ht, htransfers⟩ := branchWhen_spec s (decide c) o
  have hnext : (if decide c then branchTarget s.pc o else s.nextPc + 4) =
      nextIf s p (s.pc + 4 + (o.signExtend 32 <<< 2)) := by
    rw [decide_eq_decide.2 hc, nextIf, branchTarget, sext16, if_congr decide_eq_true_iff rfl rfl]
  exact ⟨t, hexec.trans ht, hnext ▸ htransfers⟩

/-- Settles O42: BEQ and BNE decide the stated conditions themselves. -/
theorem equalityBranches : Obligations.EqualityBranches := by
  refine ⟨decodesTo_primary 0x04#6 rfl (by decide) fun w h => by rw [decode, h]; rfl,
    decodesTo_primary 0x05#6 rfl (by decide) fun w h => by rw [decode, h]; rfl, ?_, ?_⟩
  · intro s rs rt o
    exact exists_transfers_nextIf (c := s.reg rs = s.reg rt) rfl Iff.rfl
  · intro s rs rt o
    exact exists_transfers_nextIf (c := s.reg rs ≠ s.reg rt) rfl Iff.rfl

/-- Settles O43: each instruction decides a signed comparison, told by sign bit and zero. -/
theorem signBranches : Obligations.SignBranches := by
  refine ⟨decodesTo_primary_rt 0x06#6 rfl (by decide) fun w h => by rw [decode, h]; rfl,
    decodesTo_primary_rt 0x07#6 rfl (by decide) fun w h => by rw [decode, h]; rfl,
    decodesTo_regimm 0x00#5 rfl fun w h => by rw [decodeRegimm, h]; rfl,
    decodesTo_regimm 0x01#5 rfl fun w h => by rw [decodeRegimm, h]; rfl, ?_, ?_, ?_, ?_⟩
  · intro s rs o
    exact exists_transfers_nextIf rfl (toInt_le_zero_iff_msb (s.reg rs))
  · intro s rs o
    exact exists_transfers_nextIf rfl (zero_lt_toInt_iff_msb (s.reg rs))
  · intro s rs o
    exact exists_transfers_nextIf rfl (toInt_lt_zero_iff_msb (s.reg rs))
  · intro s rs o
    exact exists_transfers_nextIf rfl (zero_le_toInt_iff_msb (s.reg rs))

end Sys2Proof.Proofs

/-! PROOFS. How a row of `30_encoding.md` R58 decodes whose fields that must be zero are `rt`, `rd` and
`shamt` (R61): JR, and the moves to HI and to LO. -/
namespace Sys2Proof.Proofs
open Sys2Proof.Machine Sys2Proof.Laws

/-- The mask of a `SPECIAL` row whose one operand is `rs` keeps every other field. -/
theorem masked_special_rt_rd_shamt_iff (w : Word) (fn : BitVec 6) :
    w &&& 0xFC1FFFFF#32 = encodeR 0x00#6 0#5 0#5 0#5 0#5 fn ↔
      (fieldOpcode w = 0x00#6 ∧ fieldFunct w = fn) ∧
        fieldRt w = 0#5 ∧ fieldRd w = 0#5 ∧ fieldShamt w = 0#5 := by
  have hmask : 0xFC1FFFFF#32 =
      encodeR (.allOnes 6) 0#5 (.allOnes 5) (.allOnes 5) (.allOnes 5) (.allOnes 6) := rfl
  rw [masked_iff_fields, hmask]
  simp only [fieldOpcode_encodeR, fieldRs_encodeR, fieldRt_encodeR, fieldRd_encodeR,
    fieldShamt_encodeR, fieldFunct_encodeR, BitVec.and_allOnes, BitVec.and_zero]
  tauto

/-- A `SPECIAL` row of function code `fn`, whose one operand field is `rs`. -/
theorem decodesTo_special_rt_rd_shamt {value : Word} {f : Word → Instr} (fn : BitVec 6)
    (hvalue : value = encodeR 0x00#6 0#5 0#5 0#5 0#5 fn)
    (harm : ∀ w, fieldFunct w = fn → decodeSpecial w =
      .checked (decide (fieldRt w = 0#5 ∧ fieldRd w = 0#5 ∧ fieldShamt w = 0#5)) w (f w)) :
    DecodesTo 0xFC1FFFFF#32 value f :=
  decodesTo_special_checked fn
    (fun w => decide (fieldRt w = 0#5 ∧ fieldRd w = 0#5 ∧ fieldShamt w = 0#5)) hvalue
    (fun w => by rw [hvalue, decide_eq_true_iff]; exact masked_special_rt_rd_shamt_iff w fn) harm

end Sys2Proof.Proofs

/-! PROOFS. Jumps (`45_jump.md`): the target of J and JAL put together from its three parts, and the
instructions that jump through `State.branchTo`. -/
namespace Sys2Proof.Proofs
open Sys2Proof.Machine Sys2Proof.Laws

/-! ### The target (R120 (b)) -/

theorem and_regionMask_eq_append (a : Word) :
    a &&& 0xF0000000#32 = a.extractLsb' 28 4 ++ 0#28 := by
  have ha : a.extractLsb' 28 4 ++ a.extractLsb' 0 28 = a :=
    (BitVec.extractLsb'_append_extractLsb'_eq_extractLsb' rfl).trans BitVec.extractLsb'_eq_self
  calc a &&& 0xF0000000#32
    _ = (a.extractLsb' 28 4 ++ a.extractLsb' 0 28) &&& (BitVec.allOnes 4 ++ 0#28) :=
      congrArg (· &&& 0xF0000000#32) ha.symm
    _ = a.extractLsb' 28 4 ++ 0#28 := by
      rw [BitVec.and_append, BitVec.and_allOnes, BitVec.and_zero]

theorem setWidth_shiftLeft_two_eq_append (index : BitVec 26) :
    index.setWidth 32 <<< 2 = (0#4 ++ (index ++ 0#2) : Word) := by
  have hshift : (index.setWidth 32 <<< 2).toNat = index.toNat * 4 := by
    rw [BitVec.toNat_shiftLeft, Nat.shiftLeft_eq, BitVec.toNat_setWidth]
    omega
  have happend : (0#4 ++ (index ++ 0#2)).toNat = index.toNat * 4 := by
    rw [BitVec.toNat_append, BitVec.toNat_append]
    simp [Nat.shiftLeft_eq]
  exact BitVec.eq_of_toNat_eq (hshift.trans happend.symm)

/-- Bits 31:28 come from the delay slot's address, bits 27:2 from the index; bits 1:0 are zero. -/
theorem jumpTarget_eq_append (here : Word) (index : BitVec 26) :
    jumpTarget here index = (here + 4).extractLsb' 28 4 ++ index ++ 0#2 := by
  rw [jumpTarget, and_regionMask_eq_append, setWidth_shiftLeft_two_eq_append, BitVec.or_append,
    BitVec.or_zero, BitVec.zero_or, BitVec.append_assoc]
  rfl

/-! ### Instructions -/

/-- Settles O45: J is a `branchTo` the target, JAL the same after the link. -/
theorem regionJumps : Obligations.RegionJumps := by
  refine ⟨decodesTo_primary 0x02#6 rfl (by decide) fun w h => by rw [decode, h]; rfl,
    decodesTo_primary 0x03#6 rfl (by decide) fun w h => by rw [decode, h]; rfl, ?_, ?_⟩ <;>
    intro s index <;> rw [← jumpTarget_eq_append]
  · exact ⟨s.branchTo (jumpTarget s.pc index), rfl, branchTo_spec s _⟩
  · exact ⟨_, rfl, linkTo_spec s 31 (jumpTarget s.pc index)⟩

/-- Settles O46: JR is a `branchTo` what `x[rs]` holds. -/
theorem jumpRegister : Obligations.JumpRegister :=
  ⟨decodesTo_special_rt_rd_shamt 0x08#6 rfl fun w h => by rw [decodeSpecial, h]; rfl,
    fun s rs => ⟨s.branchTo (s.reg rs), rfl, branchTo_spec s (s.reg rs)⟩⟩

end Sys2Proof.Proofs

/-! PROOFS. Loads (`46_load.md`): the bytes of an access put together to the value read, and the
instructions whose meaning is `loadReg`. -/
namespace Sys2Proof.Proofs
open Sys2Proof.Machine Sys2Proof.Laws

/-! ### Values -/

/-- One more byte below a value of any width. -/
theorem joinByte_setWidth {n : Nat} (x : BitVec n) (b : Byte) :
    joinByte (x.setWidth 32) b = (x ++ b).setWidth 32 := by
  ext i hi
  by_cases h8 : i < 8
  · simp [joinByte, BitVec.getLsbD_append, h8]
  · have hb : b.getLsbD i = false := BitVec.getLsbD_of_ge b i (by omega)
    simp [joinByte, BitVec.getLsbD_append, h8, hb]

theorem foldl_joinByte_one (b0 : Byte) : [b0].foldl joinByte 0 = b0.setWidth 32 := by
  simp [joinByte]

theorem foldl_joinByte_two (b0 b1 : Byte) :
    [b0, b1].foldl joinByte 0 = (b0 ++ b1).setWidth 32 :=
  calc [b0, b1].foldl joinByte 0
    _ = joinByte (b0.setWidth 32) b1 := congrArg (joinByte · b1) (foldl_joinByte_one b0)
    _ = (b0 ++ b1).setWidth 32 := joinByte_setWidth b0 b1

theorem foldl_joinByte_four (b0 b1 b2 b3 : Byte) :
    [b0, b1, b2, b3].foldl joinByte 0 = b0 ++ b1 ++ b2 ++ b3 :=
  calc [b0, b1, b2, b3].foldl joinByte 0
    _ = joinByte (joinByte ((b0 ++ b1).setWidth 32) b2) b3 :=
      congrArg (fun v => joinByte (joinByte v b2) b3) (foldl_joinByte_two b0 b1)
    _ = (b0 ++ b1 ++ b2 ++ b3).setWidth 32 := by rw [joinByte_setWidth, joinByte_setWidth]
    _ = b0 ++ b1 ++ b2 ++ b3 := BitVec.setWidth_eq _

theorem signedByte_setWidth (b : Byte) : signedByte (b.setWidth 32) = b.signExtend 32 := by
  rw [signedByte, BitVec.setWidth_setWidth_of_le b (by decide), BitVec.setWidth_eq]

theorem signedHalf_setWidth (h : BitVec 16) : signedHalf (h.setWidth 32) = h.signExtend 32 := by
  rw [signedHalf, BitVec.setWidth_setWidth_of_le h (by decide), BitVec.setWidth_eq]

/-! ### Instructions whose meaning is `loadReg` -/

section
variable {i : Instr} {s : State} {rt : Reg} {ea addr : Word} {n : Nat} {f : Word → Word}

theorem faultsWhereUnmapped_of_loadReg (hexec : exec i s = loadReg rt ea addr n f s)
    (ha : AlignedFor s addr n) : FaultsWhereUnmapped s i ea addr n .read :=
  fun hm => hexec.trans ((loadReg_spec s rt ea addr n f).2.1 ha hm)

theorem faultsByPolicy_of_loadReg (hexec : exec i s = loadReg rt ea ea n f s) :
    FaultsByPolicy s i ea n .read :=
  ⟨fun ha => hexec.trans ((loadReg_spec s rt ea ea n f).1 ha), faultsWhereUnmapped_of_loadReg hexec⟩

/-- A load writes `f` of the bytes at the address, joined the most significant first. -/
theorem writesReg_of_loadReg {bytes : List Byte} {v : Word}
    (hexec : exec i s = loadReg rt ea addr bytes.length f s) (ha : AlignedFor s addr bytes.length)
    (hbytes : ∀ k (hk : k < bytes.length), s.mem.read (accessAddr addr k) = some bytes[k])
    (hv : f (bytes.foldl joinByte 0) = v) :
    ∃ t, exec i s = .next t ∧ WritesReg s t rt v := by
  have hread := memRead_of_readBE ea .read ha (readBE_of_bytes s.mem bytes addr 0 hbytes)
  have hload : loadReg rt ea addr bytes.length f s = writeReg rt v s := by
    rw [loadReg, hread, ← hv]
  obtain ⟨t, ht, hwrites⟩ := writeReg_spec s rt v
  exact ⟨t, (hexec.trans hload).trans ht, hwrites⟩

end

/-! ### Instructions -/

/-- Settles O48: each instruction is a `loadReg` of one or two bytes. -/
theorem byteAndHalfwordLoads : Obligations.ByteAndHalfwordLoads := by
  refine ⟨decodesTo_primary 0x20#6 rfl (by decide) fun w h => by rw [decode, h]; rfl,
    decodesTo_primary 0x24#6 rfl (by decide) fun w h => by rw [decode, h]; rfl,
    decodesTo_primary 0x21#6 rfl (by decide) fun w h => by rw [decode, h]; rfl,
    decodesTo_primary 0x25#6 rfl (by decide) fun w h => by rw [decode, h]; rfl, ?_, ?_, ?_⟩
  · rintro s rt base o ea rfl
    have ha : AlignedFor s (s.reg base + o.signExtend 32) 1 :=
      alignedFor_of_ne s _ (by decide) (by decide)
    exact ⟨faultsWhereUnmapped_of_loadReg rfl ha, faultsWhereUnmapped_of_loadReg rfl ha,
      faultsByPolicy_of_loadReg rfl, faultsByPolicy_of_loadReg rfl⟩
  · rintro s rt base o ea b0 rfl h0
    have ha : AlignedFor s (s.reg base + o.signExtend 32) [b0].length :=
      alignedFor_of_ne s _ (by simp) (by simp)
    have hbytes : ∀ k (hk : k < [b0].length),
        s.mem.read (accessAddr (s.reg base + o.signExtend 32) k) = some [b0][k] := by
      simpa using h0
    exact ⟨writesReg_of_loadReg rfl ha hbytes (by rw [foldl_joinByte_one, signedByte_setWidth]),
      writesReg_of_loadReg rfl ha hbytes (foldl_joinByte_one b0)⟩
  · rintro s rt base o ea b0 b1 rfl ha h0 h1
    have hbytes : ∀ k (hk : k < [b0, b1].length),
        s.mem.read (accessAddr (s.reg base + o.signExtend 32) k) = some [b0, b1][k]
      | 0, _ => h0
      | 1, _ => h1
    exact ⟨writesReg_of_loadReg rfl ha hbytes (by rw [foldl_joinByte_two, signedHalf_setWidth]),
      writesReg_of_loadReg rfl ha hbytes (foldl_joinByte_two b0 b1)⟩

/-- Settles O49: LW is a `loadReg` of four bytes, written as they are read. -/
theorem wordLoad : Obligations.WordLoad := by
  refine ⟨decodesTo_primary 0x23#6 rfl (by decide) fun w h => by rw [decode, h]; rfl, ?_, ?_⟩
  · rintro s rt base o ea rfl
    exact faultsByPolicy_of_loadReg rfl
  · rintro s rt base o ea b0 b1 b2 b3 rfl ha h0 h1 h2 h3
    have hbytes : ∀ k (hk : k < [b0, b1, b2, b3].length),
        s.mem.read (accessAddr (s.reg base + o.signExtend 32) k) = some [b0, b1, b2, b3][k]
      | 0, _ => h0
      | 1, _ => h1
      | 2, _ => h2
      | 3, _ => h3
    exact writesReg_of_loadReg rfl ha hbytes (foldl_joinByte_four b0 b1 b2 b3)

end Sys2Proof.Proofs

/-! PROOFS. Stores (`47_store.md`): the instructions whose meaning is `storeMem`. -/
namespace Sys2Proof.Proofs
open Sys2Proof.Machine Sys2Proof.Laws

/-! ### Instructions whose meaning is `storeMem` -/

section
variable {i : Instr} {s : State} {ea addr v : Word} {n : Nat} {after : State → State}

theorem faultsWhereUnmapped_of_storeMem (hexec : exec i s = storeMem ea addr n v after s)
    (ha : AlignedFor s addr n) : FaultsWhereUnmapped s i ea addr n .write :=
  fun hm => hexec.trans ((storeMem_spec s ea addr n v after).2.1 ha hm)

theorem faultsByPolicy_of_storeMem (hexec : exec i s = storeMem ea ea n v after s) :
    FaultsByPolicy s i ea n .write :=
  ⟨fun ha => hexec.trans ((storeMem_spec s ea ea n v after).1 ha),
    faultsWhereUnmapped_of_storeMem hexec⟩

/-- Once both checks have passed, a store with nothing to write `after` stores its bytes only. -/
theorem stores_of_storeMem (hexec : exec i s = storeMem ea addr n v id s) (hn : n ≤ 4)
    (ha : AlignedFor s addr n) (hm : MappedFor s addr n) :
    ∃ t, exec i s = .next t ∧ Stores s t addr n v := by
  obtain ⟨t, ht, hstores⟩ := storeMem_stores s ea addr n v hn ha hm
  exact ⟨t, hexec.trans ht, hstores⟩

end

/-! ### Instructions -/

/-- Settles O52: each instruction is a `storeMem` of one, two or four bytes at EA; the policy admits a
single byte at every address. -/
theorem byteHalfwordWordStores : Obligations.ByteHalfwordWordStores := by
  refine ⟨decodesTo_primary 0x28#6 rfl (by decide) fun w h => by rw [decode, h]; rfl,
    decodesTo_primary 0x29#6 rfl (by decide) fun w h => by rw [decode, h]; rfl,
    decodesTo_primary 0x2B#6 rfl (by decide) fun w h => by rw [decode, h]; rfl, ?_⟩
  rintro s rt base o ea rfl
  have ha : AlignedFor s (s.reg base + o.signExtend 32) 1 :=
    alignedFor_of_ne s _ (by decide) (by decide)
  refine ⟨?_, ?_, ?_, ?_, ?_, ?_⟩
  · exact faultsWhereUnmapped_of_storeMem rfl ha
  · exact faultsByPolicy_of_storeMem rfl
  · exact faultsByPolicy_of_storeMem rfl
  · exact stores_of_storeMem rfl (by decide) ha
  · exact stores_of_storeMem rfl (by decide)
  · exact stores_of_storeMem rfl (by decide)

end Sys2Proof.Proofs

/-! PROOFS. How the rows of `30_encoding.md` R58 and R59 decode whose fields that must be zero (R61) are
all but `rd`, the moves from HI and from LO; or `rd` and `shamt`, MADD and those like it. -/
namespace Sys2Proof.Proofs
open Sys2Proof.Machine Sys2Proof.Laws

/-- The mask of a `SPECIAL` row whose one operand is `rd` keeps every other field. -/
theorem masked_special_rs_rt_shamt_iff (w : Word) (fn : BitVec 6) :
    w &&& 0xFFFF07FF#32 = encodeR 0x00#6 0#5 0#5 0#5 0#5 fn ↔
      (fieldOpcode w = 0x00#6 ∧ fieldFunct w = fn) ∧
        fieldRs w = 0#5 ∧ fieldRt w = 0#5 ∧ fieldShamt w = 0#5 := by
  have hmask : 0xFFFF07FF#32 =
      encodeR (.allOnes 6) (.allOnes 5) (.allOnes 5) 0#5 (.allOnes 5) (.allOnes 6) := rfl
  rw [masked_iff_fields, hmask]
  simp only [fieldOpcode_encodeR, fieldRs_encodeR, fieldRt_encodeR, fieldRd_encodeR,
    fieldShamt_encodeR, fieldFunct_encodeR, BitVec.and_allOnes, BitVec.and_zero]
  tauto

/-- A `SPECIAL` row of function code `fn`, whose one operand field is `rd`. -/
theorem decodesTo_special_rs_rt_shamt {value : Word} {f : Word → Instr} (fn : BitVec 6)
    (hvalue : value = encodeR 0x00#6 0#5 0#5 0#5 0#5 fn)
    (harm : ∀ w, fieldFunct w = fn → decodeSpecial w =
      .checked (decide (fieldRs w = 0#5 ∧ fieldRt w = 0#5 ∧ fieldShamt w = 0#5)) w (f w)) :
    DecodesTo 0xFFFF07FF#32 value f :=
  decodesTo_special_checked fn
    (fun w => decide (fieldRs w = 0#5 ∧ fieldRt w = 0#5 ∧ fieldShamt w = 0#5)) hvalue
    (fun w => by rw [hvalue, decide_eq_true_iff]; exact masked_special_rs_rt_shamt_iff w fn) harm

theorem decode_of_opcode_special2 {w : Word} (h : fieldOpcode w = 0x1C#6) :
    decode w = decodeSpecial2 w := by
  unfold decode; rw [h]; rfl

/-- A row of the `SPECIAL2` map, of function code `fn`, that asks the check `z` of its words. -/
theorem decodesTo_special2_checked {mask value : Word} {f : Word → Instr} (fn : BitVec 6)
    (z : Word → Bool) (hvalue : value = encodeR 0x1C#6 0#5 0#5 0#5 0#5 fn)
    (hrow : ∀ w, w &&& mask = value ↔ (fieldOpcode w = 0x1C#6 ∧ fieldFunct w = fn) ∧ z w = true)
    (harm : ∀ w, fieldFunct w = fn → decodeSpecial2 w = .checked (z w) w (f w)) :
    DecodesTo mask value f := by
  have hsel (w : Word) : selector w = selector value ↔
      fieldOpcode w = 0x1C#6 ∧ fieldFunct w = fn := by
    rw [hvalue, selector_special2.2 ⟨fieldOpcode_encodeR .., fieldFunct_encodeR ..⟩,
      selector_special2]
  refine decodesTo_of z (fun w hw => (hsel w).2 ((hrow w).1 hw).1) fun w hw => ?_
  obtain ⟨hop, hfn⟩ := (hsel w).1 hw
  exact ⟨(decode_of_opcode_special2 hop).trans (harm w hfn), by simp [hrow, hop, hfn]⟩

/-- The mask of a row whose operands are `rs` and `rt` keeps every other field. -/
theorem masked_rd_shamt_iff (w : Word) (op fn : BitVec 6) :
    w &&& 0xFC00FFFF#32 = encodeR op 0#5 0#5 0#5 0#5 fn ↔
      (fieldOpcode w = op ∧ fieldFunct w = fn) ∧ fieldRd w = 0#5 ∧ fieldShamt w = 0#5 := by
  have hmask : 0xFC00FFFF#32 =
      encodeR (.allOnes 6) 0#5 0#5 (.allOnes 5) (.allOnes 5) (.allOnes 6) := rfl
  rw [masked_iff_fields, hmask]
  simp only [fieldOpcode_encodeR, fieldRs_encodeR, fieldRt_encodeR, fieldRd_encodeR,
    fieldShamt_encodeR, fieldFunct_encodeR, BitVec.and_allOnes, BitVec.and_zero]
  tauto

/-- A `SPECIAL2` row of function code `fn`, whose operand fields are `rs` and `rt`. -/
theorem decodesTo_special2_rd_shamt {value : Word} {f : Word → Instr} (fn : BitVec 6)
    (hvalue : value = encodeR 0x1C#6 0#5 0#5 0#5 0#5 fn)
    (harm : ∀ w, fieldFunct w = fn → decodeSpecial2 w =
      .checked (decide (fieldRd w = 0#5 ∧ fieldShamt w = 0#5)) w (f w)) :
    DecodesTo 0xFC00FFFF#32 value f :=
  decodesTo_special2_checked fn (fun w => decide (fieldRd w = 0#5 ∧ fieldShamt w = 0#5)) hvalue
    (fun w => by rw [hvalue, decide_eq_true_iff]; exact masked_rd_shamt_iff w 0x1C#6 fn) harm

end Sys2Proof.Proofs

/-! PROOFS. HI and LO (`48_muldiv.md`): the moves, and the pair as one number modulo 2^64 to which the
instructions that write through `writeAcc` add, or from which they subtract, a product. -/
namespace Sys2Proof.Proofs
open Sys2Proof.Machine Sys2Proof.Laws

/-! ### Values -/

/-- The number of the pair `HI ‖ LO` (R21). -/
theorem toNat_append_word (hi lo : Word) :
    (hi ++ lo : DWord).toNat = hi.toNat * 2 ^ 32 + lo.toNat := by
  rw [BitVec.toNat_append, ← Nat.shiftLeft_add_eq_or_of_lt lo.isLt, Nat.shiftLeft_eq]

/-- What any integer leaves in the 64-bit pair. -/
theorem toNat_ofInt_dword (i : Int) : ((BitVec.ofInt 64 i).toNat : Int) = i % 2 ^ 64 := by
  rw [BitVec.toNat_ofInt]
  exact Int.toNat_of_nonneg (Int.emod_nonneg i (by decide))

theorem toNat_add_ofInt (a : DWord) (p : Int) :
    ((a + BitVec.ofInt 64 p).toNat : Int) = (a.toNat + p) % 2 ^ 64 := by
  rw [← toNat_ofInt_dword, BitVec.ofInt_add, BitVec.ofInt_natCast, BitVec.ofNat_toNat,
    BitVec.setWidth_eq]

theorem toNat_sub_ofInt (a : DWord) (p : Int) :
    ((a - BitVec.ofInt 64 p).toNat : Int) = (a.toNat - p) % 2 ^ 64 := by
  rw [BitVec.sub_eq_add_neg, ← BitVec.ofInt_neg, toNat_add_ofInt, Int.sub_eq_add_neg]

theorem unsignedProduct_eq_ofInt (a b : Word) :
    unsignedProduct a b = BitVec.ofInt 64 (a.toNat * b.toNat : Nat) := rfl

/-! ### Instructions -/

/-- An instruction whose meaning is `writeAcc` leaves the number written in HI and LO. -/
theorem exists_writesHiLo {i : Instr} {s : State} {v : DWord} {z : Int}
    (hexec : exec i s = writeAcc v s) (hv : (v.toNat : Int) = z) :
    ∃ t hi lo, exec i s = .next t ∧ WritesHiLo s t hi lo ∧
      ((hi.toNat * 2 ^ 32 + lo.toNat : Nat) : Int) = z := by
  obtain ⟨t, hi, lo, ht, hwrites, happend⟩ := writeAcc_spec s v
  exact ⟨t, hi, lo, hexec.trans ht, hwrites, by rw [← toNat_append_word, happend, hv]⟩

/-- Settles O57: MFHI and MFLO are a `writeReg` of HI or LO, MTHI and MTLO a `writeHiLo` that writes one
of the pair back as it was. -/
theorem movesOfHiAndLo : Obligations.MovesOfHiAndLo :=
  ⟨decodesTo_special_rs_rt_shamt 0x10#6 rfl fun w h => by rw [decodeSpecial, h]; rfl,
    decodesTo_special_rs_rt_shamt 0x12#6 rfl fun w h => by rw [decodeSpecial, h]; rfl,
    decodesTo_special_rt_rd_shamt 0x11#6 rfl fun w h => by rw [decodeSpecial, h]; rfl,
    decodesTo_special_rt_rd_shamt 0x13#6 rfl fun w h => by rw [decodeSpecial, h]; rfl,
    fun s rd => writeReg_spec s rd s.hi, fun s rd => writeReg_spec s rd s.lo,
    fun s rs => writeHiLo_spec s (s.reg rs) s.lo, fun s rs => writeHiLo_spec s s.hi (s.reg rs)⟩

/-- Settles O58: each instruction is a `writeAcc` of the old pair plus or minus a product, which is the
integer product taken modulo 2^64. -/
theorem multiplyAccumulate : Obligations.MultiplyAccumulate := by
  refine ⟨decodesTo_special2_rd_shamt 0x00#6 rfl fun w h => by rw [decodeSpecial2, h]; rfl,
    decodesTo_special2_rd_shamt 0x01#6 rfl fun w h => by rw [decodeSpecial2, h]; rfl,
    decodesTo_special2_rd_shamt 0x04#6 rfl fun w h => by rw [decodeSpecial2, h]; rfl,
    decodesTo_special2_rd_shamt 0x05#6 rfl fun w h => by rw [decodeSpecial2, h]; rfl, ?_⟩
  rintro s rs rt acc rfl
  have hacc : s.acc.toNat = s.hi.toNat * 2 ^ 32 + s.lo.toNat := toNat_append_word s.hi s.lo
  rw [← hacc]
  refine ⟨?_, ?_, ?_, ?_⟩
  · exact exists_writesHiLo rfl (toNat_add_ofInt s.acc ((s.reg rs).toInt * (s.reg rt).toInt))
  · have hmaddu := exists_writesHiLo (i := .maddu rs rt) (s := s) rfl
      (toNat_add_ofInt s.acc ((s.reg rs).toNat * (s.reg rt).toNat : Nat))
    exact_mod_cast hmaddu
  · exact exists_writesHiLo rfl (toNat_sub_ofInt s.acc ((s.reg rs).toInt * (s.reg rt).toInt))
  · exact exists_writesHiLo rfl
      (toNat_sub_ofInt s.acc ((s.reg rs).toNat * (s.reg rt).toNat : Nat))

end Sys2Proof.Proofs

/-! PROOFS. What a step leaves: either it is a fault, which keeps everything but the status and the
record, or an instruction commits and the bookkeeping follows (`40_step_cycle.md` R70, R75). The rules
of the whole machine follow from these two cases. -/
namespace Sys2Proof.Proofs
open Sys2Proof.Machine Sys2Proof.Laws

/-! ### An instruction that commits -/

/-- What every instruction that completes leaves, SYSCALL among them, whatever the shim answers. -/
structure Commits (s u : State) : Prop where
  zero : u.regs[0] = s.regs[0]
  status : u.status = s.status
  faultRecord : u.faultRecord = s.faultRecord
  params : u.params = s.params
  mapped : ∀ a, s.mem.mapped a = true → u.mem.mapped a = true
  wf : s.mem.wf → u.mem.wf

theorem commits_of_plain {i : Instr} {s u : State} (h : Plain i s u) : Commits s u where
  zero := h.zero
  status := h.status
  faultRecord := h.faultRecord
  params := h.params
  mapped a ha := by rwa [Memory.mapped, h.map]
  wf := h.wf

theorem mapped_writeMapped (m : Memory) (l : List (Word × Byte)) (a : Nat) :
    (writeMapped m l).mapped a = m.mapped a := by
  rw [Memory.mapped, map_writeMapped, Memory.mapped]

/-- No answer takes an address out of MAP. -/
theorem mapped_applyResume {s : State} {a : Nat} (r : Resume) (h : s.mem.mapped a = true) :
    (s.applyResume r).mem.mapped a = true := by
  rw [mem_applyResume, mapped_writeMapped]
  exact mapped_addRegions_of_mapped h r.mapAdd

/-- The answer is applied to the state after SYSCALL's own advance. -/
theorem commits_applyResume (s : State) (r : Resume) (n : Nat) :
    Commits s (State.applyResume { s.advance with shimState := n } r) where
  zero := by simp [State.applyResume]
  status := by simp
  faultRecord := by simp
  params := by simp
  mapped _ ha := mapped_applyResume r ha
  wf h := by
    rw [mem_applyResume]
    exact writeMapped_wf (addRegions_wf h _) _

/-- A step is made in a running state, where it takes a fault or commits an instruction. -/
theorem step_faults_or_commits {s t : State} (h : step s = .next t) :
    s.status = .running ∧ ((∃ r : FaultRecord, t = faultedWith s r ∧ r.pc = s.pc) ∨
      ∃ w u, s.fetch = .ok w ∧ Commits s u ∧ t = u.bookkeep) := by
  obtain ⟨hs, hfault | ⟨w, i, u, hw, -, -, rfl, hu⟩⟩ := step_cases h
  · exact ⟨hs, .inl hfault⟩
  · refine ⟨hs, .inr ⟨w, u, hw, ?_, rfl⟩⟩
    obtain hplain | ⟨_, r, n, -, rfl⟩ := hu
    · exact commits_of_plain hplain
    · exact commits_applyResume s r n

/-- The bookkeeping of a running state leaves it running or halted. -/
theorem safe_bookkeep_of_running {u : State} (hu : u.status = .running) : u.bookkeep.Safe := by
  rw [State.Safe, status_bookkeep_of_running hu]
  split <;> simp

/-! ### The invariant -/

theorem inv_faultedWith {s : State} (h : s.Inv) (r : FaultRecord) : (faultedWith s r).Inv where
  memory := h.memory
  zero := h.zero
  record := by simp [faultedWith]
  sentinel := by simp [faultedWith]

/-- The bookkeeping halts a running state at the sentinel only, and makes no fault record. -/
theorem inv_bookkeep {u : State} (hmem : u.mem.wf) (hzero : u.regs[0] = 0)
    (hu : u.status = .running) (hrecord : u.faultRecord = none) : u.bookkeep.Inv where
  memory := by rwa [mem_bookkeep]
  zero := by simpa using hzero
  record := iff_of_false (safe_bookkeep_of_running hu) (by simp [hrecord])
  sentinel := by
    rw [status_bookkeep_of_running hu, pc_bookkeep, params_bookkeep]
    split
    · next hpc => exact fun _ => hpc
    · simp

/-- Settles O13: a fault and the bookkeeping after a commit each keep the invariant. -/
theorem stepKeepsInvariant : Obligations.StepKeepsInvariant := by
  intro s t hs h
  obtain ⟨hrunning, ⟨r, rfl, -⟩ | ⟨_, u, -, hu, rfl⟩⟩ := step_faults_or_commits h
  · exact inv_faultedWith hs r
  · have hnone : s.faultRecord = none := by
      by_contra hne
      simpa [hrunning] using hs.record.2 hne
    exact inv_bookkeep (hu.wf hs.memory) (hu.zero.trans hs.zero) (hu.status.trans hrunning)
      (hu.faultRecord.trans hnone)

/-- Settles O15: neither a fault nor an instruction that commits writes the parameters. -/
theorem parametersNeverChange : Obligations.ParametersNeverChange := by
  intro s t h
  obtain ⟨-, ⟨r, rfl, -⟩ | ⟨_, u, -, hu, rfl⟩⟩ := step_faults_or_commits h
  · rfl
  · rw [params_bookkeep, hu.params]

/-- Settles O16: an instruction that commits keeps what is mapped, and MAP itself if it is no
SYSCALL. -/
theorem mapOnlyGrows : Obligations.MapOnlyGrows := by
  refine ⟨fun s t h a ha => ?_, fun i s t h hi => ?_⟩
  · obtain ⟨-, ⟨r, rfl, -⟩ | ⟨_, u, -, hu, rfl⟩⟩ := step_faults_or_commits h
    · exact ha
    · rw [mem_bookkeep]
      exact hu.mapped a ha
  · obtain ⟨r, rfl, -⟩ | hplain | ⟨code, _, _, rfl, -⟩ := exec_cases s h
    · rfl
    · exact hplain.map
    · exact absurd rfl hi

/-! ### When a step is enabled, and how it faults (`70_reset_and_hazards.md` R193) -/

theorem exists_next_exec (i : Instr) (s : State) : ∃ t, exec i s = .next t := by
  obtain ⟨r, h, -⟩ | ⟨t, h, -⟩ | ⟨_, r, n, -, h⟩ := exec_does i s <;> exact ⟨_, h⟩

theorem step_of_fetch_ok {s : State} {w : Word} (hs : s.status = .running) (hw : s.fetch = .ok w) :
    step s = mapNext State.bookkeep (execDecoded (decode w) s) := by
  rw [step_of_running hs, stepRunning, hw]

theorem step_of_fetch_error {s : State} {r : FaultRecord} (hs : s.status = .running)
    (hr : s.fetch = .error r) : step s = .next (faultedWith s r) := by
  rw [step_of_running hs, stepRunning, hr]
  rfl

theorem bookkeep_faultedWith (s : State) (r : FaultRecord) :
    (faultedWith s r).bookkeep = faultedWith s r := if_pos rfl

theorem exists_next_step {s : State} (hs : s.status = .running) : ∃ t, step s = .next t := by
  cases hw : s.fetch with
  | error r => exact ⟨_, step_of_fetch_error hs hw⟩
  | ok w =>
    rw [step_of_fetch_ok hs hw]
    cases decode w with
    | instr i =>
      obtain ⟨t, ht⟩ := exists_next_exec i s
      exact ⟨t.bookkeep, by rw [execDecoded, ht, mapNext]⟩
    | reserved w => exact ⟨_, rfl⟩
    | invalid w => exact ⟨_, rfl⟩

/-- Settles O10: in a running state every fetch, decoding and execution answers a next state; in the
two others `step` stops by its own definition. -/
theorem stepEnabledExactlyWhenRunning : Obligations.StepEnabledExactlyWhenRunning := by
  refine fun s => ⟨⟨fun ⟨_, h⟩ => (step_cases h).1, exists_next_step⟩, fun hs => ?_, fun hs => ?_⟩
  · rw [step, hs]
  · rw [step, hs]

/-- Settles O7: the fault is raised in place of an execution, and the bookkeeping keeps it. -/
theorem illegalWordsFault : Obligations.IllegalWordsFault := by
  intro s w hs hw
  rw [step_of_fetch_ok hs hw]
  refine ⟨fun hd => ?_, fun hd => ?_⟩ <;>
    rw [hd, execDecoded, raiseIllegal, raise_eq, mapNext, bookkeep_faultedWith]

/-- Settles O6: decoding the fetched word gives the instruction, and the bookkeeping is that of a
faulted state or of one that is not. -/
theorem stepRunsTheDecodedInstruction : Obligations.StepRunsTheDecodedInstruction := by
  intro s w i _ hs ha hbytes hd
  have hstep : step s = mapNext State.bookkeep (exec i s) := by
    rw [step_of_fetch_ok hs (fetchReadsFourBytesBigEndian s w ha hbytes), hd, execDecoded]
  refine ⟨hstep, fun t ht => ?_⟩
  rw [hstep, ht, mapNext, State.bookkeep]
  refine ⟨fun hsafe => ?_, fun hfaulted => ?_⟩
  · rw [if_neg hsafe]
  · rw [if_pos (not_not.1 hfaulted)]

end Sys2Proof.Proofs

/-! PROOFS. `MemRead` of `20_memory.md` R35: one rule for each answer it can give, and the value read
against the bytes that stand in memory, in both directions. The fetch and the trace are such reads. -/
namespace Sys2Proof.Proofs
open Sys2Proof.Machine Sys2Proof.Laws

section
variable {s : State} {addr : Word} {n : Nat} (ea : Word) (kind : AccessKind)

/-- The first check of R35. -/
theorem memRead_of_not_alignedFor (ha : ¬ AlignedFor s addr n) :
    s.memRead ea addr n kind = .error (.addressError s.pc ea kind) :=
  if_pos ((alignFault_eq_true _ _ _).2 ha)

/-- The second check of R35, made only after the first has passed. -/
theorem memRead_of_not_mappedFor (ha : AlignedFor s addr n) (hm : ¬ MappedFor s addr n) :
    s.memRead ea addr n kind = .error (.unmappedAccess s.pc ea kind) := by
  rw [← allMapped_eq_mappedFor, Bool.not_eq_true, ← readBE_eq_none _ _ _ 0] at hm
  rw [State.memRead, (alignFault_eq_false _ _ _).2 ha, hm]
  rfl

/-- Once both checks have passed, there is a value. -/
theorem exists_memRead_of_mappedFor (ha : AlignedFor s addr n) (hm : MappedFor s addr n) :
    ∃ v, s.memRead ea addr n kind = .ok v := by
  rw [← allMapped_eq_mappedFor] at hm
  cases hv : s.mem.readBE addr n 0 with
  | none => simp [(readBE_eq_none _ _ _ _).1 hv] at hm
  | some v => exact ⟨v, memRead_of_readBE ea kind ha hv⟩

/-- A value answered is the one that stands in memory. -/
theorem readBE_of_memRead {v : Word} (h : s.memRead ea addr n kind = .ok v) :
    s.mem.readBE addr n 0 = some v := by
  unfold State.memRead at h
  split at h
  · cases h
  · split at h
    · next hv => rwa [Except.ok.inj h] at hv
    · cases h

end

/-! ### The value read and its bytes -/

/-- The bytes of a value, read below those already read, give the value. -/
theorem readBE_of_shifted_bytes {m : Memory} {addr w : Word} {n : Nat}
    (h : ∀ k, k < n → m.read (accessAddr addr k) = some ((w >>> (8 * (n - 1 - k))).setWidth 8)) :
    m.readBE addr n (w >>> (8 * n)) = some w := by
  induction n generalizing addr with
  | zero => simp [Memory.readBE]
  | succ n ih =>
    have hfirst : m.read addr.toNat = some ((w >>> (8 * n)).setWidth 8) := by
      simpa using h 0 (by omega)
    have hrest : m.readBE (addr + 1) n (w >>> (8 * n)) = some w := ih fun k hk => by
      rw [accessAddr_succ, h (k + 1) (by omega), show n + 1 - 1 - (k + 1) = n - 1 - k by omega]
    rw [Memory.readBE, hfirst]
    exact (congrArg (m.readBE (addr + 1) n) (joinByte_ushiftRight w (8 * n))).trans hrest

theorem setWidth_joinByte (acc : Word) (b : Byte) : (joinByte acc b).setWidth 8 = b := by
  ext i hi
  simp [joinByte]

theorem joinByte_ushiftRight_eight {acc : Word} (b : Byte) (h : acc.toNat < 2 ^ 24) :
    joinByte acc b >>> 8 = acc := by
  have hb := b.isLt
  apply BitVec.eq_of_toNat_eq
  rw [toNat_ushiftRight_eq_div_pow, joinByte_toNat h]
  omega

/-- At most four bytes read are the bytes of the value, and above them stands what was read before. -/
theorem bytes_of_readBE {m : Memory} {addr acc v : Word} {n : Nat} (hn : n ≤ 4)
    (hacc : acc.toNat < 2 ^ (8 * (4 - n))) (h : m.readBE addr n acc = some v) :
    v >>> (8 * n) = acc ∧ ∀ k, k < n →
      m.read (accessAddr addr k) = some ((v >>> (8 * (n - 1 - k))).setWidth 8) := by
  induction n generalizing addr acc with
  | zero => simpa [Memory.readBE, eq_comm] using h
  | succ n ih =>
    rw [Memory.readBE] at h
    cases hb : m.read addr.toNat with
    | none => simp [hb] at h
    | some b =>
      rw [hb] at h
      have h24 : acc.toNat < 2 ^ 24 :=
        hacc.trans_le (Nat.pow_le_pow_right (by decide) (by omega))
      have hjoin : (joinByte acc b).toNat < 2 ^ (8 * (4 - n)) := by
        have hpow : 2 ^ (8 * (4 - n)) = 2 ^ (8 * (4 - (n + 1))) * 256 := by
          rw [show 8 * (4 - n) = 8 * (4 - (n + 1)) + 8 by omega, Nat.pow_add]
        have hlt := b.isLt
        rw [joinByte_toNat h24, hpow]
        omega
      obtain ⟨habove, hbytes⟩ := ih (by omega) hjoin h
      refine ⟨?_, fun k hk => ?_⟩
      · rw [Nat.mul_succ, BitVec.shiftRight_add, habove, joinByte_ushiftRight_eight b h24]
      · cases k with
        | zero => simpa [habove, setWidth_joinByte] using hb
        | succ k =>
          rw [← accessAddr_succ, hbytes k (by omega),
            show n + 1 - 1 - (k + 1) = n - 1 - k by omega]

/-- Settles O23: the three rules of `MemRead`, the value being the digits its bytes are. -/
theorem memReadChecksThenReads : Obligations.MemReadChecksThenReads := by
  intro s ea addr n kind _ hn
  refine ⟨memRead_of_not_alignedFor ea kind, memRead_of_not_mappedFor ea kind, ?_⟩
  rintro ha bytes rfl hbytes
  exact ⟨_, memRead_of_readBE ea kind ha (readBE_of_bytes s.mem bytes addr 0 hbytes),
    foldl_joinByte_toNat bytes 0 0 (by omega) (by decide)⟩

/-! ### What was written is read -/

/-- The low bytes of a value are the bytes of its remainder. -/
theorem setWidth_ushiftRight_mod (v : Word) {n k : Nat} (hn : n ≤ 4) (hk : k < n) :
    (v >>> (8 * (n - 1 - k))).setWidth 8 =
      (BitVec.ofNat 32 (v.toNat % 2 ^ (8 * n)) >>> (8 * (n - 1 - k))).setWidth 8 := by
  ext i hi
  have hlow : 8 * (n - 1 - k) + i < 8 * n := by omega
  have hword : 8 * (n - 1 - k) + i < 32 := by omega
  simp only [BitVec.getElem_setWidth, BitVec.getLsbD_ushiftRight, BitVec.getLsbD_ofNat,
    Nat.testBit_mod_two_pow, BitVec.testBit_toNat, hlow, hword, decide_true, Bool.true_and]

/-- The remainder has no byte above the low `n`. -/
theorem ofNat_mod_ushiftRight (v : Word) (n : Nat) :
    BitVec.ofNat 32 (v.toNat % 2 ^ (8 * n)) >>> (8 * n) = 0 := by
  apply BitVec.eq_of_toNat_eq
  rw [toNat_ushiftRight_eq_div_pow]
  exact Nat.div_eq_of_lt ((Nat.mod_le _ _).trans_lt (Nat.mod_lt _ (by positivity)))

/-- Settles O25: the write made its checks, which the read makes again in a memory with the same MAP,
and left the bytes of the remainder. -/
theorem readAfterWrite : Obligations.ReadAfterWrite := by
  intro s ea addr v n kind m h1 hn h
  by_cases ha : AlignedFor s addr n
  · by_cases hm : MappedFor s addr n
    · rw [memWrite_of_mappedFor ea v ha hm, Except.ok.injEq] at h
      subst h
      refine memRead_of_readBE ea kind ha ?_
      rw [← ofNat_mod_ushiftRight v n]
      refine readBE_of_shifted_bytes fun k hk => ?_
      rw [read_writeBE_stored _ _ _ _ hn ((allMapped_eq_mappedFor _ _ _).2 hm) k hk,
        setWidth_ushiftRight_mod v hn hk]
    · simp [memWrite_of_not_mappedFor ea v ha hm] at h
  · simp [memWrite_of_not_alignedFor ea v ha] at h

/-- A store that answers a next state has taken a fault, or has passed both checks and stored. -/
theorem storeMem_cases {s t : State} {ea addr v : Word} {n : Nat} {after : State → State}
    (h : storeMem ea addr n v after s = .next t) :
    (∃ r, t = faultedWith s r) ∨ AlignedFor s addr n ∧ MappedFor s addr n ∧
      t = (after { s with mem := s.mem.writeBE addr n v }).advance := by
  obtain ⟨hforbidden, hunmapped, hstore⟩ := storeMem_spec s ea addr n v after
  by_cases ha : AlignedFor s addr n
  · by_cases hm : MappedFor s addr n
    · rw [hstore ha hm] at h
      exact .inr ⟨ha, hm, (Host.Outcome.next.inj h).symm⟩
    · rw [hunmapped ha hm] at h
      exact .inl ⟨_, (Host.Outcome.next.inj h).symm⟩
  · rw [hforbidden ha] at h
    exact .inl ⟨_, (Host.Outcome.next.inj h).symm⟩

/-- Settles O26: SW leaves the bytes of the word at the address the fetch then reads, whose alignment
the store has checked. -/
theorem storeIsSeenByTheNextFetch : Obligations.StoreIsSeenByTheNextFetch := by
  intro s t rt base offset hea h ht
  have hexec : exec (.sw rt offset base) s = storeMem s.nextPc s.nextPc 4 (s.reg rt) id s := by
    rw [← hea]; rfl
  obtain ⟨r, rfl⟩ | ⟨ha, hm, rfl⟩ := storeMem_cases (hexec.symm.trans h)
  · exact absurd rfl ht
  · exact memRead_of_readBE _ .fetch ha (readBE_of_wordBytes fun k hk =>
      read_writeBE_stored _ _ _ _ le_rfl ((allMapped_eq_mappedFor _ _ _).2 hm) k hk)

/-! ### The fetch and the trace -/

/-- Settles O12: the fetch is a `MemRead`, and its fault is the step's. -/
theorem fetchFaultsComeFirst : Obligations.FetchFaultsComeFirst := fun s hs =>
  ⟨fun ha => step_of_fetch_error hs (memRead_of_not_alignedFor s.pc .fetch ha),
    fun ha hm => step_of_fetch_error hs (memRead_of_not_mappedFor s.pc .fetch ha hm),
    exists_memRead_of_mappedFor s.pc .fetch⟩

/-- The bytes of the fetched word, in memory order. -/
theorem read_of_fetch {s : State} {w : Word} (h : s.fetch = .ok w) (k : Nat)
    (hk : k < (wordBytes w).length) :
    s.mem.read (accessAddr s.pc k) = some (wordBytes w)[k] := by
  have hk4 : k < 4 := hk
  have hbytes := (bytes_of_readBE le_rfl (by decide) (readBE_of_memRead s.pc .fetch h)).2 k hk4
  rw [hbytes]
  interval_cases k <;> rfl

theorem emitTrace_of_faulted {s t : State} (h : step s = .next t) (ht : ¬ t.Safe) :
    emitTrace s = none := by
  rw [emitTrace, h]
  cases s.fetch with
  | error r => rfl
  | ok w => exact if_pos (not_not.1 ht)

theorem emitTrace_of_safe {s t : State} {w : Word} (hw : s.fetch = .ok w) (h : step s = .next t)
    (ht : t.Safe) : emitTrace s = some ⟨s.stepIndex, s.pc, wordBytes w⟩ := by
  rw [emitTrace, h, hw]
  exact if_neg ht

/-- Settles O31: a step that does not fault has fetched a word, whose bytes are traced. -/
theorem traceRecordOfAStep : Obligations.TraceRecordOfAStep := by
  refine fun s t h => ⟨emitTrace_of_faulted h, fun ht => ?_⟩
  obtain ⟨-, ⟨r, rfl, -⟩ | ⟨w, u, hw, -, -⟩⟩ := step_faults_or_commits h
  · exact absurd rfl ht
  · exact ⟨wordBytes w, rfl, read_of_fetch hw, emitTrace_of_safe hw h ht⟩

/-- Settles O8: the bookkeeping of a commit leaves no faulted state, so the step has taken a fault. -/
theorem faultingStepCommitsNothing : Obligations.FaultingStepCommitsNothing := by
  refine fun s t hs h ht => ⟨emitTrace_of_faulted h (not_not_intro ht), ?_⟩
  obtain ⟨-, hfault | ⟨_, u, -, hu, rfl⟩⟩ := step_faults_or_commits h
  · exact hfault
  · exact absurd ht (safe_bookkeep_of_running (hu.status.trans hs))

end Sys2Proof.Proofs

/-! PROOFS. What executed instructions keep, by class: the rules of `10_state.md`, `20_memory.md` and
`40_step_cycle.md` over all instructions, each from the three cases of `exec_cases`. -/
namespace Sys2Proof.Proofs
open Sys2Proof.Machine Sys2Proof.Laws

/-- Settles O17: the rules of reading after writing of the register file. -/
theorem zeroRegisterReadsZero : Obligations.ZeroRegisterReadsZero :=
  ⟨reg_zero, setReg_zero, fun s r q v hr => ⟨reg_setReg_self s r v hr, reg_setReg_of_ne s r q v⟩⟩

/-- Settles O11: an instruction that completes and is no SYSCALL takes `pc` from the old `next_pc`. -/
theorem delaySlotAlwaysExecutes : Obligations.DelaySlotAlwaysExecutes := by
  intro i s t h ht hi
  obtain ⟨r, rfl, -⟩ | hplain | ⟨code, _, _, rfl, -⟩ := exec_cases s h
  · exact absurd rfl ht
  · exact ⟨hplain.pc, hplain.nextPc⟩
  · exact absurd rfl hi

/-- Settles O19: what completes changes memory only as a store or as SYSCALL. -/
theorem onlyStoresAndTrapsChangeMemory : Obligations.OnlyStoresAndTrapsChangeMemory := by
  intro i s t h hstore htrap
  obtain ⟨r, rfl, -⟩ | hplain | ⟨code, _, _, rfl, -⟩ := exec_cases s h
  · rfl
  · exact hplain.mem hstore
  · exact absurd rfl htrap

/-! ### HI and LO (`10_state.md` R21) -/

theorem hi_lo_of_not_multiplyDivide {i : Instr} {s t : State} (h : exec i s = .next t)
    (hi : i.opClass ≠ .multiplyDivide) : t.hi = s.hi ∧ t.lo = s.lo := by
  obtain ⟨r, rfl, -⟩ | hplain | ⟨code, _, _, rfl, rfl⟩ := exec_cases s h
  · exact ⟨rfl, rfl⟩
  · exact hplain.hiLo hi
  · simp

/-- The three instructions of the class that write a general register do so through `writeReg`. -/
theorem exec_eq_writeReg_of_multiplyDivide {i : Instr} (s : State)
    (hi : i.opClass = .multiplyDivide)
    (hm : i.mnemonic ∉ [Mnemonic.mult, .multu, .div, .divu, .madd, .maddu, .msub, .msubu,
      .mthi, .mtlo]) : ∃ rd v, exec i s = writeReg rd v s := by
  cases i
  case mfhi | mflo | mul => exact ⟨_, _, rfl⟩
  case mult | multu | div | divu | madd | maddu | msub | msubu | mthi | mtlo =>
    exact absurd (by simp [Instr.mnemonic]) hm
  all_goals cases hi

/-- Settles O18: an instruction of another class keeps HI and LO, and those of this class that are not
named are a `writeReg`. -/
theorem hiLoWrittenOnlyByMultiplyDivide : Obligations.HiLoWrittenOnlyByMultiplyDivide := by
  intro i s t h hm
  by_cases hi : i.opClass = .multiplyDivide
  · obtain ⟨rd, v, hexec⟩ := exec_eq_writeReg_of_multiplyDivide s hi hm
    rw [hexec, writeReg, Host.Outcome.next.injEq] at h
    subst h
    simp
  · exact hi_lo_of_not_multiplyDivide h hi

/-! ### Loads and stores (`46_load.md` R125, `47_store.md` R134) -/

/-- What else than memory a store writes: nothing, or for SC its `rt`. -/
def WritesAfterStore (i : Instr) (after : State → State) : Prop :=
  after = id ∨ ∃ rt o b, i = .sc rt o b ∧ after = fun t => t.setReg rt 1

/-- A load is a `loadReg` and a store a `storeMem` of the access named. -/
theorem exec_of_dataAccess {i : Instr} {s : State} {ea addr : Word} {n : Nat} {kind : AccessKind}
    (h : dataAccess s i = some (ea, addr, n, kind)) :
    (kind = .read ∧ ∃ rt f, exec i s = loadReg rt ea addr n f s) ∨
    (kind = .write ∧ ∃ v after, exec i s = storeMem ea addr n v after s ∧
      WritesAfterStore i after) := by
  cases i
  case lb | lbu | lh | lhu | lw | ll => cases h; exact .inl ⟨rfl, _, _, rfl⟩
  case lwl | lwr =>
    rw [dataAccess, ← lowTwo_eq] at h
    cases h; exact .inl ⟨rfl, _, _, rfl⟩
  case sb | sh | sw => cases h; exact .inr ⟨rfl, _, _, rfl, .inl rfl⟩
  case swl | swr =>
    rw [dataAccess, ← lowTwo_eq] at h
    cases h; exact .inr ⟨rfl, _, _, rfl, .inl rfl⟩
  case sc => cases h; exact .inr ⟨rfl, _, _, rfl, .inr ⟨_, _, _, rfl, rfl⟩⟩
  all_goals cases h

theorem dataAccess_of_store {i : Instr} (s : State) (hi : i.opClass = .store) :
    ∃ ea addr n, dataAccess s i = some (ea, addr, n, .write) := by
  cases i
  case sb | sh | sw | swl | swr | sc => exact ⟨_, _, _, rfl⟩
  all_goals cases hi

/-- Settles O27: the three cases of a `loadReg` or a `storeMem`. -/
theorem dataAccessFaults : Obligations.DataAccessFaults := by
  intro i s ea addr n kind h
  obtain ⟨rfl, rt, f, hexec⟩ | ⟨rfl, v, after, hexec, hafter⟩ := exec_of_dataAccess h <;> rw [hexec]
  · obtain ⟨hforbidden, hunmapped, hload⟩ := loadReg_spec s rt ea addr n f
    refine ⟨hforbidden, hunmapped, fun ha hm => ?_⟩
    obtain ⟨w, -, hw⟩ := hload ha hm
    obtain ⟨t, ht, hcompleted, -⟩ := writeReg_spec s rt (f w)
    exact ⟨t, hw.trans ht, hcompleted.pc, hcompleted.nextPc, hcompleted.status,
      hcompleted.faultRecord⟩
  · obtain ⟨hforbidden, hunmapped, hstore⟩ := storeMem_spec s ea addr n v after
    refine ⟨hforbidden, hunmapped, fun ha hm => ⟨_, hstore ha hm, ?_⟩⟩
    obtain rfl | ⟨rt, _, _, -, rfl⟩ := hafter
    · exact ⟨rfl, rfl, rfl, rfl⟩
    · simp

/-- Settles O20: what a store writes besides memory is nothing, or the 1 of SC, which x[0] discards. -/
theorem storesWriteNoRegisterButSc : Obligations.StoresWriteNoRegisterButSc := by
  intro i s t h hi r
  obtain ⟨ea, addr, n, haccess⟩ := dataAccess_of_store s hi
  obtain ⟨hkind, -⟩ | ⟨-, v, after, hexec, hafter⟩ := exec_of_dataAccess haccess
  · cases hkind
  obtain ⟨f, rfl⟩ | ⟨-, -, rfl⟩ := storeMem_cases (hexec.symm.trans h)
  · exact .inl rfl
  obtain rfl | ⟨rt, o, b, rfl, rfl⟩ := hafter
  · exact .inl rfl
  rw [reg_advance]
  by_cases hr : r = rt
  · subst hr
    by_cases hzero : r = 0
    · subst hzero
      exact .inl (by rw [reg_zero, reg_zero])
    · exact .inr ⟨o, b, rfl, reg_setReg_self _ _ _ hzero⟩
  · exact .inl (reg_setReg_of_ne _ _ _ _ hr)

end Sys2Proof.Proofs

/-! PROOFS. The count of steps (`10_state.md` R26): with another count every meaning answers the same,
but for the count itself. -/
namespace Sys2Proof.Proofs
open Sys2Proof.Machine Sys2Proof.Laws

/-- The state with another count of steps. -/
def withIndex (k : Nat) (s : State) : State := { s with stepIndex := k }

/-- The state after a step, had the count before it been `k`. -/
def reindex (k : Nat) (t : State) : State :=
  { t with stepIndex := if t.status = .faulted then k else k + 1 }

section
variable (k : Nat) (s : State)

theorem setReg_withIndex (r : Reg) (v : Word) :
    (withIndex k s).setReg r v = withIndex k (s.setReg r v) := by
  unfold State.setReg
  split <;> rfl

theorem branchIf_withIndex (b : Bool) (t : Word) :
    (withIndex k s).branchIf b t = withIndex k (s.branchIf b t) := by
  cases b <;> rfl

theorem writeReg_withIndex (rd : Reg) (v : Word) :
    writeReg rd v (withIndex k s) = mapNext (withIndex k) (writeReg rd v s) := by
  rw [writeReg, setReg_withIndex]
  rfl

theorem writeExact_withIndex (i : Instr) (rd : Reg) (z : Int) :
    writeExact i rd z (withIndex k s) = mapNext (withIndex k) (writeExact i rd z s) := by
  unfold writeExact
  split
  · rfl
  · exact writeReg_withIndex k s rd _

theorem branchWhen_withIndex (b : Bool) (o : BitVec 16) :
    branchWhen b o (withIndex k s) = mapNext (withIndex k) (branchWhen b o s) := by
  rw [branchWhen, branchIf_withIndex]
  rfl

theorem branchLinkWhen_withIndex (b : Bool) (o : BitVec 16) :
    branchLinkWhen b o (withIndex k s) = mapNext (withIndex k) (branchLinkWhen b o s) := by
  rw [branchLinkWhen, setReg_withIndex, branchIf_withIndex]
  rfl

theorem linkTo_withIndex (rd : Reg) (v t : Word) :
    (.next (((withIndex k s).setReg rd v).branchTo t) : Result) =
      mapNext (withIndex k) (.next ((s.setReg rd v).branchTo t)) := by
  rw [setReg_withIndex]
  rfl

theorem loadReg_withIndex (rt : Reg) (ea addr : Word) (n : Nat) (f : Word → Word) :
    loadReg rt ea addr n f (withIndex k s) = mapNext (withIndex k) (loadReg rt ea addr n f s) := by
  have hread : (withIndex k s).memRead ea addr n .read = s.memRead ea addr n .read := rfl
  rw [loadReg, loadReg, hread]
  cases s.memRead ea addr n .read with
  | error r => rfl
  | ok v => exact writeReg_withIndex k s rt (f v)

theorem storeMem_withIndex (ea addr : Word) (n : Nat) (v : Word) {after : State → State}
    (hafter : ∀ t, after (withIndex k t) = withIndex k (after t)) :
    storeMem ea addr n v after (withIndex k s) =
      mapNext (withIndex k) (storeMem ea addr n v after s) := by
  have hwrite : (withIndex k s).memWrite ea addr n v = s.memWrite ea addr n v := rfl
  rw [storeMem, storeMem, hwrite]
  cases s.memWrite ea addr n v with
  | error r => rfl
  | ok m => exact congrArg (fun t => Host.Outcome.next t.advance) (hafter { s with mem := m })

theorem writeRegs_withIndex (l : List (Reg × Word)) :
    writeRegs (withIndex k s) l = withIndex k (writeRegs s l) := by
  induction l generalizing s with
  | nil => rfl
  | cons e rest ih => rw [writeRegs, writeRegs, setReg_withIndex, ih]

theorem applyResume_withIndex (r : Resume) :
    (withIndex k s).applyResume r = withIndex k (s.applyResume r) := by
  have hregs := writeRegs_withIndex k
    { s with mem := writeMapped (addRegions s.mem r.mapAdd) r.mem } r.regs
  have hpc (t : State) : (withIndex k t).overridePc r.pcOverride =
      withIndex k (t.overridePc r.pcOverride) := by cases r.pcOverride <;> rfl
  exact (congrArg (State.overridePc · r.pcOverride) hregs).trans (hpc _)

theorem execSyscall_withIndex (code : BitVec 20) :
    execSyscall code (withIndex k s) = mapNext (withIndex k) (execSyscall code s) := by
  have hrequest : (withIndex k s).advance.trapRequest (withIndex k s).pc (encode (.syscall code)) =
      s.advance.trapRequest s.pc (encode (.syscall code)) := rfl
  unfold execSyscall
  dsimp only
  rw [hrequest, show (withIndex k s).shimState = s.shimState from rfl]
  generalize Config.shim _ _ = answer
  obtain ⟨response, n⟩ := answer
  cases response with
  | fault kind detail => rfl
  | resume r =>
    exact congrArg Host.Outcome.next (applyResume_withIndex k { s.advance with shimState := n } r)

theorem exec_withIndex (i : Instr) :
    exec i (withIndex k s) = mapNext (withIndex k) (exec i s) := by
  cases i
  case syscall code => exact execSyscall_withIndex k s code
  case sync => rfl
  case movz rd rs rt =>
    simp only [exec, execMovz, show (withIndex k s).reg = s.reg from rfl]
    split
    · exact writeReg_withIndex k s _ _
    · rfl
  case movn rd rs rt =>
    simp only [exec, execMovn, show (withIndex k s).reg = s.reg from rfl]
    split
    · exact writeReg_withIndex k s _ _
    · rfl
  case div rs rt =>
    simp only [exec, execDiv, show (withIndex k s).reg = s.reg from rfl]
    split
    · rfl
    · split <;> rfl
  case divu rs rt =>
    simp only [exec, execDivu, show (withIndex k s).reg = s.reg from rfl]
    split <;> rfl
  case add | sub | addi => exact writeExact_withIndex k s _ _ _
  case lb | lbu | lh | lhu | lw | lwl | lwr | ll => exact loadReg_withIndex k s _ _ _ _ _
  case sb | sh | sw | swl | swr => exact storeMem_withIndex k s _ _ _ _ fun _ => rfl
  case sc rt o b =>
    exact storeMem_withIndex k s _ _ _ _ (after := fun t => t.setReg rt 1)
      fun t => setReg_withIndex k t rt 1
  case beq | bne | blez | bgtz | bltz | bgez => exact branchWhen_withIndex k s _ _
  case bltzal | bgezal => exact branchLinkWhen_withIndex k s _ _
  case jal | jalr => exact linkTo_withIndex k s _ _ _
  case j | jr | mult | multu | madd | maddu | msub | msubu | mthi | mtlo => rfl
  all_goals exact writeReg_withIndex k s _ _

theorem execDecoded_withIndex (d : Decoded) :
    execDecoded d (withIndex k s) = mapNext (withIndex k) (execDecoded d s) := by
  cases d with
  | instr i => exact exec_withIndex k s i
  | reserved w => rfl
  | invalid w => rfl

theorem bookkeep_withIndex : (withIndex k s).bookkeep = reindex k s.bookkeep := by
  by_cases hs : s.status = .faulted
  · have hs' : (withIndex k s).status = .faulted := hs
    rw [reindex, State.bookkeep, if_pos hs', State.bookkeep, if_pos hs, if_pos hs]
    rfl
  · have hs' : (withIndex k s).status ≠ .faulted := hs
    have hsafe : s.bookkeep.status ≠ .faulted := by
      rw [State.bookkeep, if_neg hs]
      dsimp only
      split <;> simp [hs]
    rw [reindex, if_neg hsafe, State.bookkeep, if_neg hs', State.bookkeep, if_neg hs]
    rfl

theorem stepRunning_withIndex :
    stepRunning (withIndex k s) = mapNext (reindex k) (stepRunning s) := by
  rw [stepRunning, stepRunning, show (withIndex k s).fetch = s.fetch from rfl]
  cases s.fetch with
  | error r => rfl
  | ok w =>
    dsimp only
    rw [execDecoded_withIndex]
    cases execDecoded (decode w) s with
    | next t => exact congrArg Host.Outcome.next (bookkeep_withIndex k t)
    | fault r => rfl
    | refused r => rfl

end

/-- Settles O21: the meanings commute with a change of the count, and the bookkeeping adds 1 to it. -/
theorem stepIndexInfluencesNothing : Obligations.StepIndexInfluencesNothing := by
  intro s t k h
  have hs := (step_cases h).1
  have hs' : (withIndex k s).status = .running := hs
  rw [step_of_running hs] at h
  calc step (withIndex k s) = stepRunning (withIndex k s) := step_of_running hs'
    _ = mapNext (reindex k) (stepRunning s) := stepRunning_withIndex k s
    _ = .next (reindex k t) := by rw [h, mapNext]

end Sys2Proof.Proofs

/-! PROOFS. The trap port (`60_exceptions.md` R168 to R170): what each part of a `Resume` leaves, read
back by register and by address. -/
namespace Sys2Proof.Proofs
open Sys2Proof.Machine Sys2Proof.Laws

/-! ### Lists of writes -/

theorem fst_ne_of_notMem {α β : Type} {l : List (α × β)} {a : α} (h : a ∉ l.map Prod.fst) :
    ∀ e ∈ l, e.1 ≠ a :=
  fun _ he heq => h (List.mem_map.2 ⟨_, he, heq⟩)

theorem reg_writeRegs_of_forall_ne (s : State) (l : List (Reg × Word)) (q : Reg)
    (h : ∀ e ∈ l, e.1 ≠ q) : (writeRegs s l).reg q = s.reg q := by
  induction l generalizing s with
  | nil => rfl
  | cons e rest ih =>
    rw [writeRegs, ih _ fun e' he' => h e' (List.mem_cons_of_mem _ he'),
      reg_setReg_of_ne _ _ _ _ (h e List.mem_cons_self).symm]

/-- Where each register is named once, each named register holds its value. -/
theorem reg_writeRegs_of_mem (s : State) {l : List (Reg × Word)} (hnodup : (l.map Prod.fst).Nodup)
    {e : Reg × Word} (he : e ∈ l) (hzero : e.1 ≠ 0) : (writeRegs s l).reg e.1 = e.2 := by
  induction l generalizing s with
  | nil => cases he
  | cons d rest ih =>
    obtain ⟨hd, hrest⟩ := List.nodup_cons.1 hnodup
    rw [writeRegs]
    obtain rfl | he := List.mem_cons.1 he
    · rw [reg_writeRegs_of_forall_ne _ _ _ (fst_ne_of_notMem hd), reg_setReg_self _ _ _ hzero]
    · exact ih _ hrest he

theorem read_writeMapped_of_forall_ne (m : Memory) (l : List (Word × Byte)) (a : Nat)
    (h : ∀ e ∈ l, e.1.toNat ≠ a) : (writeMapped m l).read a = m.read a := by
  induction l generalizing m with
  | nil => rfl
  | cons e rest ih =>
    have hne : a ≠ e.1.toNat := (h e List.mem_cons_self).symm
    rw [writeMapped, ih _ fun e' he' => h e' (List.mem_cons_of_mem _ he')]
    split
    · rw [read_write, if_neg fun hc => hne hc.1]
    · rfl

/-- Where each byte is named once, each named byte that is mapped holds its value. -/
theorem read_writeMapped_of_mem {m : Memory} {l : List (Word × Byte)}
    (hnodup : (l.map Prod.fst).Nodup) {e : Word × Byte} (he : e ∈ l)
    (hmapped : m.mapped e.1.toNat = true) : (writeMapped m l).read e.1.toNat = some e.2 := by
  induction l generalizing m with
  | nil => cases he
  | cons d rest ih =>
    obtain ⟨hd, hrest⟩ := List.nodup_cons.1 hnodup
    rw [writeMapped]
    obtain rfl | he := List.mem_cons.1 he
    · have hne : ∀ e' ∈ rest, e'.1.toNat ≠ e.1.toNat := fun e' he' heq =>
        fst_ne_of_notMem hd e' he' (BitVec.eq_of_toNat_eq heq)
      rw [read_writeMapped_of_forall_ne _ _ _ hne, if_pos hmapped, read_write,
        if_pos ⟨rfl, hmapped⟩]
    · refine ih hrest he ?_
      split
      · rwa [mapped_write]
      · exact hmapped

/-! ### Regions added -/

section
variable {m : Memory} {rs : List Region} (h : ∀ g ∈ rs, g.hi ≤ addressSpace) (a : Nat)
include h

theorem mapped_addRegions :
    (addRegions m rs).mapped a = (m.mapped a || rs.any (·.contains a)) := by
  induction rs generalizing m with
  | nil => simp [addRegions]
  | cons g rest ih =>
    rw [addRegions, ih fun g' hg' => h g' (List.mem_cons_of_mem _ hg'), mapped_mapRegion,
      Nat.min_eq_left (h g List.mem_cons_self), List.any_cons, Bool.or_assoc]

/-- A byte newly mapped is 0. -/
theorem read_addRegions : (addRegions m rs).read a =
    if m.mapped a then m.read a else if rs.any (·.contains a) then some 0 else none := by
  induction rs generalizing m with
  | nil =>
    cases hm : m.mapped a with
    | true => simp [addRegions]
    | false => simpa [addRegions] using (read_eq_none m a).2 hm
  | cons g rest ih =>
    rw [addRegions, ih fun g' hg' => h g' (List.mem_cons_of_mem _ hg'), mapped_mapRegion,
      read_mapRegion, Nat.min_eq_left (h g List.mem_cons_self), List.any_cons]
    cases m.mapped a <;> cases g.contains a <;> simp

end

/-! ### The answer applied -/

theorem admissible_iff (r : Resume) (m : Memory) : r.admissible m = true ↔
    (∀ e ∈ r.regs, e.1 ≠ 0) ∧ (r.regs.map Prod.fst).Nodup ∧ (r.mem.map Prod.fst).Nodup ∧
    (∀ e ∈ r.mem, (m.mapped e.1.toNat || r.mapAdd.any (·.contains e.1.toNat)) = true) ∧
    ∀ g ∈ r.mapAdd, g.hi ≤ addressSpace := by
  simp only [Resume.admissible, Bool.and_eq_true, List.all_eq_true, decide_eq_true_eq, and_assoc]

/-- Settles O29: the parts of an admissible answer, each read back. -/
theorem resumeIsApplied : Obligations.ResumeIsApplied := by
  intro s r hr
  obtain ⟨hzero, hregs, hmem, hbytes, hregions⟩ := (admissible_iff r s.mem).1 hr
  have hmapped := mapped_addRegions (m := s.mem) hregions
  refine ⟨fun a => ?_, fun e he => ?_, fun a ha => ?_, fun e he => ?_, fun q hq => ?_, fun hpc => ?_,
    fun v hpc => ?_⟩
  · rw [mem_applyResume, mapped_writeMapped, hmapped]
  · rw [mem_applyResume]
    exact read_writeMapped_of_mem hmem he ((hmapped _).trans (hbytes e he))
  · rw [mem_applyResume, read_writeMapped_of_forall_ne _ _ _ ha]
    exact read_addRegions hregions a
  · rw [State.applyResume, reg_overridePc]
    exact reg_writeRegs_of_mem _ hregs he (hzero e he)
  · rw [State.applyResume, reg_overridePc]
    exact reg_writeRegs_of_forall_ne _ _ _ hq
  · simp [State.applyResume, hpc, State.overridePc]
  · simp [State.applyResume, hpc, State.overridePc]

/-- Settles O30: no part of an answer names the protected state or takes an address out of MAP. -/
theorem resumeLeavesProtectedState : Obligations.ResumeLeavesProtectedState := fun s r =>
  ⟨reg_zero _, hi_applyResume s r, lo_applyResume s r, status_applyResume s r,
    faultRecord_applyResume s r, stepIndex_applyResume s r, params_applyResume s r,
    fun _ => mapped_applyResume r⟩

/-! ### SYSCALL -/

/-- The mask of SYSCALL keeps opcode and function code. -/
theorem masked_syscall_iff (w : Word) :
    w &&& 0xFC00003F#32 = encodeR 0x00#6 0#5 0#5 0#5 0#5 0x0C#6 ↔
      fieldOpcode w = 0x00#6 ∧ fieldFunct w = 0x0C#6 := by
  have hmask : 0xFC00003F#32 = encodeR (.allOnes 6) 0#5 0#5 0#5 0#5 (.allOnes 6) := rfl
  rw [masked_iff_fields, hmask]
  simp only [fieldOpcode_encodeR, fieldRs_encodeR, fieldRt_encodeR, fieldRd_encodeR,
    fieldShamt_encodeR, fieldFunct_encodeR, BitVec.and_allOnes, BitVec.and_zero, true_and]

theorem decodesTo_syscall :
    DecodesTo 0xFC00003F#32 0x0000000C#32 (fun w => .syscall (fieldCode w)) :=
  decodesTo_special_checked 0x0C#6 (fun _ => true) rfl
    (fun w => (masked_syscall_iff w).trans (and_iff_left rfl).symm)
    fun w h => by rw [decodeSpecial, h]; rfl

theorem getElem_regsView (s : State) (r : Reg) : s.regsView[r.toNat]'r.isLt = s.reg r := by
  simp [State.regsView]

/-- Settles O28: the request presents the state after the advance, and each kind of answer is applied by
its own rule. -/
theorem syscallHandsOverAndAppliesTheAnswer : Obligations.SyscallHandsOverAndAppliesTheAnswer := by
  refine ⟨decodesTo_syscall, fun s code =>
    ⟨s.advance.trapRequest s.pc (encode (.syscall code)), rfl, rfl,
      getElem_regsView s.advance, rfl, rfl, rfl, rfl, rfl, ?_⟩⟩
  simp only [exec, execSyscall]
  obtain ⟨response, next⟩ :=
    Config.shim s.shimState (s.advance.trapRequest s.pc (encode (.syscall code)))
  cases response with
  | resume r => rfl
  | fault kind detail => rfl

end Sys2Proof.Proofs

/-! PROOFS. Reset (`10_state.md` R28, `70_reset_and_hazards.md` R190): what INIT_REGS makes of the
register file, and the invariant. -/
namespace Sys2Proof.Proofs
open Sys2Proof.Machine Sys2Proof.Laws

theorem getElem_initialRegs_of_forall_ne (regs : Vector Word 32) (l : List (Reg × Word)) (q : Reg)
    (h : ∀ e ∈ l, e.1 ≠ 0 → e.1 ≠ q) :
    (initialRegs regs l)[q.toNat]'q.isLt = regs[q.toNat]'q.isLt := by
  induction l generalizing regs with
  | nil => rfl
  | cons e rest ih =>
    rw [initialRegs, ih _ fun e' he' => h e' (List.mem_cons_of_mem _ he')]
    split
    · rfl
    · next hzero =>
      have hne : e.1.toNat ≠ q.toNat := fun heq =>
        h e List.mem_cons_self hzero (BitVec.eq_of_toNat_eq heq)
      exact Vector.getElem_set_ne _ _ hne

theorem getElem_initialRegs_of_mem (regs : Vector Word 32) {l : List (Reg × Word)}
    (hnodup : (l.map Prod.fst).Nodup) {e : Reg × Word} (he : e ∈ l) (hzero : e.1 ≠ 0) :
    (initialRegs regs l)[e.1.toNat]'e.1.isLt = e.2 := by
  induction l generalizing regs with
  | nil => cases he
  | cons d rest ih =>
    obtain ⟨hd, hrest⟩ := List.nodup_cons.1 hnodup
    rw [initialRegs]
    obtain rfl | he := List.mem_cons.1 he
    · rw [getElem_initialRegs_of_forall_ne _ _ _ fun e' he' _ => fst_ne_of_notMem hd e' he',
        if_neg hzero, Vector.getElem_set_self]
    · exact ih _ hrest he

theorem reg_resetWith (p : ResetParams) {q : Reg} (hq : q ≠ 0) :
    (State.resetWith p).reg q = (resetRegs p)[q.toNat]'q.isLt := if_neg hq

/-- A register that INIT_REGS does not name is 0, but x[29]. -/
theorem reg_resetWith_of_forall_ne {p : ResetParams} {q : Reg} (hq : q ≠ 0)
    (h : ∀ e ∈ p.initRegs, e.1 ≠ q) :
    (State.resetWith p).reg q = if q = 29 then p.initSp else 0 := by
  rw [reg_resetWith p hq, resetRegs, getElem_initialRegs_of_forall_ne _ _ _ fun e he _ => h e he,
    Vector.getElem_set, Vector.getElem_replicate]
  exact if_congr ⟨fun h29 => BitVec.eq_of_toNat_eq h29.symm, fun h29 => by rw [h29]; rfl⟩ rfl rfl

/-- Settles O22: the registers by what INIT_REGS names, the rest by the definition of reset. -/
theorem resetPutsEveryPieceOfState : Obligations.ResetPutsEveryPieceOfState := by
  intro p hzero hnodup
  refine ⟨reg_zero _, fun h29 => ?_, fun e he _ => ?_, fun r hr h => ?_, rfl, rfl, rfl, rfl,
    fun _ => rfl, rfl, rfl, rfl, rfl⟩
  · exact (reg_resetWith_of_forall_ne (by decide) h29).trans (if_pos rfl)
  · rw [reg_resetWith p (hzero e he)]
    exact getElem_initialRegs_of_mem _ hnodup he (hzero e he)
  · by_cases hr0 : r = 0
    · rw [hr0, reg_zero]
    · exact (reg_resetWith_of_forall_ne hr0 h).trans (if_neg hr)

/-- The place of x[0] is written by neither INIT_SP nor INIT_REGS. -/
theorem resetRegs_zero (p : ResetParams) : (resetRegs p)[0] = 0 := by
  have h := getElem_initialRegs_of_forall_ne ((Vector.replicate 32 0#32).set 29 p.initSp) p.initRegs 0
    fun _ _ hne => hne
  exact h.trans (by simp)

theorem inv_resetWith {p : ResetParams} (h : p.mem0.wf) : (State.resetWith p).Inv where
  memory := h
  zero := resetRegs_zero p
  record := by simp [State.resetWith]
  sentinel := by simp [State.resetWith]

/-- Settles O14: well-formed parameters hold a canonical memory, which is all the invariant needs. -/
theorem resetMeetsInvariant : Obligations.ResetMeetsInvariant := by
  refine ⟨fun p hp => inv_resetWith ?_, inv_resetWith reset_memory_wf⟩
  simp only [ResetParams.wellFormed, Bool.and_eq_true, decide_eq_true_eq] at hp
  obtain ⟨⟨⟨-, hmem⟩, -⟩, -⟩ := hp
  exact hmem

/-- Settles O1: each word is decoded by computation. -/
theorem sampleWordsDecode : Obligations.SampleWordsDecode := by
  unfold Obligations.SampleWordsDecode
  decide

end Sys2Proof.Proofs

/-! PROOFS. The rows of `30_encoding.md` R57 to R59 whose masks have not come up so far: which fields
each mask keeps, and `DecodesTo` from the arm of the decoder. -/
namespace Sys2Proof.Proofs
open Sys2Proof.Machine Sys2Proof.Laws

/-- The mask of a row with three register operands keeps opcode, `shamt` and function code. -/
theorem masked_shamt_iff (w : Word) (op fn : BitVec 6) :
    w &&& 0xFC0007FF#32 = encodeR op 0#5 0#5 0#5 0#5 fn ↔
      (fieldOpcode w = op ∧ fieldFunct w = fn) ∧ fieldShamt w = 0#5 := by
  have hmask : 0xFC0007FF#32 = encodeR (.allOnes 6) 0#5 0#5 0#5 (.allOnes 5) (.allOnes 6) := rfl
  rw [masked_iff_fields, hmask]
  simp only [fieldOpcode_encodeR, fieldRs_encodeR, fieldRt_encodeR, fieldRd_encodeR,
    fieldShamt_encodeR, fieldFunct_encodeR, BitVec.and_allOnes, BitVec.and_zero]
  tauto

/-- A `SPECIAL2` row of function code `fn`, whose one field that must be zero is `shamt`. -/
theorem decodesTo_special2_shamt {value : Word} {f : Word → Instr} (fn : BitVec 6)
    (hvalue : value = encodeR 0x1C#6 0#5 0#5 0#5 0#5 fn)
    (harm : ∀ w, fieldFunct w = fn →
      decodeSpecial2 w = .checked (decide (fieldShamt w = 0#5)) w (f w)) :
    DecodesTo 0xFC0007FF#32 value f :=
  decodesTo_special2_checked fn (fun w => decide (fieldShamt w = 0#5)) hvalue
    (fun w => by rw [hvalue, decide_eq_true_iff]; exact masked_shamt_iff w 0x1C#6 fn) harm

/-- A `SPECIAL` row of function code `fn`, whose operand fields are `rs` and `rt`. -/
theorem decodesTo_special_rd_shamt {value : Word} {f : Word → Instr} (fn : BitVec 6)
    (hvalue : value = encodeR 0x00#6 0#5 0#5 0#5 0#5 fn)
    (harm : ∀ w, fieldFunct w = fn → decodeSpecial w =
      .checked (decide (fieldRd w = 0#5 ∧ fieldShamt w = 0#5)) w (f w)) :
    DecodesTo 0xFC00FFFF#32 value f :=
  decodesTo_special_checked fn (fun w => decide (fieldRd w = 0#5 ∧ fieldShamt w = 0#5)) hvalue
    (fun w => by rw [hvalue, decide_eq_true_iff]; exact masked_rd_shamt_iff w 0x00#6 fn) harm

/-- The mask of JALR keeps every field but `rs` and `rd`. -/
theorem masked_jalr_iff (w : Word) :
    w &&& 0xFC1F07FF#32 = encodeR 0x00#6 0#5 0#5 0#5 0#5 0x09#6 ↔
      (fieldOpcode w = 0x00#6 ∧ fieldFunct w = 0x09#6) ∧
        fieldRt w = 0#5 ∧ fieldShamt w = 0#5 := by
  have hmask : 0xFC1F07FF#32 =
      encodeR (.allOnes 6) 0#5 (.allOnes 5) 0#5 (.allOnes 5) (.allOnes 6) := rfl
  rw [masked_iff_fields, hmask]
  simp only [fieldOpcode_encodeR, fieldRs_encodeR, fieldRt_encodeR, fieldRd_encodeR,
    fieldShamt_encodeR, fieldFunct_encodeR, BitVec.and_allOnes, BitVec.and_zero]
  tauto

theorem decodesTo_jalr :
    DecodesTo 0xFC1F07FF#32 0x00000009#32 (fun w => .jalr (fieldRd w) (fieldRs w)) :=
  decodesTo_special_checked 0x09#6 (fun w => decide (fieldRt w = 0#5 ∧ fieldShamt w = 0#5)) rfl
    (fun w => by rw [decide_eq_true_iff]; exact masked_jalr_iff w)
    fun w h => by rw [decodeSpecial, h]; rfl

/-- The mask of SYNC keeps every field but `stype`. -/
theorem masked_sync_iff (w : Word) :
    w &&& 0xFFFFF83F#32 = encodeR 0x00#6 0#5 0#5 0#5 0#5 0x0F#6 ↔
      (fieldOpcode w = 0x00#6 ∧ fieldFunct w = 0x0F#6) ∧
        fieldRs w = 0#5 ∧ fieldRt w = 0#5 ∧ fieldRd w = 0#5 := by
  have hmask : 0xFFFFF83F#32 =
      encodeR (.allOnes 6) (.allOnes 5) (.allOnes 5) (.allOnes 5) 0#5 (.allOnes 6) := rfl
  rw [masked_iff_fields, hmask]
  simp only [fieldOpcode_encodeR, fieldRs_encodeR, fieldRt_encodeR, fieldRd_encodeR,
    fieldShamt_encodeR, fieldFunct_encodeR, BitVec.and_allOnes, BitVec.and_zero]
  tauto

theorem decodesTo_sync :
    DecodesTo 0xFFFFF83F#32 0x0000000F#32 (fun w => .sync (fieldShamt w)) :=
  decodesTo_special_checked 0x0F#6
    (fun w => decide (fieldRs w = 0#5 ∧ fieldRt w = 0#5 ∧ fieldRd w = 0#5)) rfl
    (fun w => by rw [decide_eq_true_iff]; exact masked_sync_iff w)
    fun w h => by rw [decodeSpecial, h]; rfl

end Sys2Proof.Proofs

/-! PROOFS. The instructions whose effect is one of the spec's own decisions, outside memory: SYNC, the
trapping additions, the counts of leading bits, and the transfers that link. -/
namespace Sys2Proof.Proofs
open Sys2Proof.Machine Sys2Proof.Laws

/-- Settles O32: SYNC is the advance. -/
theorem syncOnlyAdvances : Obligations.SyncOnlyAdvances :=
  ⟨decodesTo_sync, fun s _ => ⟨s.advance, rfl, advance_spec s⟩⟩

/-! ### Trapping additions (`41_arithmetic.md` R80 (b)) -/

theorem signedOverflow_eq_true_iff (z : Int) :
    signedOverflow z = true ↔ z < -2 ^ 31 ∨ 2 ^ 31 - 1 < z := by
  simp [signedOverflow]

/-- An exact result in range is written as it is; one out of range faults with the executed word. -/
theorem exact_or_overflow {i : Instr} {s : State} {rd : Reg} {z : Int}
    (hexec : exec i s = writeExact i rd z s) :
    (-2 ^ 31 ≤ z → z ≤ 2 ^ 31 - 1 →
      ∃ t v, exec i s = .next t ∧ WritesReg s t rd v ∧ v.toInt = z) ∧
    ((z < -2 ^ 31 ∨ 2 ^ 31 - 1 < z) →
      exec i s = .next (faultedWith s (.integerOverflow s.pc (encode i)))) := by
  refine ⟨fun hlo hhi => ?_, fun hout => ?_⟩
  · have hin : ¬ signedOverflow z = true := by
      rw [signedOverflow_eq_true_iff]; omega
    exact exists_writesReg (hexec.trans (if_neg hin))
      (BitVec.toInt_ofInt_eq_self (by decide) hlo (Int.lt_of_le_sub_one hhi))
  · exact hexec.trans (if_pos ((signedOverflow_eq_true_iff z).2 hout))

/-- Settles O34: each instruction is a `writeExact` of a sum or difference of signed values. -/
theorem trappingAddAndSubtract : Obligations.TrappingAddAndSubtract := by
  refine ⟨decodesTo_special 0x20#6 rfl fun w h => by rw [decodeSpecial, h]; rfl,
    decodesTo_special 0x22#6 rfl fun w h => by rw [decodeSpecial, h]; rfl,
    decodesTo_primary 0x08#6 rfl (by decide) fun w h => by rw [decode, h]; rfl, ?_, ?_, ?_⟩
  · rintro s rd rs rt z rfl
    exact exact_or_overflow rfl
  · rintro s rd rs rt z rfl
    exact exact_or_overflow rfl
  · rintro s rt rs imm z rfl
    rw [← toInt_sext16]
    exact exact_or_overflow rfl

/-! ### Counts of leading bits (`42_logical.md` R102, R103) -/

/-- The zeros from bit `n - 1` downward, and the one below them. -/
theorem leadingZeros_spec (v : Word) (n : Nat) :
    leadingZeros v n ≤ n ∧ (∀ k, k < leadingZeros v n → v.getLsbD (n - 1 - k) = false) ∧
      (leadingZeros v n < n → v.getLsbD (n - 1 - leadingZeros v n) = true) := by
  induction n with
  | zero => simp [leadingZeros]
  | succ n ih =>
    obtain ⟨hle, hzeros, hone⟩ := ih
    rw [leadingZeros]
    by_cases hbit : v.getLsbD n = true
    · simp [hbit]
    · rw [if_neg hbit]
      refine ⟨by omega, fun k hk => ?_, fun hlt => ?_⟩
      · cases k with
        | zero => simpa using hbit
        | succ k =>
          rw [show n + 1 - 1 - (k + 1) = n - 1 - k by omega]
          exact hzeros k (by omega)
      · rw [show n + 1 - 1 - (1 + leadingZeros v n) = n - 1 - leadingZeros v n by omega]
        exact hone (by omega)

theorem toNat_countLeadingZeros (v : Word) :
    (countLeadingZeros v).toNat = leadingZeros v 32 := by
  have hle := (leadingZeros_spec v 32).1
  rw [countLeadingZeros, BitVec.toNat_ofNat, Nat.mod_eq_of_lt (by omega)]

/-- Settles O39: CLZ is a `writeReg` of the count of zeros, CLO of the count of zeros of the
complement. -/
theorem countLeadingBits : Obligations.CountLeadingBits := by
  refine ⟨decodesTo_special2_shamt 0x20#6 rfl fun w h => by rw [decodeSpecial2, h]; rfl,
    decodesTo_special2_shamt 0x21#6 rfl fun w h => by rw [decodeSpecial2, h]; rfl, ?_, ?_⟩
  · intro s rd rs rt
    refine exists_writesReg (v := countLeadingZeros (s.reg rs)) rfl ?_
    rw [toNat_countLeadingZeros]
    exact leadingZeros_spec (s.reg rs) 32
  · intro s rd rs rt
    refine exists_writesReg (v := countLeadingOnes (s.reg rs)) rfl ?_
    obtain ⟨hle, hones, hzero⟩ := leadingZeros_spec (~~~(s.reg rs)) 32
    rw [countLeadingOnes, toNat_countLeadingZeros]
    refine ⟨hle, fun k hk => ?_, fun hlt => ?_⟩
    · simpa [show 31 - k < 32 by omega] using hones k hk
    · simpa [show 31 - leadingZeros (~~~(s.reg rs)) 32 < 32 by omega] using hzero hlt

/-! ### Transfers that link (`44_branch.md` R111 (e), `45_jump.md` R124) -/

/-- The and-link form of `exists_transfers_nextIf`. -/
theorem exists_links_nextIf {i : Instr} {s : State} {c p : Prop} [Decidable c] [Decidable p]
    {o : BitVec 16} (hexec : exec i s = branchLinkWhen (decide c) o s) (hc : c ↔ p) :
    ∃ t, exec i s = .next t ∧ Links s t 31 (nextIf s p (s.pc + 4 + (o.signExtend 32 <<< 2))) := by
  obtain ⟨t, ht, hlinks⟩ := branchLinkWhen_spec s (decide c) o
  have hnext : (if decide c then branchTarget s.pc o else s.nextPc + 4) =
      nextIf s p (s.pc + 4 + (o.signExtend 32 <<< 2)) := by
    rw [decide_eq_decide.2 hc, nextIf, branchTarget, sext16, if_congr decide_eq_true_iff rfl rfl]
  exact ⟨t, hexec.trans ht, hnext ▸ hlinks⟩

/-- Settles O44: each instruction decides a signed comparison of the old `x[rs]`, told by the sign
bit. -/
theorem andLinkBranches : Obligations.AndLinkBranches := by
  refine ⟨decodesTo_regimm 0x10#5 rfl fun w h => by rw [decodeRegimm, h]; rfl,
    decodesTo_regimm 0x11#5 rfl fun w h => by rw [decodeRegimm, h]; rfl, ?_, ?_⟩
  · intro s rs o
    exact exists_links_nextIf rfl (toInt_lt_zero_iff_msb (s.reg rs))
  · intro s rs o
    exact exists_links_nextIf rfl (zero_le_toInt_iff_msb (s.reg rs))

/-- Settles O47: JALR is a link and a `branchTo` what `x[rs]` held before the link. -/
theorem jumpAndLinkRegister : Obligations.JumpAndLinkRegister :=
  ⟨decodesTo_jalr, fun s rd rs => ⟨_, rfl, linkTo_spec s rd (s.reg rs)⟩⟩

end Sys2Proof.Proofs

/-! PROOFS. Multiplication and division (`48_muldiv.md`): the exact products and the division law of the
quotient and remainder written to HI and LO. -/
namespace Sys2Proof.Proofs
open Sys2Proof.Machine Sys2Proof.Laws

/-- The product of two words fits in 64 bits, signed. -/
theorem toInt_signedProduct (a b : Word) : (signedProduct a b).toInt = a.toInt * b.toInt := by
  have hlo : -2 ^ 62 ≤ a.toInt * b.toInt := BitVec.le_toInt_mul_toInt
  have hhi : a.toInt * b.toInt ≤ 2 ^ 62 := BitVec.toInt_mul_toInt_le
  exact BitVec.toInt_ofInt_eq_self (by decide) (by omega) (by omega)

/-- The product of two words fits in 64 bits, unsigned. -/
theorem toNat_unsignedProduct (a b : Word) :
    (unsignedProduct a b).toNat = a.toNat * b.toNat := by
  have hlt : a.toNat * b.toNat < 2 ^ 64 :=
    calc a.toNat * b.toNat < 2 ^ 32 * 2 ^ 32 := Nat.mul_lt_mul'' a.isLt b.isLt
      _ = 2 ^ 64 := by decide
  rw [unsignedProduct, BitVec.toNat_ofNat, Nat.mod_eq_of_lt hlt]

/-- Settles O55: MULT and MULTU are a `writeAcc` of a product, MUL a `writeReg` of its low word. -/
theorem multiplications : Obligations.Multiplications := by
  refine ⟨decodesTo_special_rd_shamt 0x18#6 rfl fun w h => by rw [decodeSpecial, h]; rfl,
    decodesTo_special_rd_shamt 0x19#6 rfl fun w h => by rw [decodeSpecial, h]; rfl,
    decodesTo_special2_shamt 0x02#6 rfl fun w h => by rw [decodeSpecial2, h]; rfl, ?_, ?_, ?_⟩
  · intro s rs rt
    obtain ⟨t, hi, lo, ht, hwrites, happend⟩ := writeAcc_spec s (signedProduct (s.reg rs) (s.reg rt))
    exact ⟨t, hi, lo, ht, hwrites, by rw [happend, toInt_signedProduct]⟩
  · intro s rs rt
    obtain ⟨t, hi, lo, ht, hwrites, happend⟩ := writeAcc_spec s (unsignedProduct (s.reg rs) (s.reg rt))
    exact ⟨t, hi, lo, ht, hwrites, by rw [happend, toNat_unsignedProduct]⟩
  · intro s rd rs rt
    exact exists_writesReg (v := s.reg rs * s.reg rt) rfl (BitVec.toNat_mul ..)

/-! ### Division (R144, R145) -/

/-- The quotient toward zero is a word, but for -2^31 / -1. -/
theorem toInt_ofInt_tdiv {a b : Word} (h : ¬ (a.toInt = -2 ^ 31 ∧ b.toInt = -1)) :
    (BitVec.ofInt 32 (a.toInt.tdiv b.toInt)).toInt = a.toInt.tdiv b.toInt := by
  have hne : a ≠ .intMin 32 ∨ b ≠ -1#32 := by
    by_contra hc
    obtain ⟨rfl, rfl⟩ := not_or.1 hc |>.imp not_not.1 not_not.1
    exact h (by decide)
  rw [← BitVec.toInt_sdiv_of_ne_or_ne a b hne, BitVec.ofInt_toInt]

theorem toInt_ofInt_tmod (a b : Word) :
    (BitVec.ofInt 32 (a.toInt.tmod b.toInt)).toInt = a.toInt.tmod b.toInt := by
  rw [← BitVec.toInt_srem, BitVec.ofInt_toInt]

/-- The remainder of the division toward zero has the sign of the dividend. -/
theorem tmod_sign (a b : Int) : (0 ≤ a → 0 ≤ a.tmod b) ∧ (a ≤ 0 → a.tmod b ≤ 0) := by
  refine ⟨Int.tmod_nonneg b, fun ha => ?_⟩
  have hneg := Int.tmod_nonneg b (Int.neg_nonneg_of_nonpos ha)
  rw [Int.neg_tmod] at hneg
  omega

/-- An instruction whose meaning is `writeHiLo` writes the pair, of which any property may be told. -/
theorem exists_writesHiLo_of_writeHiLo {i : Instr} {s : State} {hi lo : Word}
    {P : Word → Word → Prop} (hexec : exec i s = writeHiLo hi lo s) (hP : P hi lo) :
    ∃ t hi lo, exec i s = .next t ∧ WritesHiLo s t hi lo ∧ P hi lo := by
  obtain ⟨t, ht, hwrites⟩ := writeHiLo_spec s hi lo
  exact ⟨t, hi, lo, hexec.trans ht, hwrites, hP⟩

/-- Settles O56: the cases of R144 and R145 are those of the meanings. -/
theorem divisions : Obligations.Divisions := by
  refine ⟨decodesTo_special_rd_shamt 0x1A#6 rfl fun w h => by rw [decodeSpecial, h]; rfl,
    decodesTo_special_rd_shamt 0x1B#6 rfl fun w h => by rw [decodeSpecial, h]; rfl, ?_, ?_⟩
  · rintro s rs rt a b rfl rfl
    by_cases hb : (s.reg rt).toInt = 0
    · exact exists_writesHiLo_of_writeHiLo (if_pos hb)
        ⟨fun _ => rfl, fun _ h => by omega, fun h => absurd hb h⟩
    by_cases hcorner : (s.reg rs).toInt = -2 ^ 31 ∧ (s.reg rt).toInt = -1
    · exact exists_writesHiLo_of_writeHiLo ((if_neg hb).trans (if_pos hcorner))
        ⟨fun h => absurd h hb, fun _ _ => ⟨rfl, rfl⟩, fun _ h => absurd hcorner h⟩
    · refine exists_writesHiLo_of_writeHiLo ((if_neg hb).trans (if_neg hcorner))
        ⟨fun h => absurd h hb, fun h1 h2 => absurd ⟨h1, h2⟩ hcorner, fun _ _ => ?_⟩
      rw [toInt_ofInt_tdiv hcorner, toInt_ofInt_tmod, Int.natAbs_tmod]
      exact ⟨(Int.tdiv_mul_add_tmod _ _).symm, Nat.mod_lt _ (Int.natAbs_pos.2 hb), tmod_sign _ _⟩
  · rintro s rs rt a b rfl rfl
    by_cases hb : (s.reg rt).toNat = 0
    · exact exists_writesHiLo_of_writeHiLo (if_pos hb) ⟨fun _ => rfl, fun h => absurd hb h⟩
    · refine exists_writesHiLo_of_writeHiLo (if_neg hb) ⟨fun h => absurd h hb, fun _ => ?_⟩
      have hquotient := (Nat.div_le_self _ (s.reg rt).toNat).trans_lt (s.reg rs).isLt
      have hremainder := (Nat.mod_le _ (s.reg rt).toNat).trans_lt (s.reg rs).isLt
      rw [BitVec.toNat_ofNat, BitVec.toNat_ofNat, Nat.mod_eq_of_lt hquotient,
        Nat.mod_eq_of_lt hremainder]
      exact ⟨(Nat.div_add_mod' _ _).symm, Nat.mod_lt _ (Nat.pos_of_ne_zero hb)⟩

end Sys2Proof.Proofs

/-! PROOFS. LL and SC, and the left and right accesses (`46_load.md` R131 to R133, `47_store.md` R138 to
R140): which bytes are accessed, and where they stand in the register. -/
namespace Sys2Proof.Proofs
open Sys2Proof.Machine Sys2Proof.Laws

/-! ### LL and SC -/

/-- Settles O50: the meaning of LL is that of LW. -/
theorem loadLinkedRecordsNothing : Obligations.LoadLinkedRecordsNothing := by
  obtain ⟨-, hfaults, hloads⟩ := wordLoad
  exact ⟨decodesTo_primary 0x30#6 rfl (by decide) fun w h => by rw [decode, h]; rfl,
    hfaults, hloads, fun _ _ _ _ => rfl⟩

/-- Settles O54: SC is a `storeMem` of the old `x[rt]`, after which `x[rt]` is written. -/
theorem storeConditionalAlwaysSucceeds : Obligations.StoreConditionalAlwaysSucceeds := by
  refine ⟨decodesTo_primary 0x38#6 rfl (by decide) fun w h => by rw [decode, h]; rfl, ?_⟩
  rintro s rt base o ea rfl
  have hexec : exec (.sc rt o base) s = storeMem (s.reg base + o.signExtend 32)
      (s.reg base + o.signExtend 32) 4 (s.reg rt) (fun t => t.setReg rt 1) s := rfl
  refine ⟨faultsByPolicy_of_storeMem hexec,
    fun ha hm => ⟨_, hexec.trans ((storeMem_spec ..).2.2 ha hm), ?_, ?_⟩⟩
  · exact ⟨fun r => by rw [reg_advance, reg_eq_regsWith]; rfl, by simp, by simp, by simp, by simp,
      by simp, by simp, by simp, by simp, by simp⟩
  · exact storedBytes_writeBE _ _ _ _ _ le_rfl ((allMapped_eq_mappedFor _ _ _).2 hm) (by simp)

/-! ### The access of the left and right instructions (`20_memory.md` R37) -/

/-- The bytes from EA to the end of its word: no policy forbids them. -/
theorem alignedFor_left (s : State) (ea : Word) : AlignedFor s ea (4 - ea.toNat % 4) :=
  fun _ => ⟨fun h2 => by omega, fun h4 => by omega⟩

/-- The bytes from the start of EA's word to EA: no policy forbids them. -/
theorem alignedFor_right (s : State) (ea : Word) :
    AlignedFor s (ea - BitVec.ofNat 32 (ea.toNat % 4)) (ea.toNat % 4 + 1) := by
  have hstart : (ea - BitVec.ofNat 32 (ea.toNat % 4)).toNat % 4 = 0 := by bv_omega
  exact fun _ => ⟨fun _ => by omega, fun _ => hstart⟩

/-! ### The bytes of a register -/

theorem getLsbD_wordByte (v : Word) (k : Nat) {i : Nat} (hi : i < 8) :
    (wordByte v k).getLsbD i = v.getLsbD (8 * (3 - k) + i) := by
  simp [wordByte, hi]

theorem getLsbD_lowBytesMask (n : Nat) {i : Nat} (hi : i < 32) :
    (lowBytesMask n).getLsbD i = decide (i < 8 * n) := by
  rw [lowBytesMask, BitVec.getLsbD_ofNat, decide_eq_true hi, Bool.true_and,
    Nat.testBit_two_pow_sub_one]

section
variable (old v : Word) {n k j i : Nat}

/-- Bits of a byte that is not among the `k` kept ones come from the value read. -/
theorem getLsbD_mergeLeft_of_le (hi : 8 * k ≤ i) (h32 : i < 32) :
    (mergeLeft old v k).getLsbD i = v.getLsbD (i - 8 * k) := by
  rw [mergeLeft, BitVec.getLsbD_or, BitVec.getLsbD_and, BitVec.getLsbD_shiftLeft,
    getLsbD_lowBytesMask k h32]
  simp only [h32, not_lt.2 hi, decide_true, decide_false, Bool.not_false, Bool.true_and,
    Bool.and_false, Bool.or_false]

theorem getLsbD_mergeLeft_of_lt (hi : i < 8 * k) (h32 : i < 32) :
    (mergeLeft old v k).getLsbD i = old.getLsbD i := by
  rw [mergeLeft, BitVec.getLsbD_or, BitVec.getLsbD_and, BitVec.getLsbD_shiftLeft,
    getLsbD_lowBytesMask k h32]
  simp only [hi, decide_true, Bool.not_true, Bool.and_false, Bool.false_and, Bool.and_true,
    Bool.false_or]

theorem getLsbD_mergeRight_of_lt (hi : i < 8 * n) (h32 : i < 32) :
    (mergeRight old v n).getLsbD i = v.getLsbD i := by
  rw [mergeRight, BitVec.getLsbD_or, BitVec.getLsbD_and, BitVec.getLsbD_not,
    getLsbD_lowBytesMask n h32]
  simp only [hi, decide_true, Bool.not_true, Bool.and_false, Bool.false_or]

/-- Above the `n` bytes read the value is 0, and the old bits are kept. -/
theorem getLsbD_mergeRight_of_le (hv : v >>> (8 * n) = 0) (hi : 8 * n ≤ i) (h32 : i < 32) :
    (mergeRight old v n).getLsbD i = old.getLsbD i := by
  have habove : v.getLsbD i = false := by
    rw [← Nat.add_sub_cancel' hi, ← BitVec.getLsbD_ushiftRight, hv]
    exact BitVec.getLsbD_zero
  rw [mergeRight, BitVec.getLsbD_or, BitVec.getLsbD_and, BitVec.getLsbD_not,
    getLsbD_lowBytesMask n h32]
  simp only [habove, h32, not_lt.2 hi, decide_true, decide_false, Bool.not_false, Bool.and_true,
    Bool.or_false]

/-- LWL: the bytes read stand in the most significant places. -/
theorem wordByte_mergeLeft_of_lt (hj : j < 4 - k) :
    wordByte (mergeLeft old v k) j = (v >>> (8 * (4 - k - 1 - j))).setWidth 8 := by
  refine BitVec.eq_of_getLsbD_eq fun i hi => ?_
  rw [getLsbD_wordByte _ _ hi, getLsbD_mergeLeft_of_le _ _ (by omega) (by omega),
    show 8 * (3 - j) + i - 8 * k = 8 * (4 - k - 1 - j) + i by omega, BitVec.getLsbD_setWidth,
    BitVec.getLsbD_ushiftRight, decide_eq_true hi, Bool.true_and]

/-- LWL: the bytes in the other places are kept. -/
theorem wordByte_mergeLeft_of_le (hj : 4 - k ≤ j) (hj4 : j < 4) :
    wordByte (mergeLeft old v k) j = wordByte old j := by
  refine BitVec.eq_of_getLsbD_eq fun i hi => ?_
  rw [getLsbD_wordByte _ _ hi, getLsbD_wordByte _ _ hi,
    getLsbD_mergeLeft_of_lt _ _ (by omega) (by omega)]

/-- LWR: the bytes read stand in the least significant places. -/
theorem wordByte_mergeRight_of_lt (hn : n ≤ 4) (hj : j < n) :
    wordByte (mergeRight old v n) (4 - n + j) = (v >>> (8 * (n - 1 - j))).setWidth 8 := by
  refine BitVec.eq_of_getLsbD_eq fun i hi => ?_
  rw [getLsbD_wordByte _ _ hi, getLsbD_mergeRight_of_lt _ _ (by omega) (by omega),
    show 3 - (4 - n + j) = n - 1 - j by omega, BitVec.getLsbD_setWidth,
    BitVec.getLsbD_ushiftRight, decide_eq_true hi, Bool.true_and]

/-- LWR: the bytes in the other places are kept. -/
theorem wordByte_mergeRight_of_le (hv : v >>> (8 * n) = 0) (hj : j < 4 - n) :
    wordByte (mergeRight old v n) j = wordByte old j := by
  refine BitVec.eq_of_getLsbD_eq fun i hi => ?_
  rw [getLsbD_wordByte _ _ hi, getLsbD_wordByte _ _ hi,
    getLsbD_mergeRight_of_le _ _ hv (by omega) (by omega)]

end

/-! ### Instructions -/

/-- A load of at most four mapped bytes writes `f` of a value whose low bytes they are. -/
theorem exists_writesReg_of_loadReg {i : Instr} {s : State} {rt : Reg} {ea addr : Word} {n : Nat}
    {f : Word → Word} (hexec : exec i s = loadReg rt ea addr n f s) (hn : n ≤ 4)
    (ha : AlignedFor s addr n) (hm : MappedFor s addr n) :
    ∃ t v, exec i s = .next t ∧ WritesReg s t rt (f v) ∧ v >>> (8 * n) = 0 ∧ ∀ k, k < n →
      s.mem.read (accessAddr addr k) = some ((v >>> (8 * (n - 1 - k))).setWidth 8) := by
  obtain ⟨v, hv, hload⟩ := (loadReg_spec s rt ea addr n f).2.2 ha hm
  obtain ⟨t, ht, hwrites⟩ := writeReg_spec s rt (f v)
  obtain ⟨habove, hbytes⟩ := bytes_of_readBE hn (by positivity) hv
  exact ⟨t, v, (hexec.trans hload).trans ht, hwrites, habove, hbytes⟩

theorem exec_lwl_eq (s : State) (rt base : Reg) (o : BitVec 16) {ea : Word}
    (hea : ea = s.reg base + o.signExtend 32) : exec (.lwl rt o base) s =
      loadReg rt ea ea (4 - ea.toNat % 4) (fun v => mergeLeft (s.reg rt) v (ea.toNat % 4)) s := by
  subst hea
  rw [← lowTwo_eq]
  rfl

theorem exec_lwr_eq (s : State) (rt base : Reg) (o : BitVec 16) {ea : Word}
    (hea : ea = s.reg base + o.signExtend 32) : exec (.lwr rt o base) s =
      loadReg rt ea (ea - BitVec.ofNat 32 (ea.toNat % 4)) (ea.toNat % 4 + 1)
        (fun v => mergeRight (s.reg rt) v (ea.toNat % 4 + 1)) s := by
  subst hea
  rw [← alignedDown_eq, ← lowTwo_eq]
  rfl

theorem exec_swl_eq (s : State) (rt base : Reg) (o : BitVec 16) {ea : Word}
    (hea : ea = s.reg base + o.signExtend 32) : exec (.swl rt o base) s =
      storeMem ea ea (4 - ea.toNat % 4) (s.reg rt >>> (8 * (ea.toNat % 4))) id s := by
  subst hea
  rw [← lowTwo_eq]
  rfl

theorem exec_swr_eq (s : State) (rt base : Reg) (o : BitVec 16) {ea : Word}
    (hea : ea = s.reg base + o.signExtend 32) : exec (.swr rt o base) s =
      storeMem ea (ea - BitVec.ofNat 32 (ea.toNat % 4)) (ea.toNat % 4 + 1) (s.reg rt) id s := by
  subst hea
  rw [← alignedDown_eq, ← lowTwo_eq]
  rfl

/-- Settles O51: LWL is a `loadReg` from EA merged to the left, LWR one from the start of EA's word
merged to the right. -/
theorem leftAndRightLoads : Obligations.LeftAndRightLoads := by
  refine ⟨decodesTo_primary 0x22#6 rfl (by decide) fun w h => by rw [decode, h]; rfl,
    decodesTo_primary 0x26#6 rfl (by decide) fun w h => by rw [decode, h]; rfl, ?_, ?_⟩
  · rintro s rt base o ea n hea rfl
    have hexec := exec_lwl_eq s rt base o hea
    refine ⟨faultsWhereUnmapped_of_loadReg hexec (alignedFor_left s ea), fun hm => ?_⟩
    obtain ⟨t, v, ht, hwrites, -, hbytes⟩ :=
      exists_writesReg_of_loadReg hexec (by omega) (alignedFor_left s ea) hm
    refine ⟨t, _, ht, hwrites, fun k hk => ?_, fun k hk hk4 => ?_⟩
    · rw [hbytes k hk, wordByte_mergeLeft_of_lt _ _ hk]
    · exact wordByte_mergeLeft_of_le _ _ hk hk4
  · rintro s rt base o ea first n hea rfl rfl
    have hexec := exec_lwr_eq s rt base o hea
    refine ⟨faultsWhereUnmapped_of_loadReg hexec (alignedFor_right s ea), fun hm => ?_⟩
    obtain ⟨t, v, ht, hwrites, habove, hbytes⟩ :=
      exists_writesReg_of_loadReg hexec (by omega) (alignedFor_right s ea) hm
    refine ⟨t, _, ht, hwrites, fun k hk => ?_, fun k hk => ?_⟩
    · rw [hbytes k hk, wordByte_mergeRight_of_lt _ _ (by omega) hk]
    · exact wordByte_mergeRight_of_le _ _ habove hk

/-- Settles O53: SWL is a `storeMem` from EA, SWR one from the start of EA's word. -/
theorem leftAndRightStores : Obligations.LeftAndRightStores := by
  refine ⟨decodesTo_primary 0x2A#6 rfl (by decide) fun w h => by rw [decode, h]; rfl,
    decodesTo_primary 0x2E#6 rfl (by decide) fun w h => by rw [decode, h]; rfl, ?_, ?_⟩
  · rintro s rt base o ea k hea rfl
    have hexec := exec_swl_eq s rt base o hea
    exact ⟨faultsWhereUnmapped_of_storeMem hexec (alignedFor_left s ea),
      stores_of_storeMem hexec (by omega) (alignedFor_left s ea)⟩
  · rintro s rt base o ea first k hea rfl rfl
    have hexec := exec_swr_eq s rt base o hea
    exact ⟨faultsWhereUnmapped_of_storeMem hexec (alignedFor_right s ea),
      stores_of_storeMem hexec (by omega) (alignedFor_right s ea)⟩

end Sys2Proof.Proofs

/-! PROOFS. The decoder against the encoder (`30_encoding.md` R52 to R59), in both directions: along the
instructions, and along the arms of the four maps. -/
namespace Sys2Proof.Proofs
open Sys2Proof.Machine Sys2Proof.Laws

/-- Settles O2: the format puts each operand into the field from which the instruction's map reads
it. -/
theorem decodeOfEncode : Obligations.DecodeOfEncode := by
  intro i _
  cases i
  case add | addu | sub | subu | slt | sltu | movz | movn | and | or | xor | nor | sll | srl | sra |
      sllv | srlv | srav | jr | jalr | mult | multu | div | divu | mfhi | mflo | mthi | mtlo |
      syscall | sync =>
    simp [encode, decode_of_opcode_special, decodeSpecial, Decoded.checked]
  case clz | clo | mul | madd | maddu | msub | msubu =>
    simp [encode, decode_of_opcode_special2, decodeSpecial2, Decoded.checked]
  case bltz | bgez | bltzal | bgezal =>
    simp [encode, decode_of_opcode_regimm, decodeRegimm]
  all_goals -- the primary map
    simp [encode, decode, Decoded.checked]

/-! ### The word from the arm that decodes it -/

/-- A checked arm answers an instruction only where its fields that must be zero are. -/
theorem checked_eq_instr {z : Bool} {w : Word} {i j : Instr}
    (h : Decoded.checked z w j = .instr i) : z = true ∧ j = i := by
  cases z with
  | true => exact ⟨rfl, Decoded.instr.inj h⟩
  | false => cases h

/-- The arm taken fixes the field it is selected by. -/
theorem field_eq_of_toNat {n k : Nat} {v : BitVec n} (h : v.toNat = k) : v = BitVec.ofNat n k := by
  rw [← h, BitVec.ofNat_toNat, BitVec.setWidth_eq]

/-- Every arm but SYSCALL's is of the R format, its fixed fields being those of the word. -/
theorem encode_of_decodeSpecial {w : Word} {i : Instr} (hop : fieldOpcode w = 0x00#6)
    (h : decodeSpecial w = .instr i) : encode i = w := by
  have hw := encodeR_fields w
  rw [decodeSpecial] at h
  split at h <;> rename_i hfn
  case h_11 => -- SYSCALL
    cases h
    exact encodeSyscall_fields w hop (field_eq_of_toNat hfn)
  case h_31 => cases h -- no arm of the map
  all_goals
    obtain ⟨hz, rfl⟩ := checked_eq_instr h
    rw [decide_eq_true_iff] at hz
    rw [hop, field_eq_of_toNat hfn] at hw
    simpa only [encode, hz] using hw

theorem encode_of_decodeSpecial2 {w : Word} {i : Instr} (hop : fieldOpcode w = 0x1C#6)
    (h : decodeSpecial2 w = .instr i) : encode i = w := by
  have hw := encodeR_fields w
  rw [decodeSpecial2] at h
  split at h <;> rename_i hfn
  case h_8 => cases h -- no arm of the map
  all_goals
    obtain ⟨hz, rfl⟩ := checked_eq_instr h
    rw [decide_eq_true_iff] at hz
    rw [hop, field_eq_of_toNat hfn] at hw
    simpa only [encode, hz] using hw

theorem encode_of_decodeRegimm {w : Word} {i : Instr} (hop : fieldOpcode w = 0x01#6)
    (h : decodeRegimm w = .instr i) : encode i = w := by
  have hw := encodeI_fields w
  rw [decodeRegimm] at h
  split at h <;> rename_i hrt <;> cases h
  all_goals
    rw [hop, field_eq_of_toNat hrt] at hw
    exact hw

/-- Settles O3: an arm of the primary map fixes the opcode, and with it the word of the fields it reads;
three arms lead to the other maps. -/
theorem encodeOfDecode : Obligations.EncodeOfDecode := by
  intro w i h
  have hI := encodeI_fields w
  have hJ := encodeJ_fields w
  unfold decode at h
  split at h <;> rename_i hop
  case h_1 => exact encode_of_decodeSpecial (field_eq_of_toNat hop) h
  case h_2 => exact encode_of_decodeRegimm (field_eq_of_toNat hop) h
  case h_17 => exact encode_of_decodeSpecial2 (field_eq_of_toNat hop) h
  case h_3 | h_4 => -- J and JAL
    cases h
    rw [field_eq_of_toNat hop] at hJ
    exact hJ
  case h_7 | h_8 | h_16 => -- BLEZ, BGTZ and LUI, with a field that must be zero
    obtain ⟨hz, rfl⟩ := checked_eq_instr h
    rw [decide_eq_true_iff] at hz
    rw [field_eq_of_toNat hop, hz] at hI
    exact hI
  case h_32 => cases h -- no arm of the map
  all_goals -- the I format
    cases h
    rw [field_eq_of_toNat hop] at hI
    exact hI

end Sys2Proof.Proofs

/-! PROOFS. The opcode table (`30_encoding.md` R56): every row decodes as its instruction's own
statement says, and a selector of no row reaches the last arm of its map. -/
namespace Sys2Proof.Proofs
open Sys2Proof.Machine Sys2Proof.Laws

/-! ### Words of a row -/

/-- The row's words decode to instructions of the row's mnemonic. -/
def RowDecodes (row : OpcodeRow) : Prop :=
  ∃ f : Word → Instr, DecodesTo row.mask row.value f ∧ ∀ w, (f w).mnemonic = row.mnemonic

theorem rowDecodes_arithmetic : ∀ row ∈ rowsArithmetic, RowDecodes row := by
  obtain ⟨hadd, hsub, haddi, -⟩ := trappingAddAndSubtract
  obtain ⟨haddu, hsubu, haddiu, -⟩ := wrappingAddAndSubtract
  obtain ⟨hslt, hsltu, hslti, hsltiu, -⟩ := setOnLessThan
  obtain ⟨hmovz, hmovn, -⟩ := conditionalMoves
  simp only [rowsArithmetic, List.forall_mem_cons]
  exact ⟨⟨_, hadd, fun _ => rfl⟩, ⟨_, haddu, fun _ => rfl⟩, ⟨_, hsub, fun _ => rfl⟩,
    ⟨_, hsubu, fun _ => rfl⟩, ⟨_, haddi, fun _ => rfl⟩, ⟨_, haddiu, fun _ => rfl⟩,
    ⟨_, hslt, fun _ => rfl⟩, ⟨_, hsltu, fun _ => rfl⟩, ⟨_, hslti, fun _ => rfl⟩,
    ⟨_, hsltiu, fun _ => rfl⟩, ⟨_, hmovz, fun _ => rfl⟩, ⟨_, hmovn, fun _ => rfl⟩,
    List.forall_mem_nil _⟩

theorem rowDecodes_logical : ∀ row ∈ rowsLogical, RowDecodes row := by
  obtain ⟨hand, hor, hxor, hnor, -⟩ := bitwiseRegisterOperations
  obtain ⟨handi, hori, hxori, hlui, -⟩ := bitwiseImmediateOperations
  obtain ⟨hclz, hclo, -⟩ := countLeadingBits
  simp only [rowsLogical, List.forall_mem_cons]
  exact ⟨⟨_, hand, fun _ => rfl⟩, ⟨_, hor, fun _ => rfl⟩, ⟨_, hxor, fun _ => rfl⟩,
    ⟨_, hnor, fun _ => rfl⟩, ⟨_, handi, fun _ => rfl⟩, ⟨_, hori, fun _ => rfl⟩,
    ⟨_, hxori, fun _ => rfl⟩, ⟨_, hlui, fun _ => rfl⟩, ⟨_, hclz, fun _ => rfl⟩,
    ⟨_, hclo, fun _ => rfl⟩, List.forall_mem_nil _⟩

theorem rowDecodes_shift : ∀ row ∈ rowsShift, RowDecodes row := by
  obtain ⟨hsll, hsrl, hsra, -⟩ := shiftsByImmediate
  obtain ⟨hsllv, hsrlv, hsrav, -⟩ := shiftsByRegister
  simp only [rowsShift, List.forall_mem_cons]
  exact ⟨⟨_, hsll, fun _ => rfl⟩, ⟨_, hsrl, fun _ => rfl⟩, ⟨_, hsra, fun _ => rfl⟩,
    ⟨_, hsllv, fun _ => rfl⟩, ⟨_, hsrlv, fun _ => rfl⟩, ⟨_, hsrav, fun _ => rfl⟩,
    List.forall_mem_nil _⟩

theorem rowDecodes_branch : ∀ row ∈ rowsBranch, RowDecodes row := by
  obtain ⟨hbeq, hbne, -⟩ := equalityBranches
  obtain ⟨hblez, hbgtz, hbltz, hbgez, -⟩ := signBranches
  obtain ⟨hbltzal, hbgezal, -⟩ := andLinkBranches
  simp only [rowsBranch, List.forall_mem_cons]
  exact ⟨⟨_, hbeq, fun _ => rfl⟩, ⟨_, hbne, fun _ => rfl⟩, ⟨_, hblez, fun _ => rfl⟩,
    ⟨_, hbgtz, fun _ => rfl⟩, ⟨_, hbltz, fun _ => rfl⟩, ⟨_, hbgez, fun _ => rfl⟩,
    ⟨_, hbltzal, fun _ => rfl⟩, ⟨_, hbgezal, fun _ => rfl⟩, List.forall_mem_nil _⟩

theorem rowDecodes_jump : ∀ row ∈ rowsJump, RowDecodes row := by
  obtain ⟨hj, hjal, -⟩ := regionJumps
  obtain ⟨hjr, -⟩ := jumpRegister
  simp only [rowsJump, List.forall_mem_cons]
  exact ⟨⟨_, hj, fun _ => rfl⟩, ⟨_, hjal, fun _ => rfl⟩, ⟨_, hjr, fun _ => rfl⟩,
    ⟨_, decodesTo_jalr, fun _ => rfl⟩, List.forall_mem_nil _⟩

theorem rowDecodes_load : ∀ row ∈ rowsLoad, RowDecodes row := by
  obtain ⟨hlb, hlbu, hlh, hlhu, -⟩ := byteAndHalfwordLoads
  obtain ⟨hlw, -⟩ := wordLoad
  obtain ⟨hlwl, hlwr, -⟩ := leftAndRightLoads
  obtain ⟨hll, -⟩ := loadLinkedRecordsNothing
  simp only [rowsLoad, List.forall_mem_cons]
  exact ⟨⟨_, hlb, fun _ => rfl⟩, ⟨_, hlbu, fun _ => rfl⟩, ⟨_, hlh, fun _ => rfl⟩,
    ⟨_, hlhu, fun _ => rfl⟩, ⟨_, hlw, fun _ => rfl⟩, ⟨_, hlwl, fun _ => rfl⟩,
    ⟨_, hlwr, fun _ => rfl⟩, ⟨_, hll, fun _ => rfl⟩, List.forall_mem_nil _⟩

theorem rowDecodes_store : ∀ row ∈ rowsStore, RowDecodes row := by
  obtain ⟨hsb, hsh, hsw, -⟩ := byteHalfwordWordStores
  obtain ⟨hswl, hswr, -⟩ := leftAndRightStores
  obtain ⟨hsc, -⟩ := storeConditionalAlwaysSucceeds
  simp only [rowsStore, List.forall_mem_cons]
  exact ⟨⟨_, hsb, fun _ => rfl⟩, ⟨_, hsh, fun _ => rfl⟩, ⟨_, hsw, fun _ => rfl⟩,
    ⟨_, hswl, fun _ => rfl⟩, ⟨_, hswr, fun _ => rfl⟩, ⟨_, hsc, fun _ => rfl⟩,
    List.forall_mem_nil _⟩

theorem rowDecodes_multiplyDivide : ∀ row ∈ rowsMultiplyDivide, RowDecodes row := by
  obtain ⟨hmult, hmultu, hmul, -⟩ := multiplications
  obtain ⟨hdiv, hdivu, -⟩ := divisions
  obtain ⟨hmfhi, hmflo, hmthi, hmtlo, -⟩ := movesOfHiAndLo
  obtain ⟨hmadd, hmaddu, hmsub, hmsubu, -⟩ := multiplyAccumulate
  simp only [rowsMultiplyDivide, List.forall_mem_cons]
  exact ⟨⟨_, hmult, fun _ => rfl⟩, ⟨_, hmultu, fun _ => rfl⟩, ⟨_, hdiv, fun _ => rfl⟩,
    ⟨_, hdivu, fun _ => rfl⟩, ⟨_, hmfhi, fun _ => rfl⟩, ⟨_, hmflo, fun _ => rfl⟩,
    ⟨_, hmthi, fun _ => rfl⟩, ⟨_, hmtlo, fun _ => rfl⟩, ⟨_, hmul, fun _ => rfl⟩,
    ⟨_, hmadd, fun _ => rfl⟩, ⟨_, hmaddu, fun _ => rfl⟩, ⟨_, hmsub, fun _ => rfl⟩,
    ⟨_, hmsubu, fun _ => rfl⟩, List.forall_mem_nil _⟩

theorem rowDecodes_of_mem : ∀ row ∈ opcodeTable, RowDecodes row := by
  simp only [opcodeTable, List.forall_mem_append]
  refine ⟨⟨⟨⟨⟨⟨⟨⟨⟨rowDecodes_arithmetic, rowDecodes_logical⟩, rowDecodes_shift⟩,
    rowDecodes_branch⟩, rowDecodes_jump⟩, rowDecodes_load⟩, rowDecodes_store⟩,
    rowDecodes_multiplyDivide⟩, ?_⟩, ?_⟩
  · exact List.forall_mem_singleton.2 ⟨_, decodesTo_syscall, fun _ => rfl⟩
  · exact List.forall_mem_singleton.2 ⟨_, decodesTo_sync, fun _ => rfl⟩

/-! ### Words of no row -/

/-- The selector is that of no row of the opcode table. An arm of the decoder is then excluded, since
the table has a row for its selector. -/
abbrev NoRow (sel : Selector) : Prop := ∀ row ∈ opcodeTable, selector row.value ≠ sel

theorem decodeSpecial_of_noRow {w : Word} (h : NoRow (.special (fieldFunct w))) :
    decodeSpecial w = .invalid w := by
  rw [decodeSpecial]
  split <;> rename_i hfn
  case h_31 => rfl -- no arm of the map
  all_goals
    rw [field_eq_of_toNat hfn] at h
    exact absurd h (by decide)

theorem decodeSpecial2_of_noRow {w : Word} (h : NoRow (.special2 (fieldFunct w))) :
    decodeSpecial2 w = .invalid w := by
  rw [decodeSpecial2]
  split <;> rename_i hfn
  case h_8 => rfl -- no arm of the map
  all_goals
    rw [field_eq_of_toNat hfn] at h
    exact absurd h (by decide)

theorem decodeRegimm_of_noRow {w : Word} (h : NoRow (.regimm (fieldRt w))) :
    decodeRegimm w = .invalid w := by
  rw [decodeRegimm]
  split <;> rename_i hrt
  case h_5 => rfl -- no arm of the map
  all_goals
    rw [field_eq_of_toNat hrt] at h
    exact absurd h (by decide)

theorem decode_of_noRow {w : Word} (h : NoRow (selector w)) : decode w = .invalid w := by
  unfold decode
  split <;> rename_i hop
  case h_1 =>
    rw [selector_special.2 ⟨field_eq_of_toNat hop, rfl⟩] at h
    exact decodeSpecial_of_noRow h
  case h_2 =>
    rw [selector_regimm.2 ⟨field_eq_of_toNat hop, rfl⟩] at h
    exact decodeRegimm_of_noRow h
  case h_17 =>
    rw [selector_special2.2 ⟨field_eq_of_toNat hop, rfl⟩] at h
    exact decodeSpecial2_of_noRow h
  case h_32 => rfl -- no arm of the map
  all_goals
    rw [selector_primary.2 ⟨field_eq_of_toNat hop, by decide⟩] at h
    exact absurd h (by decide)

/-- Settles O4: the rows decode as stated, to the instruction whose word it is by `encodeOfDecode`. -/
theorem decodeFollowsOpcodeTable : Obligations.DecodeFollowsOpcodeTable := by
  refine fun w => ⟨fun row hrow hsel => ?_, decode_of_noRow⟩
  obtain ⟨f, hdecodes, hmnemonic⟩ := rowDecodes_of_mem row hrow
  obtain ⟨hmeets, hmisses⟩ := hdecodes w
  refine ⟨fun hw => ?_, hmisses hsel.symm⟩
  exact ⟨f w, hmeets hw, hmnemonic w, encodeOfDecode w (f w) (hmeets hw)⟩

end Sys2Proof.Proofs
